-- ==== Sys2Proof/Word.lean ====
section
/-! DEFINITION. The word and byte types of the RV32I unit (spec/00_scope.md rules R7 and R9: XLEN = 32, bytes of 8 bits). -/

namespace Sys2Proof

/-- A 32-bit word (R9: "a 32-bit value is called a word"). -/
abbrev Word := BitVec 32

/-- One byte of memory or of a register slot's byte view (R61). -/
abbrev Byte := BitVec 8

/-- The name of a general register x0..x31: the 5-bit fields reach slots 0..31 only (R39, R142). -/
abbrev Reg := Fin 32

end Sys2Proof
end

