-- ==== Sys2Proof/Config.lean ====
section
/-! DEFINITION. What the spec leaves to the implementation or the host: the byte orders, the launch parameters'
values this model names for its reset state, and the one free value, a device's answer (spec/00_scope.md rule R7,
spec/92_eei_decisions.md D3 to D5, D19, D23). -/

namespace Sys2Proof

/-- The byte order `ENDIAN` (R92): one configuration value shared by the decoder and the register file (D5). -/
inductive Endian where
  | little
  | big
deriving DecidableEq, Repr

/-- Which of a device's two operations a call was (R67, R90). -/
inductive CallKind where
  | read
  | write
deriving DecidableEq, Repr

/-- One call of a memory-mapped device (R90, R91): the device's name, the operation, the access's address and size,
and the bytes: for a write the bytes written, for a read the bytes the device answered. -/
structure DeviceCall where
  device : String
  kind   : CallKind
  addr   : Nat
  size   : Nat
  bytes  : List Byte
deriving DecidableEq, Repr

namespace Config

/-- FREE VALUE (log entry 9). Byte `k` of what device `device` answers to a read of `size` bytes at `addr`, when
`history` lists every earlier device call, oldest first, and `draw` counts the answers drawn before. Rule R90: "a
model takes [it] as a draw (an oracle answer that may depend on every earlier access to the device) and never as a
fixed value". It has no body, so no proof can know an answer. Arguments in order: draw, history, device, addr,
size, k. -/
opaque deviceByte : Nat → List DeviceCall → String → Nat → Nat → Nat → Byte

/-- DESIGN CHOICE (log entry 5): the byte order at reset. The spec's parameter `ENDIAN` has the default `little` (D5). -/
def endian : Endian := .little

/-- DESIGN CHOICE (log entry 1): `MEM_START` of the reset state; the spec leaves it OPEN (R7, R62). -/
def memStart : Nat := 0

/-- DESIGN CHOICE (log entry 1): `MEM_SIZE` of the reset state, the whole 48-bit address space of rule R60. -/
def memSize : Nat := 0x1000000000000

/-- DESIGN CHOICE (log entry 1): `REGION_SIZE` (G) of the reset state, the granule of the spec's first scenario (R89). -/
def regionSize : Nat := 0x800

/-- DESIGN CHOICE (log entry 3): `ENTRY_PC` of the reset state; the spec leaves it OPEN (D4). -/
def entryPc : Word := 0

/-- DESIGN CHOICE (log entry 4): the value of each of x1..x31 in the reset state; the spec leaves `INIT_REGS` OPEN
(D3). -/
def initReg : Word := 0

end Config

end Sys2Proof
end

