-- ==== Sys2Proof/Machine/Bytes.lean ====
section
/-! DEFINITION. Byte order (spec/20_memory.md rules R61, R100) and the sparse list of cells that holds a
NormalRegion's bytes (rule R66). -/

namespace Sys2Proof.Machine

/-! ### Byte order -/

/-- The `n` low-order bytes of `v`, least significant first (`bytes_little`, R100). -/
def leBytes : Nat → Nat → List Byte
  | _, 0 => []
  | v, n + 1 => BitVec.ofNat 8 v :: leBytes (v / 256) n

/-- The value of a buffer whose first byte is the least significant (`val_little`, R100). -/
def leVal : List Byte → Nat
  | [] => 0
  | b :: bs => b.toNat + 256 * leVal bs

/-- `bytes_E(v, n)` (R100): the `n` low-order bytes of `v` in byte order `e`, lowest address first. -/
def bytesOf (e : Endian) (v n : Nat) : List Byte :=
  match e with
  | .little => leBytes v n
  | .big => (leBytes v n).reverse

/-- `val_E(bs)` as an unsigned integer (R100). -/
def valOf (e : Endian) (bs : List Byte) : Nat :=
  match e with
  | .little => leVal bs
  | .big => leVal bs.reverse

/-- `val_E(bs)` of a 4-byte buffer as a word (R100, R101). -/
def wordOf (e : Endian) (bs : List Byte) : Word := BitVec.ofNat 32 (valOf e bs)

/-! ### Cells -/

/-- What an address of a NormalRegion reads as when no cell lists it: the region is "Created empty (zero-filled)"
(R66, R393). An address of no NormalRegion has no byte at all (R72). -/
def unlistedByte : Byte := 0#8

/-- The byte the cells give an address. -/
def cellsGet : List Host.Cell → Nat → Byte
  | [], _ => unlistedByte
  | c :: cs, a => if c.1 = a then c.2 else cellsGet cs a

/-- The cells with the byte at one address set: addresses keep rising, and an entry equal to `unlistedByte` is left out. -/
def cellsSet : List Host.Cell → Nat → Byte → List Host.Cell
  | [], a, b => if b = unlistedByte then [] else [(a, b)]
  | c :: cs, a, b =>
    if c.1 < a then c :: cellsSet cs a b
    else
      let rest := if c.1 = a then cs else c :: cs
      if b = unlistedByte then rest else (a, b) :: rest

/-- The cells with consecutive bytes set from one address on. -/
def cellsSetMany : List Host.Cell → Nat → List Byte → List Host.Cell
  | cs, _, [] => cs
  | cs, a, b :: bs => cellsSetMany (cellsSet cs a b) (a + 1) bs

/-- The `n` bytes the cells give from one address on. -/
def cellsRead (cs : List Host.Cell) (a n : Nat) : List Byte := (List.range n).map fun k => cellsGet cs (a + k)

end Sys2Proof.Machine
end

