-- ==== Sys2Proof/Syntax.lean ====
section
/-! DEFINITION. The decoder's record (spec/30_encoding.md rule R143) and the instructions, one constructor for each
row of spec/opcode_table.json (rule R152). -/

namespace Sys2Proof

/-- The instruction record the decoder produces (R143): the address, the raw word, the fixed fields of R142 and the
five sign-extended immediates of R145 to R149, all computed for every word (R150). -/
structure InstRecord where
  address    : Word
  word       : Word
  baseOpcode : BitVec 5
  rd         : Reg
  rs1        : Reg
  rs2        : Reg
  funct3     : BitVec 3
  funct7     : BitVec 7
  immI       : Word
  immS       : Word
  immB       : Word
  immU       : Word
  immJ       : Word
deriving DecidableEq, Repr

/-- Why a decode call refuses its input, each case by its own name. `notFourBytes` is the host-only `DecoderError`
(R356); the others are the ways a word is illegal (R154), all reported as `IllegalInstException`. -/
inductive DecodeRefusal where
  /-- The buffer does not hold exactly 4 bytes (R356, D21); a step never makes this call. -/
  | notFourBytes
  /-- Bits [1:0] are not `0b11` (R140, R141). -/
  | lowBits
  /-- The major opcode is one the RV32I unit does not claim (R153, R185). -/
  | unclaimedOpcode
  /-- OP_IMM funct3 `001` or `101` with a bad `imm[11:5]` (R207, R210). -/
  | shiftEncoding
  /-- OP with a (funct3, funct7) pair that selects no instruction (R230). -/
  | opFunct7
  /-- JALR with funct3 other than `000` (R261). -/
  | jalrFunct3
  /-- BRANCH with funct3 `010` or `011` (R262). -/
  | branchFunct3
  /-- LOAD or STORE with width code 3 (R292, R306). -/
  | widthCode
  /-- MISC_MEM with funct3 other than `000` (R331). -/
  | miscMemFunct3
  /-- A SYSTEM word other than `0x00000073` and `0x00100073` (R334). -/
  | systemWord
deriving DecidableEq, Repr

/-- The instructions of rule R152. Immediates are the 32-bit sign-extended values the decoder's record holds (R145
to R149); which values an encoding admits is `Instr.wellFormed`. -/
inductive Instr where
  | lui    (rd : Reg) (imm : Word)
  | auipc  (rd : Reg) (imm : Word)
  | jal    (rd : Reg) (imm : Word)
  | jalr   (rd rs1 : Reg) (imm : Word)
  | beq    (rs1 rs2 : Reg) (imm : Word)
  | bne    (rs1 rs2 : Reg) (imm : Word)
  | blt    (rs1 rs2 : Reg) (imm : Word)
  | bge    (rs1 rs2 : Reg) (imm : Word)
  | bltu   (rs1 rs2 : Reg) (imm : Word)
  | bgeu   (rs1 rs2 : Reg) (imm : Word)
  | lb     (rd rs1 : Reg) (imm : Word)
  | lh     (rd rs1 : Reg) (imm : Word)
  | lw     (rd rs1 : Reg) (imm : Word)
  | lbu    (rd rs1 : Reg) (imm : Word)
  | lhu    (rd rs1 : Reg) (imm : Word)
  | lwu    (rd rs1 : Reg) (imm : Word)
  | sb     (rs2 rs1 : Reg) (imm : Word)
  | sh     (rs2 rs1 : Reg) (imm : Word)
  | sw     (rs2 rs1 : Reg) (imm : Word)
  | sbF4   (rs2 rs1 : Reg) (imm : Word)
  | shF5   (rs2 rs1 : Reg) (imm : Word)
  | swF6   (rs2 rs1 : Reg) (imm : Word)
  | addi   (rd rs1 : Reg) (imm : Word)
  | slti   (rd rs1 : Reg) (imm : Word)
  | sltiu  (rd rs1 : Reg) (imm : Word)
  | xori   (rd rs1 : Reg) (imm : Word)
  | ori    (rd rs1 : Reg) (imm : Word)
  | andi   (rd rs1 : Reg) (imm : Word)
  | slli   (rd rs1 : Reg) (shamt : Fin 32)
  | srli   (rd rs1 : Reg) (shamt : Fin 32)
  | srai   (rd rs1 : Reg) (shamt : Fin 32)
  | add    (rd rs1 rs2 : Reg)
  | sub    (rd rs1 rs2 : Reg)
  | sll    (rd rs1 rs2 : Reg)
  | slt    (rd rs1 rs2 : Reg)
  | sltu   (rd rs1 rs2 : Reg)
  | xor    (rd rs1 rs2 : Reg)
  | srl    (rd rs1 rs2 : Reg)
  | sra    (rd rs1 rs2 : Reg)
  | or     (rd rs1 rs2 : Reg)
  | and    (rd rs1 rs2 : Reg)
  /-- FENCE keeps its five ignored fields (R330), so that no bit of its word is dropped by decoding. -/
  | fence  (fm pred succ : BitVec 4) (rs1 rd : Reg)
  | ecall
  | ebreak
deriving DecidableEq, Repr

end Sys2Proof
end

