-- ==== Sys2Proof/WellFormed.lean ====
section
/-! DEFINITION. Which operand values an encoding admits (spec/30_encoding.md rules R145 to R150). -/

namespace Sys2Proof

/-- A value a 12-bit I- or S-immediate can take after sign extension: −2048 .. 2047 (R145, R146). -/
def fitsImm12 (imm : Word) : Bool := imm == (imm.extractLsb' 0 12).signExtend 32

/-- A value a B-immediate can take: even, −4096 .. 4094 (R147). -/
def fitsImmB (imm : Word) : Bool := imm == (imm.extractLsb' 0 13).signExtend 32 && !imm.getLsbD 0

/-- A value a U-immediate can take: its low 12 bits are zero (R148). -/
def fitsImmU (imm : Word) : Bool := imm.extractLsb' 0 12 == 0#12

/-- A value a J-immediate can take: even, −1048576 .. 1048574 (R149). -/
def fitsImmJ (imm : Word) : Bool := imm == (imm.extractLsb' 0 21).signExtend 32 && !imm.getLsbD 0

/-- The instruction's immediate, where it has one, is a value its format can encode. Register names, shift amounts
(R150: `imm_i[4:0]`) and FENCE's fields are bounded by their types. -/
def Instr.wellFormed : Instr → Bool
  | .lui _ imm | .auipc _ imm => fitsImmU imm
  | .jal _ imm => fitsImmJ imm
  | .beq _ _ imm | .bne _ _ imm | .blt _ _ imm | .bge _ _ imm | .bltu _ _ imm | .bgeu _ _ imm => fitsImmB imm
  | .jalr _ _ imm
  | .lb _ _ imm | .lh _ _ imm | .lw _ _ imm | .lbu _ _ imm | .lhu _ _ imm | .lwu _ _ imm
  | .sb _ _ imm | .sh _ _ imm | .sw _ _ imm | .sbF4 _ _ imm | .shF5 _ _ imm | .swF6 _ _ imm
  | .addi _ _ imm | .slti _ _ imm | .sltiu _ _ imm | .xori _ _ imm | .ori _ _ imm | .andi _ _ imm => fitsImm12 imm
  | .slli _ _ _ | .srli _ _ _ | .srai _ _ _ => true
  | .add _ _ _ | .sub _ _ _ | .sll _ _ _ | .slt _ _ _ | .sltu _ _ _
  | .xor _ _ _ | .srl _ _ _ | .sra _ _ _ | .or _ _ _ | .and _ _ _ => true
  | .fence _ _ _ _ _ | .ecall | .ebreak => true

end Sys2Proof
end

