-- ==== Sys2Proof/Decode.lean ====
section
/-! DEFINITION. The decoder (spec/30_encoding.md rules R140 to R154): total on any buffer, refusing by name; and after it
the encoder, written from the same formats (R144) and numbers (R151, R152). -/

namespace Sys2Proof

open Sys2Proof.Machine

/-! ### Fields and immediates -/

/-- A 5-bit field as a register name (R142). -/
def regOf (b : BitVec 5) : Reg := b.toFin

/-- A register name as its 5-bit field (R144). -/
def regBits (r : Reg) : BitVec 5 := BitVec.ofFin r

/-- `imm_i = sext_32(inst[31:20])` (R145). -/
def immI (w : Word) : Word := (w.extractLsb' 20 12).signExtend 32

/-- `imm_s = sext_32(inst[31:25] ++ inst[11:7])` (R146). -/
def immS (w : Word) : Word := (w.extractLsb' 25 7 ++ w.extractLsb' 7 5 : BitVec 12).signExtend 32

/-- `imm_b = sext_32(inst[31] ++ inst[7] ++ inst[30:25] ++ inst[11:8] ++ 0b0)` (R147; concatenation, not AND: C2). -/
def immB (w : Word) : Word :=
  (w.extractLsb' 31 1 ++ w.extractLsb' 7 1 ++ w.extractLsb' 25 6 ++ w.extractLsb' 8 4 ++ 0#1 : BitVec 13).signExtend 32

/-- `imm_u = inst[31:12] ++ 0b000000000000` (R148). -/
def immU (w : Word) : Word := w.extractLsb' 12 20 ++ 0#12

/-- `imm_j = sext_32(inst[31] ++ inst[19:12] ++ inst[20] ++ inst[30:21] ++ 0b0)` (R149). -/
def immJ (w : Word) : Word :=
  (w.extractLsb' 31 1 ++ w.extractLsb' 12 8 ++ w.extractLsb' 20 1 ++ w.extractLsb' 21 10 ++ 0#1 : BitVec 21).signExtend 32

/-- The record of a word fetched from `pc`: the fixed fields of R142 and all five immediates (R143, R150). -/
def recordOf (pc w : Word) : InstRecord where
  address    := pc
  word       := w
  baseOpcode := w.extractLsb' 2 5
  rd         := regOf (w.extractLsb' 7 5)
  rs1        := regOf (w.extractLsb' 15 5)
  rs2        := regOf (w.extractLsb' 20 5)
  funct3     := w.extractLsb' 12 3
  funct7     := w.extractLsb' 25 7
  immI       := immI w
  immS       := immS w
  immB       := immB w
  immU       := immU w
  immJ       := immJ w

/-- The decoder (R141): the word in the configured byte order, the check of bits [1:0], the record. A buffer that is
not 4 bytes is refused by name (`DecoderError`, R356); a step never passes one. -/
def decodeRecord (e : Endian) (pc : Word) (buf : List Byte) : Except DecodeRefusal InstRecord :=
  if buf.length ≠ 4 then .error .notFourBytes
  else if (wordOf e buf).extractLsb' 0 2 ≠ 0b11#2 then .error .lowBits
  else .ok (recordOf pc (wordOf e buf))

/-! ### The opcode map -/

/-- LOAD (R151). -/
def opcLoad : BitVec 5 := 0b00000#5
/-- MISC_MEM (R151). -/
def opcMiscMem : BitVec 5 := 0b00011#5
/-- OP_IMM (R151). -/
def opcOpImm : BitVec 5 := 0b00100#5
/-- AUIPC (R151). -/
def opcAuipc : BitVec 5 := 0b00101#5
/-- STORE (R151). -/
def opcStore : BitVec 5 := 0b01000#5
/-- OP (R151). -/
def opcOp : BitVec 5 := 0b01100#5
/-- LUI (R151). -/
def opcLui : BitVec 5 := 0b01101#5
/-- BRANCH (R151). -/
def opcBranch : BitVec 5 := 0b11000#5
/-- JALR (R151). -/
def opcJalr : BitVec 5 := 0b11001#5
/-- JAL (R151). -/
def opcJal : BitVec 5 := 0b11011#5
/-- SYSTEM (R151). -/
def opcSystem : BitVec 5 := 0b11100#5

/-- The eleven major opcodes the one RV32I unit claims (R151, R185); for any other it returns `false` (R153). -/
def claims (opc : BitVec 5) : Bool :=
  [opcLoad, opcMiscMem, opcOpImm, opcAuipc, opcStore, opcOp, opcLui, opcBranch, opcJalr, opcJal, opcSystem].contains opc

/-! ### Selection within a major opcode (R152) -/

/-- LOAD by funct3; width code 3 is illegal (R292, R306). -/
def selectLoad (r : InstRecord) : Except DecodeRefusal Instr :=
  match r.funct3.toNat with
  | 0 => .ok (.lb r.rd r.rs1 r.immI)
  | 1 => .ok (.lh r.rd r.rs1 r.immI)
  | 2 => .ok (.lw r.rd r.rs1 r.immI)
  | 4 => .ok (.lbu r.rd r.rs1 r.immI)
  | 5 => .ok (.lhu r.rd r.rs1 r.immI)
  | 6 => .ok (.lwu r.rd r.rs1 r.immI)
  | _ => .error .widthCode

/-- STORE by funct3, with `imm_s` (C3); width code 3 is illegal (R292, R306). -/
def selectStore (r : InstRecord) : Except DecodeRefusal Instr :=
  match r.funct3.toNat with
  | 0 => .ok (.sb r.rs2 r.rs1 r.immS)
  | 1 => .ok (.sh r.rs2 r.rs1 r.immS)
  | 2 => .ok (.sw r.rs2 r.rs1 r.immS)
  | 4 => .ok (.sbF4 r.rs2 r.rs1 r.immS)
  | 5 => .ok (.shF5 r.rs2 r.rs1 r.immS)
  | 6 => .ok (.swF6 r.rs2 r.rs1 r.immS)
  | _ => .error .widthCode

/-- OP_IMM by funct3; the shifts by `imm[11:5] = funct7` too, their amount `imm_i[4:0] = inst[24:20]` (R150, R200,
R207, R210). -/
def selectOpImm (r : InstRecord) : Except DecodeRefusal Instr :=
  match r.funct3.toNat with
  | 0 => .ok (.addi r.rd r.rs1 r.immI)
  | 2 => .ok (.slti r.rd r.rs1 r.immI)
  | 3 => .ok (.sltiu r.rd r.rs1 r.immI)
  | 4 => .ok (.xori r.rd r.rs1 r.immI)
  | 6 => .ok (.ori r.rd r.rs1 r.immI)
  | 7 => .ok (.andi r.rd r.rs1 r.immI)
  | 1 => if r.funct7 = 0b0000000#7 then .ok (.slli r.rd r.rs1 r.rs2) else .error .shiftEncoding
  | _ =>
    if r.funct7 = 0b0000000#7 then .ok (.srli r.rd r.rs1 r.rs2)
    else if r.funct7 = 0b0100000#7 then .ok (.srai r.rd r.rs1 r.rs2)
    else .error .shiftEncoding

/-- OP by funct3 and funct7 (R230). -/
def selectOp (r : InstRecord) : Except DecodeRefusal Instr :=
  if r.funct7 = 0b0000000#7 then
    match r.funct3.toNat with
    | 0 => .ok (.add r.rd r.rs1 r.rs2)
    | 1 => .ok (.sll r.rd r.rs1 r.rs2)
    | 2 => .ok (.slt r.rd r.rs1 r.rs2)
    | 3 => .ok (.sltu r.rd r.rs1 r.rs2)
    | 4 => .ok (.xor r.rd r.rs1 r.rs2)
    | 5 => .ok (.srl r.rd r.rs1 r.rs2)
    | 6 => .ok (.or r.rd r.rs1 r.rs2)
    | _ => .ok (.and r.rd r.rs1 r.rs2)
  else if r.funct7 = 0b0100000#7 then
    match r.funct3.toNat with
    | 0 => .ok (.sub r.rd r.rs1 r.rs2)
    | 5 => .ok (.sra r.rd r.rs1 r.rs2)
    | _ => .error .opFunct7
  else .error .opFunct7

/-- BRANCH by funct3 (R262). -/
def selectBranch (r : InstRecord) : Except DecodeRefusal Instr :=
  match r.funct3.toNat with
  | 0 => .ok (.beq r.rs1 r.rs2 r.immB)
  | 1 => .ok (.bne r.rs1 r.rs2 r.immB)
  | 4 => .ok (.blt r.rs1 r.rs2 r.immB)
  | 5 => .ok (.bge r.rs1 r.rs2 r.immB)
  | 6 => .ok (.bltu r.rs1 r.rs2 r.immB)
  | 7 => .ok (.bgeu r.rs1 r.rs2 r.immB)
  | _ => .error .branchFunct3

/-- MISC_MEM: funct3 `000` is FENCE whatever the other bits; fm, pred, succ are `inst[31:28]`, `[27:24]`, `[23:20]`
(R330, R331). -/
def selectMiscMem (r : InstRecord) : Except DecodeRefusal Instr :=
  if r.funct3 = 0b000#3 then
    .ok (.fence (r.word.extractLsb' 28 4) (r.word.extractLsb' 24 4) (r.word.extractLsb' 20 4) r.rs1 r.rd)
  else .error .miscMemFunct3

/-- The word of ECALL (R332). -/
def ecallWord : Word := 0x00000073#32
/-- The word of EBREAK (R333). -/
def ebreakWord : Word := 0x00100073#32

/-- SYSTEM: exactly two words (R332 to R334; C11). -/
def selectSystem (r : InstRecord) : Except DecodeRefusal Instr :=
  if r.word = ecallWord then .ok .ecall
  else if r.word = ebreakWord then .ok .ebreak
  else .error .systemWord

/-- The unit's claim (R185), then the selection inside the claimed major opcode (R186). -/
def selectInstr (r : InstRecord) : Except DecodeRefusal Instr :=
  if claims r.baseOpcode = false then .error .unclaimedOpcode
  else if r.baseOpcode = opcLoad then selectLoad r
  else if r.baseOpcode = opcMiscMem then selectMiscMem r
  else if r.baseOpcode = opcOpImm then selectOpImm r
  else if r.baseOpcode = opcAuipc then .ok (.auipc r.rd r.immU)
  else if r.baseOpcode = opcStore then selectStore r
  else if r.baseOpcode = opcOp then selectOp r
  else if r.baseOpcode = opcLui then .ok (.lui r.rd r.immU)
  else if r.baseOpcode = opcBranch then selectBranch r
  else if r.baseOpcode = opcJalr then
    if r.funct3 = 0b000#3 then .ok (.jalr r.rd r.rs1 r.immI) else .error .jalrFunct3
  else if r.baseOpcode = opcJal then .ok (.jal r.rd r.immJ)
  else selectSystem r

/-- The instruction a buffer fetched from `pc` holds: the decoder, then the unit. -/
def decodeInstr (e : Endian) (pc : Word) (buf : List Byte) : Except DecodeRefusal Instr :=
  match decodeRecord e pc buf with
  | .error d => .error d
  | .ok r => selectInstr r

/-- The instruction a word stands for, without its bytes: rule R154's classification of words. -/
def decodeWord (w : Word) : Except DecodeRefusal Instr :=
  if w.extractLsb' 0 2 ≠ 0b11#2 then .error .lowBits else selectInstr (recordOf 0 w)

/-- The host's view of the decoder: a table word of `nbits` bits, stored as the hardware stores it and decoded. -/
def decodeTableWord (nbits w : Nat) : Option Instr :=
  match decodeInstr Config.endian 0 (bytesOf Config.endian (w % 2 ^ nbits) 4) with
  | .ok i => some i
  | .error _ => none

/-! ### The encoder (R144 formats, R151 and R152 numbers) -/

/-- The 7-bit opcode: `baseOpcode ++ 0b11` (R144). -/
def opcode (opc : BitVec 5) : BitVec 7 := opc ++ 0b11#2

/-- R format (R144). -/
def encR (f7 : BitVec 7) (rs2 rs1 : Reg) (f3 : BitVec 3) (rd : Reg) (opc : BitVec 5) : Word :=
  f7 ++ regBits rs2 ++ regBits rs1 ++ f3 ++ regBits rd ++ opcode opc

/-- I format (R144). -/
def encI (imm : Word) (rs1 : Reg) (f3 : BitVec 3) (rd : Reg) (opc : BitVec 5) : Word :=
  imm.extractLsb' 0 12 ++ regBits rs1 ++ f3 ++ regBits rd ++ opcode opc

/-- S format (R144). -/
def encS (imm : Word) (rs2 rs1 : Reg) (f3 : BitVec 3) (opc : BitVec 5) : Word :=
  imm.extractLsb' 5 7 ++ regBits rs2 ++ regBits rs1 ++ f3 ++ imm.extractLsb' 0 5 ++ opcode opc

/-- B format (R144). -/
def encB (imm : Word) (rs2 rs1 : Reg) (f3 : BitVec 3) (opc : BitVec 5) : Word :=
  imm.extractLsb' 12 1 ++ imm.extractLsb' 5 6 ++ regBits rs2 ++ regBits rs1 ++ f3
    ++ imm.extractLsb' 1 4 ++ imm.extractLsb' 11 1 ++ opcode opc

/-- U format (R144). -/
def encU (imm : Word) (rd : Reg) (opc : BitVec 5) : Word :=
  imm.extractLsb' 12 20 ++ regBits rd ++ opcode opc

/-- J format (R144). -/
def encJ (imm : Word) (rd : Reg) (opc : BitVec 5) : Word :=
  imm.extractLsb' 20 1 ++ imm.extractLsb' 1 10 ++ imm.extractLsb' 11 1 ++ imm.extractLsb' 12 8 ++ regBits rd ++ opcode opc

/-- FENCE's fields in the I format's places (R330). -/
def encFence (fm pred succ : BitVec 4) (rs1 rd : Reg) : Word :=
  fm ++ pred ++ succ ++ regBits rs1 ++ 0b000#3 ++ regBits rd ++ opcode opcMiscMem

/-- The word of an instruction. -/
def encode : Instr → Word
  | .lui rd imm         => encU imm rd opcLui
  | .auipc rd imm       => encU imm rd opcAuipc
  | .jal rd imm         => encJ imm rd opcJal
  | .jalr rd rs1 imm    => encI imm rs1 0b000#3 rd opcJalr
  | .beq rs1 rs2 imm    => encB imm rs2 rs1 0b000#3 opcBranch
  | .bne rs1 rs2 imm    => encB imm rs2 rs1 0b001#3 opcBranch
  | .blt rs1 rs2 imm    => encB imm rs2 rs1 0b100#3 opcBranch
  | .bge rs1 rs2 imm    => encB imm rs2 rs1 0b101#3 opcBranch
  | .bltu rs1 rs2 imm   => encB imm rs2 rs1 0b110#3 opcBranch
  | .bgeu rs1 rs2 imm   => encB imm rs2 rs1 0b111#3 opcBranch
  | .lb rd rs1 imm      => encI imm rs1 0b000#3 rd opcLoad
  | .lh rd rs1 imm      => encI imm rs1 0b001#3 rd opcLoad
  | .lw rd rs1 imm      => encI imm rs1 0b010#3 rd opcLoad
  | .lbu rd rs1 imm     => encI imm rs1 0b100#3 rd opcLoad
  | .lhu rd rs1 imm     => encI imm rs1 0b101#3 rd opcLoad
  | .lwu rd rs1 imm     => encI imm rs1 0b110#3 rd opcLoad
  | .sb rs2 rs1 imm     => encS imm rs2 rs1 0b000#3 opcStore
  | .sh rs2 rs1 imm     => encS imm rs2 rs1 0b001#3 opcStore
  | .sw rs2 rs1 imm     => encS imm rs2 rs1 0b010#3 opcStore
  | .sbF4 rs2 rs1 imm   => encS imm rs2 rs1 0b100#3 opcStore
  | .shF5 rs2 rs1 imm   => encS imm rs2 rs1 0b101#3 opcStore
  | .swF6 rs2 rs1 imm   => encS imm rs2 rs1 0b110#3 opcStore
  | .addi rd rs1 imm    => encI imm rs1 0b000#3 rd opcOpImm
  | .slti rd rs1 imm    => encI imm rs1 0b010#3 rd opcOpImm
  | .sltiu rd rs1 imm   => encI imm rs1 0b011#3 rd opcOpImm
  | .xori rd rs1 imm    => encI imm rs1 0b100#3 rd opcOpImm
  | .ori rd rs1 imm     => encI imm rs1 0b110#3 rd opcOpImm
  | .andi rd rs1 imm    => encI imm rs1 0b111#3 rd opcOpImm
  | .slli rd rs1 shamt  => encR 0b0000000#7 shamt rs1 0b001#3 rd opcOpImm
  | .srli rd rs1 shamt  => encR 0b0000000#7 shamt rs1 0b101#3 rd opcOpImm
  | .srai rd rs1 shamt  => encR 0b0100000#7 shamt rs1 0b101#3 rd opcOpImm
  | .add rd rs1 rs2     => encR 0b0000000#7 rs2 rs1 0b000#3 rd opcOp
  | .sub rd rs1 rs2     => encR 0b0100000#7 rs2 rs1 0b000#3 rd opcOp
  | .sll rd rs1 rs2     => encR 0b0000000#7 rs2 rs1 0b001#3 rd opcOp
  | .slt rd rs1 rs2     => encR 0b0000000#7 rs2 rs1 0b010#3 rd opcOp
  | .sltu rd rs1 rs2    => encR 0b0000000#7 rs2 rs1 0b011#3 rd opcOp
  | .xor rd rs1 rs2     => encR 0b0000000#7 rs2 rs1 0b100#3 rd opcOp
  | .srl rd rs1 rs2     => encR 0b0000000#7 rs2 rs1 0b101#3 rd opcOp
  | .sra rd rs1 rs2     => encR 0b0100000#7 rs2 rs1 0b101#3 rd opcOp
  | .or rd rs1 rs2      => encR 0b0000000#7 rs2 rs1 0b110#3 rd opcOp
  | .and rd rs1 rs2     => encR 0b0000000#7 rs2 rs1 0b111#3 rd opcOp
  | .fence fm pred succ rs1 rd => encFence fm pred succ rs1 rd
  | .ecall              => ecallWord
  | .ebreak             => ebreakWord

end Sys2Proof
end

