-- ==== Sys2Proof/Machine/State.lean ====
section
/-! DEFINITION. The machine's state as plain data (spec/10_state.md rules R20, R43, R45, R46; spec/20_memory.md rules R62,
R64 to R67), the outcome a step reports (spec/40_core_step.md rule R191), the faults, and the state after reset. -/

namespace Sys2Proof.Machine

/-! ### The register file -/

/-- A register file of `n` slots of `w` bits with a byte order (R20: `W ∈ {32, 64}`, count, endianness). A slot is held
as its value; its byte view is `bytes_E` of the value (R26: two views of one storage). -/
structure RegFile (w n : Nat) where
  endian : Endian
  slots  : Vector (BitVec w) n
deriving DecidableEq, Repr

/-! ### The memory controller -/

/-- The two variants of region (R66, R67). A NormalRegion owns its bytes: the listed (address, byte) pairs, every other
address of the region reading as zero. An MMIORegion is a named device handle and holds no bytes. -/
inductive Backing where
  | normal (cells : List Host.Cell)
  | mmio (name : String)
deriving DecidableEq, Repr

/-- A region `[start, start + size)` (R64). -/
structure Region where
  start   : Nat
  size    : Nat
  backing : Backing
deriving DecidableEq, Repr

/-- The memory: its configuration and its ordered list of regions (R43, R62). `calls` and `draws` are the model's own
(log entry 9): every device call made, oldest first (R90, R91), and how many device answers have been drawn. -/
structure Memory where
  memoryStart : Nat
  memorySize  : Nat
  regionSize  : Nat
  regions     : List Region
  calls       : List DeviceCall
  draws       : Nat
deriving DecidableEq, Repr

/-- The memory layer's two errors (R70, R84; of the taxonomy R350). -/
inductive MemError where
  | memoryError
  | regionError
deriving DecidableEq, Repr

/-- The register file's two errors (R21, R23, R25; of the taxonomy R350). -/
inductive RegError where
  | registerFileError
  | registerError
deriving DecidableEq, Repr

/-! ### What a step reports -/

/-- The kind of a misaligned access (R191, R355). -/
inductive AccessKind where
  | fetch
  | load
  | store
deriving DecidableEq, Repr

/-- The two traps (R352). -/
inductive TrapKind where
  | ecall
  | ebreak
deriving DecidableEq, Repr

/-- The outcomes of a step that are not emulator errors (R191, payloads R359): it retires, or an architectural event
of the `InstError` taxonomy (R352) goes to the host. -/
inductive StepOutcome where
  /-- The instruction completed and the PC was written (R188). -/
  | retired
  /-- `Trap(ECALLTrap)` or `Trap(EBREAKTrap)`, carrying the decoded record (R332, R333, R357). -/
  | trap (kind : TrapKind) (rec : InstRecord)
  /-- `Exception(IllegalInstException)`: the PC and the fetched word (R354). -/
  | illegalInst (pc word : Word)
  /-- `Exception(MemMisalignedException)`: kind, PC, 48-bit address, size (R355). -/
  | memMisaligned (kind : AccessKind) (pc : Word) (addr size : Nat)
deriving DecidableEq, Repr

/-! ### The state -/

/-- The state of the unit (R45): the register file of 33 slots, slots 0..31 the general registers and slot 32 the PC
(R31), with the byte order `ENDIAN` (R92); and the memory (R43). `outcome` is the model's own (log entry 7): what the
last step reported to the host (R191, R384), `none` before the first step. -/
structure State where
  rf      : RegFile 32 33
  mem     : Memory
  outcome : Option StepOutcome
deriving DecidableEq, Repr

/-! ### Where the machine stops -/

/-- The emulator errors a step can meet (R190, R356): "recoverable only by aborting the run" (R350). Each carries the
failing access (R359) and the state the step leaves, which is the state before it plus the device reads it had already
made (R189, R358). -/
inductive Fault where
  /-- `Error(RegionError)`: a fetch or load of bytes no region holds (R72), or a store whose granule lies outside the
  bounds (R78). Raised by `fetch`, the loads and the stores. Safe: the spec ends the run here. -/
  | regionError (addr size : Nat) (after : State)
  /-- `Error(MemoryError)`: a store whose allocation a region blocks (R79, R81, R87). Raised by the stores. Safe: the
  spec ends the run here. -/
  | memoryError (addr size : Nat) (after : State)
deriving DecidableEq, Repr

/-- Why the model gives an instruction no meaning. -/
inductive Refusal where
  /-- The arm of `exec` has no meaning yet. Raised by no arm of this model. Safe: the model stops. -/
  | notModelled (mnemonic : String)
deriving DecidableEq, Repr

/-! ### Reset -/

/-- The state after the launch (R46, R390 to R393) with the parameter values `Config` names: x0 is 0 (D2), x1..x31 are
`Config.initReg` (log entry 4), the PC is `Config.entryPc` (log entry 3), the memory is constructed empty with the
bounds and granule of log entry 1 and no MMIO region (log entry 2). No program is placed (log entry 6). -/
def State.reset : State where
  rf      := { endian := Config.endian,
               slots := ((Vector.replicate 33 Config.initReg).set 0 0).set 32 Config.entryPc }
  mem     := { memoryStart := Config.memStart, memorySize := Config.memSize, regionSize := Config.regionSize,
               regions := [], calls := [], draws := 0 }
  outcome := none

end Sys2Proof.Machine
end

