-- ==== Sys2Proof/Machine/Flags.lean ====
section
/-! DEFINITION. The hardware has no flags or condition codes (spec/10_state.md rule R40): "comparisons deliver their result
as a word in `rd` ... or decide a branch directly". This file holds those comparisons (R10, R35, R241). -/

namespace Sys2Proof.Machine

/-- `<s`: two's-complement less-than (R10). -/
def ltSigned (a b : Word) : Bool := a.slt b

/-- `<u`: unsigned less-than (R10). -/
def ltUnsigned (a b : Word) : Bool := a.ult b

/-- `cond ? 1 : 0` as a word (R202, R234). -/
def boolWord (c : Bool) : Word := if c then 1#32 else 0#32

end Sys2Proof.Machine
end

