-- ==== Sys2Proof/Machine/Regions.lean ====
section
/-! DEFINITION. Regions on their own: endpoints, capability flags, geometric predicates, resize, relocate, merge
(spec/20_memory.md rules R64 to R69, R74, R75), and when a region is well formed (R65). -/

namespace Sys2Proof.Machine

namespace Region

/-- `regionEnd = regionStart + regionSize`, exclusive, computed without wrap-around (R60, R64). -/
def stop (r : Region) : Nat := r.start + r.size

/-- Is it a NormalRegion (R66)? -/
def isNormal (r : Region) : Bool :=
  match r.backing with
  | .normal _ => true
  | .mmio _ => false

/-- The capability `resizable`, a per-variant constant (R64, R66, R67). -/
def resizable (r : Region) : Bool := r.isNormal

/-- The capability `relocatable`: false for both variants (R66, R67). -/
def relocatable (_ : Region) : Bool := false

/-- The capability `mergeable`, a per-variant constant (R64, R66, R67). -/
def mergeable (r : Region) : Bool := r.isNormal

/-- The cells of a NormalRegion; an MMIORegion "holds no bytes of its own" (R67). -/
def cells (r : Region) : List Host.Cell :=
  match r.backing with
  | .normal cs => cs
  | .mmio _ => []

/-- A NormalRegion as it is created: zero-filled (R66). -/
def fresh (start size : Nat) : Region := { start := start, size := size, backing := .normal [] }

/-- The access `[addr, addr + size)` is in the region's range (R68, R71). -/
def holds (r : Region) (addr size : Nat) : Bool := decide (r.start ≤ addr ∧ addr + size ≤ r.stop)

/-! ### Geometric predicates (R69, half-open intervals) -/

/-- The region overlaps the range `[lo, hi)`. -/
def overlapsRange (r : Region) (lo hi : Nat) : Bool := decide (r.start < hi ∧ lo < r.stop)

/-- `a.isOverlap(b)` (R69). -/
def isOverlap (a b : Region) : Bool := a.overlapsRange b.start b.stop

/-- `a.isLowerThan(b)` (R69). -/
def isLowerThan (a b : Region) : Bool := decide (a.stop ≤ b.start)

/-- `a.isHigherThan(b)` (R69). -/
def isHigherThan (a b : Region) : Bool := decide (b.stop ≤ a.start)

/-- `a.isAlignLower(b)` (R69). -/
def isAlignLower (a b : Region) : Bool := decide (a.stop = b.start)

/-- `a.isAlignHigher(b)` (R69, D20). -/
def isAlignHigher (a b : Region) : Bool := decide (a.start = b.stop)

/-- `a.isAddressHigher(p)` (R69, D20). -/
def isAddressHigher (a : Region) (p : Nat) : Bool := decide (a.stop ≤ p)

/-- `a.isAddressLower(p)` (R69, D20). -/
def isAddressLower (a : Region) (p : Nat) : Bool := decide (p < a.start)

/-! ### Region operations (R74, R75) -/

/-- `resize(newSize)` (R74): grows only, zero-filling (D26); an MMIORegion is not resizable. The new bytes are zero
because no cell lies past the old end. -/
def resize (r : Region) (newSize : Nat) : Except MemError Region :=
  if r.resizable && decide (r.size ≤ newSize) then .ok { r with size := newSize } else .error .regionError

/-- `shrinkRegion(k)`: `false` always, without effect (R74). -/
def shrinkRegion (r : Region) (_k : Nat) : Bool × Region := (false, r)

/-- `expandRegion(k)`, `k > 0`: `true` on a NormalRegion with the effect of `resize(regionSize + k)`, `false` without
effect on an MMIORegion (R74, D26). -/
def expandRegion (r : Region) (k : Nat) : Bool × Region :=
  match r.resize (r.size + k) with
  | .ok r' => (true, r')
  | .error _ => (false, r)

/-- `relocate` always fails (R75, D26). -/
def relocate (_r : Region) (_newStart : Nat) : Except MemError Region := .error .regionError

/-- `this.merge(other)` (R75): both mergeable and `this.regionEnd = other.regionStart`; `other`'s bytes follow
`this`'s. -/
def merge (this other : Region) : Except MemError Region :=
  if this.mergeable && other.mergeable && decide (this.stop = other.start) then
    .ok { start := this.start, size := this.size + other.size, backing := .normal (this.cells ++ other.cells) }
  else .error .regionError

end Region

/-! ### Well-formedness (R65) -/

/-- The canonical form of a region's cells: addresses strictly rising, inside the region, and no entry equal to what an
unlisted address reads as. -/
abbrev CellsWf (lo hi : Nat) (cs : List Host.Cell) : Prop :=
  cs.Pairwise (fun a b => a.1 < b.1) ∧ ∀ c ∈ cs, (lo ≤ c.1 ∧ c.1 < hi) ∧ c.2 ≠ unlistedByte

/-- A region obeys R65's invariants for bounds `[ms, ms + mz)` and granule `g`. -/
abbrev Region.Wf (ms mz g : Nat) (r : Region) : Prop :=
  0 < r.size ∧ ms ≤ r.start ∧ r.stop ≤ ms + mz ∧ r.start % g = 0 ∧ CellsWf r.start r.stop r.cells

end Sys2Proof.Machine
end

