-- ==== Sys2Proof/Machine/Memory.lean ====
section
/-! DEFINITION. The memory controller (spec/20_memory.md rules R60 to R91): construction, lookup, read, write with write
allocation, adding a region, and the device calls. -/

namespace Sys2Proof.Machine

/-- The first region that satisfies `p`, replaced by `f` of it. -/
def updateFirst (p : Region → Bool) (f : Region → Region) : List Region → List Region
  | [] => []
  | r :: rs => if p r then f r :: rs else r :: updateFirst p f rs

/-- The region inserted so that the list stays sorted by `regionStart` (R84). -/
def insertSorted (r : Region) : List Region → List Region
  | [] => [r]
  | q :: qs => if r.start < q.start then r :: q :: qs else q :: insertSorted r qs

/-- The region with the greatest `regionEnd` among those with `regionEnd ≤ addr`, if any (R79). -/
def closestBelow (addr : Nat) : List Region → Option Region
  | [] => none
  | r :: rs =>
    match closestBelow addr rs with
    | none => if r.stop ≤ addr then some r else none
    | some p => if r.stop ≤ addr ∧ p.stop < r.stop then some r else some p

namespace Memory

/-! ### Configuration -/

/-- A positive power of two. -/
def isPow2 (g : Nat) : Bool := g == 2 ^ g.log2

/-- The constraints of R62 (D19): `G` a power of two, at least 8; `MZ` a positive multiple of `G`; `MS` a multiple of
`G`; `MS + MZ ≤ 2^48`. -/
def configOk (ms mz g : Nat) : Bool :=
  isPow2 g && decide (8 ≤ g) && decide (0 < mz) && decide (mz % g = 0) && decide (ms % g = 0) && decide (ms + mz ≤ 2 ^ 48)

/-- Construction (R62, R390 step 1): an empty memory, or `MemoryError` and no memory. -/
def construct (ms mz g : Nat) : Except MemError Memory :=
  if configOk ms mz g then
    .ok { memoryStart := ms, memorySize := mz, regionSize := g, regions := [], calls := [], draws := 0 }
  else .error .memoryError

/-- `MS + MZ`, the exclusive end of the bounds (R63). -/
def memoryEnd (m : Memory) : Nat := m.memoryStart + m.memorySize

/-! ### Lookup -/

/-- The access sizes (R70). -/
def validSize (size : Nat) : Bool := size == 1 || size == 2 || size == 4 || size == 8

/-- `findRegion(addr, size)`: the region fully containing `[addr, addr + size)` (R71). -/
def findRegion (m : Memory) (addr size : Nat) : Option Region := m.regions.find? fun r => r.holds addr size

/-- Some region overlaps the range `[lo, hi)` (R69, R79, R87). -/
def overlapsAny (m : Memory) (lo hi : Nat) : Bool := m.regions.any fun r => r.overlapsRange lo hi

/-- The byte a NormalRegion holds at an address; `none` where no NormalRegion covers it (R66, R72). The model's read of
one byte, for statements: it calls no device. -/
def byteAt (m : Memory) (a : Nat) : Option Byte :=
  match m.findRegion a 1 with
  | some r => if r.isNormal then some (cellsGet r.cells a) else none
  | none => none

/-- The whole memory as one list of cells, region by region. -/
def cells (m : Memory) : List Host.Cell := m.regions.flatMap Region.cells

/-! ### Devices (R90, R91) -/

/-- The bytes a device answers: a draw, exactly `size` bytes, free values (log entry 9). -/
def deviceAnswer (m : Memory) (name : String) (addr size : Nat) : List Byte :=
  (List.range size).map fun k => Config.deviceByte m.draws m.calls name addr size k

/-- One call of a device's reader: it answers and the call is recorded (R90). -/
def deviceRead (m : Memory) (name : String) (addr size : Nat) : List Byte × Memory :=
  let bs := m.deviceAnswer name addr size
  (bs, { m with calls := m.calls ++ [{ device := name, kind := .read, addr := addr, size := size, bytes := bs }],
                draws := m.draws + 1 })

/-- One call of a device's writer, recorded (R90). -/
def deviceWrite (m : Memory) (name : String) (addr size : Nat) (data : List Byte) : Memory :=
  { m with calls := m.calls ++ [{ device := name, kind := .write, addr := addr, size := size, bytes := data }] }

/-! ### Region-local access (R68) -/

/-- A region's `read(addr, size)` with local-range checking (R68): a copy of the bytes, or one device call. -/
def regionRead (m : Memory) (r : Region) (addr size : Nat) : Except MemError (List Byte × Memory) :=
  if r.holds addr size then
    match r.backing with
    | .normal cs => .ok (cellsRead cs addr size, m)
    | .mmio name => .ok (m.deviceRead name addr size)
  else .error .regionError

/-- A NormalRegion with bytes written from `addr` on. -/
def putBytes (addr : Nat) (data : List Byte) (r : Region) : Region :=
  match r.backing with
  | .normal cs => { r with backing := .normal (cellsSetMany cs addr data) }
  | .mmio _ => r

/-- The `write(addr, size, data)` of a region of the memory, with local-range checking (R68): the bytes copied in
order, or one device call. `r` is a region of `m`, named by being the one `findRegion` gives. DESIGN CHOICE (log entry 19):
R68 states no check that `data` holds exactly `size` bytes, so every byte of `data` is copied from `addr` on, also past
`size` or the region's end; `write` checks the length before it comes here (R76). -/
def regionWrite (m : Memory) (r : Region) (addr size : Nat) (data : List Byte) : Except MemError Memory :=
  if r.holds addr size then
    match r.backing with
    | .normal _ =>
      .ok { m with regions := updateFirst (fun q => q.holds addr size) (putBytes addr data) m.regions }
    | .mmio name => .ok (m.deviceWrite name addr size data)
  else .error .regionError

/-! ### Read (R70) -/

/-- `Memory.read(addr, size)` (R70): size, alignment, lookup, in that order. A read of bytes no region holds fails with
`RegionError` and allocates nothing (R72). -/
def read (m : Memory) (addr size : Nat) : Except MemError (List Byte × Memory) :=
  if validSize size = false then .error .memoryError
  else if addr % size ≠ 0 then .error .memoryError
  else
    match m.findRegion addr size with
    | some r => m.regionRead r addr size
    | none => .error .regionError

/-! ### Adding a region (R84, R85) -/

/-- Can an existing region absorb `r` (R85): both mergeable, and it ends where `r` starts (D18). -/
def absorbs (r e : Region) : Bool := e.mergeable && r.mergeable && decide (e.stop = r.start)

/-- The region merged below (R75); unchanged where they do not merge. -/
def mergedWith (r e : Region) : Region :=
  match e.merge r with
  | .ok q => q
  | .error _ => e

/-- The insertion of R84 with the merge of R85: absorbed by the region it adjoins from above, else put in its sorted
place. -/
def insertRegion (rs : List Region) (r : Region) : List Region :=
  if rs.any (absorbs r) then updateFirst (absorbs r) (mergedWith r) rs else insertSorted r rs

/-- `addRegion(r)` (R84): `RegionError` if it lies outside the bounds, its start is not a multiple of `G`, it overlaps
an existing region, or it is empty (log entry 12). -/
def addRegion (m : Memory) (r : Region) : Except MemError Memory :=
  if r.size = 0 then .error .regionError
  else if r.start < m.memoryStart ∨ m.memoryEnd < r.stop then .error .regionError
  else if r.start % m.regionSize ≠ 0 then .error .regionError
  else if m.overlapsAny r.start r.stop then .error .regionError
  else .ok { m with regions := insertRegion m.regions r }

/-! ### Write allocation (R77 to R83) -/

/-- Step 1 (R78): `alignedStart = addr & ~(G − 1)`, which for a power of two is `addr − addr mod G` (log entry 11). -/
def granuleStart (m : Memory) (addr : Nat) : Nat := addr - addr % m.regionSize

/-- `addRegion` inside allocation: its failure is step 5, `MemoryError` (R81). -/
def addOrBlock (m : Memory) (r : Region) : Except MemError Memory :=
  match m.addRegion r with
  | .ok m' => .ok m'
  | .error _ => .error .memoryError

/-- Step 3's extension (R79): the region `p` resized to end at `hi`. -/
def extendTo (hi : Nat) (p : Region) : Region :=
  match p.resize (hi - p.start) with
  | .ok p' => p'
  | .error _ => p

/-- The region the far end of `[a, a + G)` falls inside: `a < Q.regionStart ≤ a + G − 1` (R80). -/
def farEndRegion (m : Memory) (a : Nat) : Option Region :=
  m.regions.find? fun q => decide (a < q.start ∧ q.start ≤ a + m.regionSize - 1)

/-- Step 4 (R80). With regions at multiples of `G` no `Q` exists and the granule is added as it is. -/
def createGranule (m : Memory) (a : Nat) : Except MemError Memory :=
  match m.farEndRegion a with
  | none => m.addOrBlock (Region.fresh a m.regionSize)
  | some q =>
    let short := Region.fresh a (q.start - a)
    match short.merge q with
    | .ok merged => { m with regions := m.regions.erase q }.addOrBlock merged
    | .error _ => m.addOrBlock short

/-- Steps 1 to 5 (R78 to R81): the memory with the target granule of `addr` backed. -/
def allocate (m : Memory) (addr : Nat) : Except MemError Memory :=
  let a := m.granuleStart addr
  let hi := a + m.regionSize
  if a < m.memoryStart ∨ m.memoryEnd < hi then .error .regionError
  else if m.regions.isEmpty then m.addOrBlock (Region.fresh a m.regionSize)
  else
    match closestBelow addr m.regions with
    | some p =>
      if addr - p.stop < m.regionSize ∧ p.resizable then
        if m.overlapsAny p.stop hi then .error .memoryError
        else .ok { m with regions := updateFirst (fun q => q == p) (extendTo hi) m.regions }
      else m.createGranule a
    | none => m.createGranule a

/-- Write allocation and the retried write (R77, R83). -/
def allocateAndWrite (m : Memory) (addr size : Nat) (data : List Byte) : Except MemError Memory :=
  match m.allocate addr with
  | .error e => .error e
  | .ok m' =>
    match m'.findRegion addr size with
    | some r => m'.regionWrite r addr size data
    | none => .error .memoryError

/-! ### Write (R76) -/

/-- `Memory.write(addr, size, data)` (R76): size, alignment, data length, then the region's write or write allocation. -/
def write (m : Memory) (addr size : Nat) (data : List Byte) : Except MemError Memory :=
  if validSize size = false then .error .memoryError
  else if addr % size ≠ 0 then .error .memoryError
  else if data.length ≠ size then .error .memoryError
  else
    match m.findRegion addr size with
    | some r => m.regionWrite r addr size data
    | none => m.allocateAndWrite addr size data

/-! ### Convenience forms (R73) -/

/-- `readByte` (R73). -/
def readByte (m : Memory) (addr : Nat) : Except MemError (List Byte × Memory) := m.read addr 1
/-- `readHalfWord` (R73). -/
def readHalfWord (m : Memory) (addr : Nat) : Except MemError (List Byte × Memory) := m.read addr 2
/-- `readWord` (R73). -/
def readWord (m : Memory) (addr : Nat) : Except MemError (List Byte × Memory) := m.read addr 4
/-- `readDoubleWord` (R73). -/
def readDoubleWord (m : Memory) (addr : Nat) : Except MemError (List Byte × Memory) := m.read addr 8
/-- `writeByte` (R73). -/
def writeByte (m : Memory) (addr : Nat) (data : List Byte) : Except MemError Memory := m.write addr 1 data
/-- `writeHalfWord` (R73). -/
def writeHalfWord (m : Memory) (addr : Nat) (data : List Byte) : Except MemError Memory := m.write addr 2 data
/-- `writeWord` (R73). -/
def writeWord (m : Memory) (addr : Nat) (data : List Byte) : Except MemError Memory := m.write addr 4 data
/-- `writeDoubleWord` (R73). -/
def writeDoubleWord (m : Memory) (addr : Nat) (data : List Byte) : Except MemError Memory := m.write addr 8 data

/-! ### Well-formedness -/

/-- The invariants of R65 and the canonical form of the cells: a valid configuration; regions sorted by start and
disjoint; each inside the bounds, at a multiple of `G`, of positive size. -/
abbrev wf (m : Memory) : Prop :=
  configOk m.memoryStart m.memorySize m.regionSize = true ∧
  m.regions.Pairwise (fun a b => a.stop ≤ b.start) ∧
  ∀ r ∈ m.regions, r.Wf m.memoryStart m.memorySize m.regionSize

/-- Every NormalRegion's size is a multiple of `G`: the premise of the granule rules R87 and R88 (D28). -/
abbrev granular (m : Memory) : Prop :=
  ∀ r ∈ m.regions, r.isNormal = true → r.size % m.regionSize = 0

end Memory

end Sys2Proof.Machine
end

