-- ==== Sys2Proof/Machine/RegFile.lean ====
section
/-! DEFINITION. The register-file operations (spec/10_state.md rules R20 to R29): the host's view of the file, index and
payload checks included, for any width and count. The instruction rules use `slot` and `setSlot` and, for loads, the
byte-view write's extension. -/

namespace Sys2Proof.Machine

namespace RegFile

variable {w n : Nat}

/-- The value a slot holds. -/
def slot (f : RegFile w n) (i : Fin n) : BitVec w := f.slots.get i

/-- The file with one slot's value replaced. -/
def setSlot (f : RegFile w n) (i : Fin n) (v : BitVec w) : RegFile w n := { f with slots := f.slots.set i.val v i.isLt }

/-- The bytes of a slot, `B = W/8` (R20). -/
def slotBytes (w : Nat) : Nat := w / 8

/-- Byte-view read: the slot's `W/8` bytes in the file's byte order (R22); an invalid index fails (R21). -/
def read (f : RegFile w n) (i : Nat) : Except RegError (List Byte) :=
  if h : i < n then .ok (bytesOf f.endian (f.slot ⟨i, h⟩).toNat (slotBytes w)) else .error .registerFileError

/-- The incoming MSB byte of R23: the last byte in little order, the first in big order. -/
def msbByte (e : Endian) (bs : List Byte) : Byte :=
  match e with
  | .little => bs.getLastD 0
  | .big => bs.headD 0

/-- The extension byte X of R23: `0xFF` when signed and bit 7 of the incoming MSB byte is 1, else `0x00`. -/
def extByte (e : Endian) (bs : List Byte) (signed : Bool) : Byte :=
  if signed && (msbByte e bs).getLsbD 7 then 0xFF#8 else 0x00#8

/-- "the remaining high-order bytes are filled according to endianness" (R23): after the incoming bytes in little
order, before them in big order. -/
def extend (e : Endian) (b : Nat) (bs : List Byte) (signed : Bool) : List Byte :=
  let fill := List.replicate (b - bs.length) (extByte e bs signed)
  match e with
  | .little => bs ++ fill
  | .big => fill ++ bs

/-- The value a slot of `w` bits takes from a byte-view write of `bs` (R23). -/
def extendValue (w : Nat) (e : Endian) (bs : List Byte) (signed : Bool) : BitVec w :=
  BitVec.ofNat w (valOf e (extend e (slotBytes w) bs signed))

/-- Byte-view write (R23): an invalid index, an over-long buffer or an empty one fails and changes nothing. -/
def write (f : RegFile w n) (i : Nat) (bs : List Byte) (signed : Bool) : Except RegError (RegFile w n) :=
  if h : i < n then
    if slotBytes w < bs.length then .error .registerError
    else if bs.length = 0 then .error .registerError
    else .ok (f.setSlot ⟨i, h⟩ (extendValue w f.endian bs signed))
  else .error .registerFileError

/-- Value-view read (R24): the slot as an unsigned or two's-complement integer. -/
def readValue (f : RegFile w n) (i : Nat) (signed : Bool) : Except RegError Int :=
  if h : i < n then
    .ok (if signed then (f.slot ⟨i, h⟩).toInt else ((f.slot ⟨i, h⟩).toNat : Int))
  else .error .registerFileError

/-- The integers a value-view write admits (R25, D21). -/
def inRange (w : Nat) (v : Int) (signed : Bool) : Bool :=
  if signed then decide (-(2 ^ (w - 1) : Int) ≤ v ∧ v < 2 ^ (w - 1)) else decide (0 ≤ v ∧ v < 2 ^ w)

/-- Value-view write (R25): stores the integer modulo `2^W`; an out-of-range one fails and changes nothing. -/
def writeValue (f : RegFile w n) (i : Nat) (v : Int) (signed : Bool) : Except RegError (RegFile w n) :=
  if h : i < n then
    if inRange w v signed then .ok (f.setSlot ⟨i, h⟩ (BitVec.ofInt w v)) else .error .registerError
  else .error .registerFileError

/-- `copyRegister(dst, src)` (R27): both indices are validated. -/
def copyRegister (f : RegFile w n) (dst src : Nat) : Except RegError (RegFile w n) :=
  if hd : dst < n then
    if hs : src < n then .ok (f.setSlot ⟨dst, hd⟩ (f.slot ⟨src, hs⟩)) else .error .registerFileError
  else .error .registerFileError

end RegFile

/-! ### The PC slot of this hardware's file (R28, R31) -/

/-- Slot 32, the last index (R28, D1). -/
def pcSlot : Fin 33 := 32

/-- `getPC`: the byte-view read at the PC slot (R28). -/
def RegFile.getPC (f : RegFile 32 33) : Except RegError (List Byte) := f.read pcSlot.val

/-- `setPC`: the byte-view write at the PC slot (R28). -/
def RegFile.setPC (f : RegFile 32 33) (bs : List Byte) (signed : Bool) : Except RegError (RegFile 32 33) :=
  f.write pcSlot.val bs signed

/-- `getPCValue`: the value-view read at the PC slot (R28). -/
def RegFile.getPCValue (f : RegFile 32 33) (signed : Bool) : Except RegError Int := f.readValue pcSlot.val signed

/-- `setPCValue`: the value-view write at the PC slot (R28). -/
def RegFile.setPCValue (f : RegFile 32 33) (v : Int) (signed : Bool) : Except RegError (RegFile 32 33) :=
  f.writeValue pcSlot.val v signed

end Sys2Proof.Machine
end

