-- ==== Sys2Proof/Machine/Operands.lean ====
section
/-! DEFINITION. How an instruction reads and writes what it names (spec/00_scope.md rules R11 to R13,
spec/10_state.md rules R31, R32, R36): general registers, the PC, effective addresses, shift amounts. -/

namespace Sys2Proof.Machine

/-- Slot 0, the zero register's (R31). -/
def zeroReg : Reg := 0

/-- The slot of a general register (R31). -/
def regSlot (r : Reg) : Fin 33 := r.castSucc

namespace State

/-- The byte order (R92), the register file's (D5). -/
def endian (s : State) : Endian := s.rf.endian

/-- `x[i]` (R11, R31, R32): the word of slot i; `x[0]` reads 0 (log entry 15). -/
def x (s : State) (r : Reg) : Word := if r = zeroReg then 0#32 else s.rf.slot (regSlot r)

/-- `x[i] <- v` (R11, R31, R32): does nothing when i = 0. -/
def setX (s : State) (r : Reg) (v : Word) : State :=
  if r = zeroReg then s else { s with rf := s.rf.setSlot (regSlot r) v }

/-- The PC, the word in slot 32 (R36). -/
def pc (s : State) : Word := s.rf.slot pcSlot

/-- The PC slot written (R187: the value-view write `setPCValue`). -/
def setPc (s : State) (v : Word) : State := { s with rf := s.rf.setSlot pcSlot v }

/-- The state with its memory replaced. -/
def withMem (s : State) (m : Memory) : State := { s with mem := m }

end State

/-- `AddrOf(w) = zext_48(w)` as an unsigned integer (R13, D6). -/
def addrOf (w : Word) : Nat := (w.setWidth 48).toNat

/-- `pc + 4` modulo 2^32 (R37). -/
def nextPc (s : State) : Word := s.pc + 4#32

/-- `ea := x[rs1] + imm`, modulo 2^32 (R290). -/
def effectiveAddr (s : State) (rs1 : Reg) (imm : Word) : Word := s.x rs1 + imm

/-- `ea mod n = 0` (R291). -/
def aligned (ea : Word) (n : Nat) : Bool := ea.toNat % n == 0

/-- The shift amount of a register shift: bits [4:0] of the operand (R233). -/
def shiftAmount (v : Word) : Nat := (v.extractLsb' 0 5).toNat

end Sys2Proof.Machine
end

