-- ==== Sys2Proof/Machine/Ops.lean ====
section
/-! DEFINITION. The shared operations of the step and the instructions: retiring (spec/40_core_step.md rules R187, R188),
raising an architectural event (R13, R189, R191, R358), failing with an emulator error (R190), and the families'
common shapes. -/

namespace Sys2Proof.Machine

/-- What a meaning answers. -/
abbrev Result := Host.Outcome State Fault Refusal

namespace State

/-- A retiring step's end: the PC is written once, after the instruction's other writes (R187), and the outcome is
`Retired` (R188). -/
def retire (s : State) (next : Word) : State := { s.setPc next with outcome := some .retired }

/-- The state after an architectural event: the state before it (R189, R358) with the outcome reported to the host
(R191). There is no trap entry: no cause, saved PC or vector is written (R362). -/
def report (s : State) (o : StepOutcome) : State := { s with outcome := some o }

end State

/-- `raise E(info)` (R13): takes an exception or a trap. -/
def raise (s : State) (o : StepOutcome) : Result := .next (s.report o)

/-- `IllegalInstException(pc, word)` (R354). -/
def raiseIllegal (s : State) (word : Word) : Result := raise s (.illegalInst s.pc word)

/-- `MemMisalignedException(kind, pc, AddrOf(ea), n)` (R355). -/
def raiseMisaligned (s : State) (kind : AccessKind) (ea : Word) (n : Nat) : Result :=
  raise s (.memMisaligned kind s.pc (addrOf ea) n)

/-- A trap, carrying the record of the trapping word at the PC (R332, R333, R357). -/
def raiseTrap (s : State) (kind : TrapKind) (word : Word) : Result := raise s (.trap kind (recordOf s.pc word))

/-- `fail K` (R13, R351): the emulator error of a memory failure, with the failing access (R359). -/
def faultOf (e : MemError) (addr size : Nat) (after : State) : Fault :=
  match e with
  | .memoryError => .memoryError addr size after
  | .regionError => .regionError addr size after

/-- The host's way on after an event (R363: the hardware has no return): it sets the PC between steps (R382). -/
def resumeAt (s : State) (target : Word) : State := s.setPc target

/-! ### Memory through the state -/

/-- `MemReadBytes(addr, n)` (R12). -/
def memRead (s : State) (addr n : Nat) : Except MemError (List Byte × State) :=
  match s.mem.read addr n with
  | .ok (bs, m) => .ok (bs, s.withMem m)
  | .error e => .error e

/-- `MemWriteBytes(addr, n, bs)` (R12). -/
def memWrite (s : State) (addr n : Nat) (bs : List Byte) : Except MemError State :=
  match s.mem.write addr n bs with
  | .ok m => .ok (s.withMem m)
  | .error e => .error e

/-! ### The families' common shapes -/

/-- An instruction that writes one register and falls through (R200, R230). -/
def writeAndAdvance (s : State) (rd : Reg) (v : Word) : Result := .next ((s.setX rd v).retire (nextPc s))

/-- A conditional branch (R262): it writes no register and no memory. -/
def branchIf (s : State) (taken : Bool) (imm : Word) : Result :=
  .next (s.retire (if taken then s.pc + imm else nextPc s))

/-- A load of `n` bytes (R290 to R293, R307, R308): alignment, then the read, then the byte-view write of the register
file (R23) unless `rd = 0`; the read happens for `rd = 0` too. -/
def load (s : State) (n : Nat) (signed : Bool) (rd rs1 : Reg) (imm : Word) : Result :=
  let ea := effectiveAddr s rs1 imm
  if aligned ea n = false then raiseMisaligned s .load ea n
  else
    match memRead s (addrOf ea) n with
    | .error e => .fault (faultOf e (addrOf ea) n s)
    | .ok (bs, t) => .next ((t.setX rd (RegFile.extendValue 32 s.endian bs signed)).retire (nextPc s))

/-- The `n` low-order bytes of a register in byte order `ENDIAN`, which a store writes (R102). -/
def storeBytes (s : State) (rs2 : Reg) (n : Nat) : List Byte := bytesOf s.endian (s.x rs2).toNat n

/-- A store of `n` bytes (R299, R308): alignment, then `Memory.write` with its allocation. -/
def store (s : State) (n : Nat) (rs2 rs1 : Reg) (imm : Word) : Result :=
  let ea := effectiveAddr s rs1 imm
  if aligned ea n = false then raiseMisaligned s .store ea n
  else
    match memWrite s (addrOf ea) n (storeBytes s rs2 n) with
    | .error e => .fault (faultOf e (addrOf ea) n s)
    | .ok t => .next (t.retire (nextPc s))

/-! ### Fetch -/

/-- What fetching answers: the four bytes and the state after the read, or the result that ends the step. -/
inductive Fetched where
  | bytes (bs : List Byte) (after : State)
  | ended (r : Result)

/-- The fetch (R180 to R182): the PC's alignment, then one 4-byte read at `AddrOf(pc)`. -/
def fetch (s : State) : Fetched :=
  if aligned s.pc 4 = false then .ended (raiseMisaligned s .fetch s.pc 4)
  else
    match memRead s (addrOf s.pc) 4 with
    | .error e => .ended (.fault (faultOf e (addrOf s.pc) 4 s))
    | .ok (bs, t) => .bytes bs t

/-- A word stored at the PC as the host stores it (R383): the four bytes in byte order `ENDIAN`, by `Memory.write` with
its allocation; the state unchanged where that write fails. -/
def placeWord (s : State) (w : Word) : State :=
  match memWrite s (addrOf s.pc) 4 (bytesOf s.endian w.toNat 4) with
  | .ok t => t
  | .error _ => s

end Sys2Proof.Machine
end

