-- ==== Sys2Proof/Machine/Control.lean ====
section
/-! DEFINITION. Jumps and branches (spec/43_control_transfer.md rules R260 to R270). A target that is 2 modulo 4 is written
to the PC like any other; the next step's fetch reports it (R269). -/

namespace Sys2Proof.Machine

/-- The JALR target: `(x[rs1] + imm_i) & ~1` (R261). -/
def jalrTarget (s : State) (rs1 : Reg) (imm : Word) : Word := (s.x rs1 + imm) &&& ~~~1#32

/-- JAL (R260): `x[rd] <- pc + 4; pc <- pc + imm_j`. -/
def execJal (rd : Reg) (imm : Word) (s : State) : Result := .next ((s.setX rd (nextPc s)).retire (s.pc + imm))

/-- JALR (R261): the target from the old `x[rs1]`, then `x[rd] <- pc + 4; pc <- target`. -/
def execJalr (rd rs1 : Reg) (imm : Word) (s : State) : Result :=
  .next ((s.setX rd (nextPc s)).retire (jalrTarget s rs1 imm))

/-- BEQ (R263): taken when `x[rs1] = x[rs2]`. -/
def execBeq (rs1 rs2 : Reg) (imm : Word) (s : State) : Result := branchIf s (s.x rs1 == s.x rs2) imm

/-- BNE (R264): taken when `x[rs1] ≠ x[rs2]`. -/
def execBne (rs1 rs2 : Reg) (imm : Word) (s : State) : Result := branchIf s (s.x rs1 != s.x rs2) imm

/-- BLT (R265): taken when `x[rs1] <s x[rs2]`. -/
def execBlt (rs1 rs2 : Reg) (imm : Word) (s : State) : Result := branchIf s (ltSigned (s.x rs1) (s.x rs2)) imm

/-- BGE (R266): taken when `x[rs1] >=s x[rs2]`, the exact negation of BLT's. -/
def execBge (rs1 rs2 : Reg) (imm : Word) (s : State) : Result := branchIf s (!ltSigned (s.x rs1) (s.x rs2)) imm

/-- BLTU (R267): taken when `x[rs1] <u x[rs2]`. -/
def execBltu (rs1 rs2 : Reg) (imm : Word) (s : State) : Result := branchIf s (ltUnsigned (s.x rs1) (s.x rs2)) imm

/-- BGEU (R268): taken when `x[rs1] >=u x[rs2]`, the exact negation of BLTU's. -/
def execBgeu (rs1 rs2 : Reg) (imm : Word) (s : State) : Result := branchIf s (!ltUnsigned (s.x rs1) (s.x rs2)) imm

end Sys2Proof.Machine
end

