-- ==== Sys2Proof/Machine/LoadStore.lean ====
section
/-! DEFINITION. Loads and stores (spec/44_load_store.md rules R290 to R309). -/

namespace Sys2Proof.Machine

/-- LB (R293): one byte, sign-extended. -/
def execLb (rd rs1 : Reg) (imm : Word) (s : State) : Result := load s 1 true rd rs1 imm

/-- LH (R294): a halfword, sign-extended. -/
def execLh (rd rs1 : Reg) (imm : Word) (s : State) : Result := load s 2 true rd rs1 imm

/-- LW (R295): a word. -/
def execLw (rd rs1 : Reg) (imm : Word) (s : State) : Result := load s 4 true rd rs1 imm

/-- LBU (R296): one byte, zero-extended. -/
def execLbu (rd rs1 : Reg) (imm : Word) (s : State) : Result := load s 1 false rd rs1 imm

/-- LHU (R297): a halfword, zero-extended. -/
def execLhu (rd rs1 : Reg) (imm : Word) (s : State) : Result := load s 2 false rd rs1 imm

/-- LWU (R298): a word; LW's result, exceptions and effects. -/
def execLwu (rd rs1 : Reg) (imm : Word) (s : State) : Result := load s 4 false rd rs1 imm

/-- SB (R300): the low byte. -/
def execSb (rs2 rs1 : Reg) (imm : Word) (s : State) : Result := store s 1 rs2 rs1 imm

/-- SH (R301): the low halfword. -/
def execSh (rs2 rs1 : Reg) (imm : Word) (s : State) : Result := store s 2 rs2 rs1 imm

/-- SW (R302): the word. -/
def execSw (rs2 rs1 : Reg) (imm : Word) (s : State) : Result := store s 4 rs2 rs1 imm

/-- SB_F4 (R303): exactly SB's store. -/
def execSbF4 (rs2 rs1 : Reg) (imm : Word) (s : State) : Result := store s 1 rs2 rs1 imm

/-- SH_F5 (R304): exactly SH's store. -/
def execShF5 (rs2 rs1 : Reg) (imm : Word) (s : State) : Result := store s 2 rs2 rs1 imm

/-- SW_F6 (R305): exactly SW's store. -/
def execSwF6 (rs2 rs1 : Reg) (imm : Word) (s : State) : Result := store s 4 rs2 rs1 imm

end Sys2Proof.Machine
end

