-- ==== Sys2Proof/Machine/OpImm.lean ====
section
/-! DEFINITION. Immediate ALU and upper-immediate instructions (spec/41_op_imm_upper.md rules R200 to R212). -/

namespace Sys2Proof.Machine

/-- ADDI (R201): `x[rd] <- x[rs1] + imm_i`, modulo 2^32. -/
def execAddi (rd rs1 : Reg) (imm : Word) (s : State) : Result := writeAndAdvance s rd (s.x rs1 + imm)

/-- SLTI (R202): `x[rd] <- (x[rs1] <s imm_i) ? 1 : 0`. -/
def execSlti (rd rs1 : Reg) (imm : Word) (s : State) : Result := writeAndAdvance s rd (boolWord (ltSigned (s.x rs1) imm))

/-- SLTIU (R203): `x[rd] <- (x[rs1] <u imm_i) ? 1 : 0`, `imm_i` already sign-extended. -/
def execSltiu (rd rs1 : Reg) (imm : Word) (s : State) : Result := writeAndAdvance s rd (boolWord (ltUnsigned (s.x rs1) imm))

/-- XORI (R204): `x[rd] <- x[rs1] ^ imm_i`. -/
def execXori (rd rs1 : Reg) (imm : Word) (s : State) : Result := writeAndAdvance s rd (s.x rs1 ^^^ imm)

/-- ORI (R205): `x[rd] <- x[rs1] | imm_i`. -/
def execOri (rd rs1 : Reg) (imm : Word) (s : State) : Result := writeAndAdvance s rd (s.x rs1 ||| imm)

/-- ANDI (R206): `x[rd] <- x[rs1] & imm_i`. -/
def execAndi (rd rs1 : Reg) (imm : Word) (s : State) : Result := writeAndAdvance s rd (s.x rs1 &&& imm)

/-- SLLI (R207): `x[rd] <- x[rs1] << shamt`. -/
def execSlli (rd rs1 : Reg) (shamt : Fin 32) (s : State) : Result := writeAndAdvance s rd (s.x rs1 <<< shamt.val)

/-- SRLI (R208): `x[rd] <- x[rs1] >>u shamt`. -/
def execSrli (rd rs1 : Reg) (shamt : Fin 32) (s : State) : Result := writeAndAdvance s rd (s.x rs1 >>> shamt.val)

/-- SRAI (R209): `x[rd] <- x[rs1] >>s shamt`. -/
def execSrai (rd rs1 : Reg) (shamt : Fin 32) (s : State) : Result := writeAndAdvance s rd ((s.x rs1).sshiftRight shamt.val)

/-- LUI (R211): `x[rd] <- imm_u`. -/
def execLui (rd : Reg) (imm : Word) (s : State) : Result := writeAndAdvance s rd imm

/-- AUIPC (R212): `x[rd] <- pc + imm_u`, `pc` the instruction's own address. -/
def execAuipc (rd : Reg) (imm : Word) (s : State) : Result := writeAndAdvance s rd (s.pc + imm)

end Sys2Proof.Machine
end

