-- ==== Sys2Proof/Machine/OpReg.lean ====
section
/-! DEFINITION. Register-register ALU instructions (spec/42_op_reg.md rules R230 to R241). -/

namespace Sys2Proof.Machine

/-- ADD (R231): `x[rd] <- x[rs1] + x[rs2]`, modulo 2^32. -/
def execAdd (rd rs1 rs2 : Reg) (s : State) : Result := writeAndAdvance s rd (s.x rs1 + s.x rs2)

/-- SUB (R232): `x[rd] <- x[rs1] - x[rs2]`, modulo 2^32. -/
def execSub (rd rs1 rs2 : Reg) (s : State) : Result := writeAndAdvance s rd (s.x rs1 - s.x rs2)

/-- SLL (R233): `x[rd] <- x[rs1] << x[rs2][4:0]`. -/
def execSll (rd rs1 rs2 : Reg) (s : State) : Result := writeAndAdvance s rd (s.x rs1 <<< shiftAmount (s.x rs2))

/-- SLT (R234): `x[rd] <- (x[rs1] <s x[rs2]) ? 1 : 0`. -/
def execSlt (rd rs1 rs2 : Reg) (s : State) : Result := writeAndAdvance s rd (boolWord (ltSigned (s.x rs1) (s.x rs2)))

/-- SLTU (R235): `x[rd] <- (x[rs1] <u x[rs2]) ? 1 : 0`. -/
def execSltu (rd rs1 rs2 : Reg) (s : State) : Result := writeAndAdvance s rd (boolWord (ltUnsigned (s.x rs1) (s.x rs2)))

/-- XOR (R236): `x[rd] <- x[rs1] ^ x[rs2]`. -/
def execXor (rd rs1 rs2 : Reg) (s : State) : Result := writeAndAdvance s rd (s.x rs1 ^^^ s.x rs2)

/-- SRL (R237): `x[rd] <- x[rs1] >>u x[rs2][4:0]`. -/
def execSrl (rd rs1 rs2 : Reg) (s : State) : Result := writeAndAdvance s rd (s.x rs1 >>> shiftAmount (s.x rs2))

/-- SRA (R238): `x[rd] <- x[rs1] >>s x[rs2][4:0]`. -/
def execSra (rd rs1 rs2 : Reg) (s : State) : Result := writeAndAdvance s rd ((s.x rs1).sshiftRight (shiftAmount (s.x rs2)))

/-- OR (R239): `x[rd] <- x[rs1] | x[rs2]`. -/
def execOr (rd rs1 rs2 : Reg) (s : State) : Result := writeAndAdvance s rd (s.x rs1 ||| s.x rs2)

/-- AND (R240): `x[rd] <- x[rs1] & x[rs2]`. -/
def execAnd (rd rs1 rs2 : Reg) (s : State) : Result := writeAndAdvance s rd (s.x rs1 &&& s.x rs2)

end Sys2Proof.Machine
end

