-- ==== Sys2Proof/Machine/System.lean ====
section
/-! DEFINITION. FENCE, ECALL and EBREAK (spec/45_misc_mem_system.md rules R330 to R335). -/

namespace Sys2Proof.Machine

/-- FENCE (R330): nothing but the PC's advance; no field has any effect. -/
def execFence (_fm _pred _succ : BitVec 4) (_rs1 _rd : Reg) (s : State) : Result := .next (s.retire (nextPc s))

/-- ECALL (R332): `raise ECALLTrap(rec)`; no register, byte or PC changes. -/
def execEcall (s : State) : Result := raiseTrap s .ecall ecallWord

/-- EBREAK (R333): `raise EBREAKTrap(rec)`; no register, byte or PC changes. -/
def execEbreak (s : State) : Result := raiseTrap s .ebreak ebreakWord

end Sys2Proof.Machine
end

