-- ==== Sys2Proof/Machine/Step.lean ====
section
/-! DEFINITION. One step (spec/40_core_step.md rules R180 to R192): fetch, decode, execute. -/

namespace Sys2Proof.Machine

/-- One step (R180). The checks come in rule R192's order: fetch alignment and read (`fetch`), bits [1:0], claim and
selection (`decodeInstr`; each refusal is `IllegalInstException`, R183, R185, R186), then the instruction's own (`exec`).
The instruction runs on the state the fetch leaves, which differs from `s` only by a device read where the word came
from an MMIO region (R182). -/
def step (s : State) : Host.Outcome State Fault Refusal :=
  match fetch s with
  | .ended r => r
  | .bytes bs t =>
    match decodeInstr s.endian s.pc bs with
    | .error _ => raiseIllegal t (wordOf s.endian bs)
    | .ok i => exec i t

/-- The state with a word placed where the next step fetches it, by the host's own write (R383; log entry 6). -/
def State.withFetchWord (s : State) (nbits w : Nat) : State := placeWord s (BitVec.ofNat 32 (w % 2 ^ nbits))

end Sys2Proof.Machine
end

