-- ==== Sys2Proof/Machine/Launch.lean ====
section
/-! DEFINITION. The host's side (spec/60_exceptions.md rules R380 to R383, spec/70_reset_and_hazards.md rules R390 to
R394): the launch sequence with its parameters, and the host operations on a state between steps. -/

namespace Sys2Proof.Machine

/-- An MMIO region of the launch parameter `MMIO_REGIONS`: (start, size, name) (R7, R90). -/
structure MmioSpec where
  start : Nat
  size  : Nat
  name  : String
deriving DecidableEq, Repr

/-- The MMIO region a device of `MMIO_REGIONS` becomes (R67, R90). -/
def MmioSpec.region (d : MmioSpec) : Region := { start := d.start, size := d.size, backing := .mmio d.name }

/-- One write of the image loader: address, size, bytes (R383). -/
structure ImageWrite where
  addr : Nat
  size : Nat
  data : List Byte
deriving DecidableEq, Repr

/-- The launch parameters of R7 and the image (R390). `initRegs` gives x1..x31, its entry 0 is not used. -/
structure LaunchParams where
  endian   : Endian
  memStart : Nat
  memSize  : Nat
  granule  : Nat
  devices  : List MmioSpec
  image    : List ImageWrite
  initRegs : Vector Word 32
  entryPc  : Word
deriving DecidableEq, Repr

/-- Step 2 of R390: the MMIO regions added in order. -/
def addDevices (m : Memory) : List MmioSpec → Except MemError Memory
  | [] => .ok m
  | d :: ds =>
    match m.addRegion d.region with
    | .ok m' => addDevices m' ds
    | .error e => .error e

/-- Step 3 of R390: the image loaded by `Memory.write` calls. -/
def loadImage (m : Memory) : List ImageWrite → Except MemError Memory
  | [] => .ok m
  | w :: ws =>
    match m.write w.addr w.size w.data with
    | .ok m' => loadImage m' ws
    | .error e => .error e

/-- The device an image write goes to: the one whose region holds the access (R91); `none` where the write goes to plain
bytes. -/
def LaunchParams.deviceOf (p : LaunchParams) (w : ImageWrite) : Option MmioSpec :=
  p.devices.find? fun d => d.region.holds w.addr w.size

/-- Steps 4 and 5 of R390: the register file with x0 = 0 (D2), x1..x31 and the PC set. -/
def launchRegs (p : LaunchParams) : RegFile 32 33 where
  endian := p.endian
  slots  := ((p.initRegs.set 0 0).push p.entryPc)

/-- The launch (R390): the state before the first step, or the error that stops the host. A reset is a new launch
(R394). -/
def launch (p : LaunchParams) : Except MemError State :=
  match Memory.construct p.memStart p.memSize p.granule with
  | .error e => .error e
  | .ok m0 =>
    match addDevices m0 p.devices with
    | .error e => .error e
    | .ok m1 =>
      match loadImage m1 p.image with
      | .error e => .error e
      | .ok m2 => .ok { rf := launchRegs p, mem := m2, outcome := none }

/-- The parameters `State.reset` stands for (log entries 1 to 6). -/
def resetParams : LaunchParams where
  endian   := Config.endian
  memStart := Config.memStart
  memSize  := Config.memSize
  granule  := Config.regionSize
  devices  := []
  image    := []
  initRegs := Vector.replicate 32 Config.initReg
  entryPc  := Config.entryPc

/-! ### Host operations between steps (R380, R384) -/

/-- The host's `Memory.read` on the machine's memory. -/
def hostRead (s : State) (addr size : Nat) : Except MemError (List Byte × State) := memRead s addr size

/-- The host's `Memory.write` on the machine's memory, with write allocation. -/
def hostWrite (s : State) (addr size : Nat) (data : List Byte) : Except MemError State := memWrite s addr size data

/-- The host's `addRegion` on the machine's memory. -/
def hostAddRegion (s : State) (r : Region) : Except MemError State :=
  match s.mem.addRegion r with
  | .ok m => .ok (s.withMem m)
  | .error e => .error e

/-- The host's value-view write of any register-file slot, the PC's included. -/
def hostWriteSlot (s : State) (i : Nat) (v : Int) (signed : Bool) : Except RegError State :=
  match s.rf.writeValue i v signed with
  | .ok f => .ok { s with rf := f }
  | .error e => .error e

/-- The host's byte-view write of any register-file slot. -/
def hostWriteBytes (s : State) (i : Nat) (bs : List Byte) (signed : Bool) : Except RegError State :=
  match s.rf.write i bs signed with
  | .ok f => .ok { s with rf := f }
  | .error e => .error e

end Sys2Proof.Machine
end

