-- ==== Sys2Proof/Safety.lean ====
section
/-! DEFINITION. What claims are stated in: the invariant every step keeps, what a completed instruction leaves, and a run
(spec/40_core_step.md rules R187 to R195). -/

namespace Sys2Proof.Machine

/-! ### The invariant -/

/-- The invariant of a state: the memory is well formed (R65) and granular (R87), slot 0 holds 0 (R32, D2), and the PC
is even, as every value an instruction writes to it is (R269). -/
structure State.Inv (s : State) : Prop where
  memory   : s.mem.wf
  granules : s.mem.granular
  slotZero : s.rf.slot 0 = 0#32
  pcEven   : s.pc.toNat % 2 = 0

/-! ### What a completed instruction leaves -/

/-- Two memories of one configuration (R62): the bounds and the granule are the same. -/
abbrev SameConfig (m m' : Memory) : Prop :=
  m'.memoryStart = m.memoryStart ∧ m'.memorySize = m.memorySize ∧ m'.regionSize = m.regionSize

/-- Of the registers exactly `rd` was written, with `v`, and the PC with `npc`; `x0` reads 0, and where `rd` is x0 no
general register changes (R32, R187). The byte order and slot 0 are as before. -/
structure RegisterWritten (s t : State) (rd : Reg) (v npc : Word) : Prop where
  value    : rd ≠ 0 → t.x rd = v
  zero     : t.x 0 = 0#32
  others   : ∀ r : Reg, r ≠ rd → t.x r = s.x r
  pc       : t.pc = npc
  endian   : t.endian = s.endian
  slotZero : t.rf.slot 0 = s.rf.slot 0

/-- The instruction completes (`Retired`, R188) with one register written and no change to any byte, region or device. -/
def Completes (i : Instr) (s : State) (rd : Reg) (v npc : Word) : Prop :=
  ∃ t, exec i s = .next t ∧ RegisterWritten s t rd v npc ∧ t.mem = s.mem ∧ t.outcome = some .retired

/-- The load instructions: access width, whether sign-extended, and the instruction (R292). -/
def loadForms : List (Nat × Bool × (Reg → Reg → Word → Instr)) :=
  [(1, true, .lb), (2, true, .lh), (4, true, .lw), (1, false, .lbu), (2, false, .lhu), (4, false, .lwu)]

/-- The store instructions: access width and the instruction (R292). -/
def storeForms : List (Nat × (Reg → Reg → Word → Instr)) :=
  [(1, .sb), (2, .sh), (4, .sw), (1, .sbF4), (2, .shF5), (4, .swF6)]

/-- The word a load of the bytes `bs` delivers: `sext_32(val_E(bs))` or `zext_32(val_E(bs))` (R293 to R298). -/
def loadedWord (e : Endian) (n : Nat) (signed : Bool) (bs : List Byte) : Word :=
  if signed then (BitVec.ofNat (8 * n) (valOf e bs)).signExtend 32 else (BitVec.ofNat (8 * n) (valOf e bs)).setWidth 32

/-- The step of `s` fetches the word `w`: the PC is a multiple of 4 and the four bytes at it are read as `w`, leaving the
memory `m` (which differs from before only by a device call, R182). -/
def Fetches (s : State) (w : Word) (m : Memory) : Prop :=
  s.pc.toNat % 4 = 0 ∧ ∃ bs, s.mem.read s.pc.toNat 4 = .ok (bs, m) ∧ wordOf s.endian bs = w

/-! ### Runs (R195) -/

/-- How a run stands after some steps. -/
inductive RunEnd where
  /-- Every step so far retired. -/
  | running (s : State)
  /-- A trap or an exception ended the run; the state the step left. -/
  | ended (s : State)
  /-- An emulator error ended the run. -/
  | failed (f : Fault)
  /-- The model has no meaning for an instruction. -/
  | refused (r : Refusal)
deriving Repr

/-- The host's loop: at most `k` steps, ending at the first that does not retire (R195). -/
def run : Nat → State → RunEnd
  | 0, s => .running s
  | k + 1, s =>
    match step s with
    | .next t => if t.outcome = some .retired then run k t else .ended t
    | .fault f => .failed f
    | .refused r => .refused r

/-! ### The opcode table -/

/-- The (match, mask) rows of spec/opcode_table.json, in the table's order (R152). -/
def opcodeRows : List (Word × Word) :=
  [(0x00000037#32, 0x0000007F#32), (0x00000017#32, 0x0000007F#32), (0x0000006F#32, 0x0000007F#32),
   (0x00000067#32, 0x0000707F#32)]
  ++ [(0x00000063#32, 0x0000707F#32), (0x00001063#32, 0x0000707F#32), (0x00004063#32, 0x0000707F#32),
   (0x00005063#32, 0x0000707F#32), (0x00006063#32, 0x0000707F#32), (0x00007063#32, 0x0000707F#32)]
  ++ [(0x00000003#32, 0x0000707F#32), (0x00001003#32, 0x0000707F#32), (0x00002003#32, 0x0000707F#32),
   (0x00004003#32, 0x0000707F#32), (0x00005003#32, 0x0000707F#32), (0x00006003#32, 0x0000707F#32)]
  ++ [(0x00000023#32, 0x0000707F#32), (0x00001023#32, 0x0000707F#32), (0x00002023#32, 0x0000707F#32),
   (0x00004023#32, 0x0000707F#32), (0x00005023#32, 0x0000707F#32), (0x00006023#32, 0x0000707F#32)]
  ++ [(0x00000013#32, 0x0000707F#32), (0x00002013#32, 0x0000707F#32), (0x00003013#32, 0x0000707F#32),
   (0x00004013#32, 0x0000707F#32), (0x00006013#32, 0x0000707F#32), (0x00007013#32, 0x0000707F#32)]
  ++ [(0x00001013#32, 0xFE00707F#32), (0x00005013#32, 0xFE00707F#32), (0x40005013#32, 0xFE00707F#32)]
  ++ [(0x00000033#32, 0xFE00707F#32), (0x40000033#32, 0xFE00707F#32), (0x00001033#32, 0xFE00707F#32),
   (0x00002033#32, 0xFE00707F#32), (0x00003033#32, 0xFE00707F#32), (0x00004033#32, 0xFE00707F#32),
   (0x00005033#32, 0xFE00707F#32), (0x40005033#32, 0xFE00707F#32), (0x00006033#32, 0xFE00707F#32),
   (0x00007033#32, 0xFE00707F#32)]
  ++ [(0x0000000F#32, 0x0000707F#32), (0x00000073#32, 0xFFFFFFFF#32), (0x00100073#32, 0xFFFFFFFF#32)]

end Sys2Proof.Machine
end

