-- ==== Sys2Proof/Certificates/Slice0/Obligations.lean ====
section
/-! DEFINITION. The statements for the provers: what the rules of spec/ say the unit, its register file and its memory do.
Every statement is about all states of the model unless it names an invariant as a premise. -/

open Sys2Proof Sys2Proof.Machine

/-! ### Register file (spec/10_state.md) -/

/-- R23: the byte-view write of a 32- or 64-bit file. An invalid index, an over-long buffer and an empty one fail
(the last is the spec's decision D21; the index is checked first, log entry 13); otherwise the slot takes the sign- or
zero-extended value of the bytes and no other slot changes. -/
def Obligations.RegisterFileByteViewWrite : Prop :=
  ∀ (w n : Nat) (f : RegFile w n) (i : Nat) (bs : List Byte) (signed : Bool), w = 32 ∨ w = 64 →
    (n ≤ i → f.write i bs signed = .error .registerFileError) ∧
    (i < n → (w / 8 < bs.length ∨ bs.length = 0) → f.write i bs signed = .error .registerError) ∧
    ∀ hi : i < n, 0 < bs.length → bs.length ≤ w / 8 →
      ∃ f' : RegFile w n, f.write i bs signed = .ok f' ∧ f'.endian = f.endian ∧
        f'.slot ⟨i, hi⟩ =
          (if signed then (BitVec.ofNat (8 * bs.length) (valOf f.endian bs)).signExtend w
           else (BitVec.ofNat (8 * bs.length) (valOf f.endian bs)).setWidth w) ∧
        ∀ j : Fin n, j.val ≠ i → f'.slot j = f.slot j

/-- R26: the byte view and the value view are two views of one storage, for a 32- or 64-bit file. -/
def Obligations.RegisterFileViewsAgree : Prop :=
  ∀ (w n : Nat) (f : RegFile w n) (i : Nat), w = 32 ∨ w = 64 → i < n →
    (∀ (bs : List Byte) (signed : Bool), bs.length = w / 8 →
      ∃ f' : RegFile w n, f.write i bs signed = .ok f' ∧
        f'.readValue i false = .ok (valOf f.endian bs : Int) ∧ f'.read i = .ok bs) ∧
    (∀ v : Nat, v < 2 ^ w →
      ∃ f' : RegFile w n, f.writeValue i (v : Int) false = .ok f' ∧ f'.read i = .ok (bytesOf f.endian v (w / 8)))

/-- R29: the register-file operations treat slot 0 like any other (the same result for every valid index, 0 included), and
the execution unit is what discards a write to x0. -/
def Obligations.SlotZeroIsOrdinaryInTheRegisterFile : Prop :=
  (∀ (f : RegFile 32 33) (i j : Fin 33) (v : Word) (bs : List Byte) (signed : Bool), 0 < bs.length → bs.length ≤ 4 →
    f.read i.val = .ok (bytesOf f.endian (f.slot i).toNat 4) ∧
    f.readValue i.val false = .ok ((f.slot i).toNat : Int) ∧
    f.readValue i.val true = .ok (f.slot i).toInt ∧
    f.writeValue i.val (v.toNat : Int) false = .ok (f.setSlot i v) ∧
    f.writeValue i.val v.toInt true = .ok (f.setSlot i v) ∧
    f.write i.val bs signed = .ok (f.setSlot i (loadedWord f.endian bs.length signed bs)) ∧
    f.copyRegister i.val j.val = .ok (f.setSlot i (f.slot j))) ∧
  ∀ (s : State) (v : Word), s.setX 0 v = s

/-- R21, R25, R27: an index out of range fails with `RegisterFileError` in every operation, and an integer out of range
with `RegisterError` (the error kinds are the spec's decision D21; the index is checked first, log entry 13). -/
def Obligations.RegisterFileRefusesBadCalls : Prop :=
  ∀ (w n : Nat) (f : RegFile w n) (i : Nat) (signed : Bool), 0 < w →
    (n ≤ i →
      f.read i = .error .registerFileError ∧ f.readValue i signed = .error .registerFileError ∧
      (∀ bs : List Byte, f.write i bs signed = .error .registerFileError) ∧
      (∀ v : Int, f.writeValue i v signed = .error .registerFileError) ∧
      ∀ j : Nat, f.copyRegister i j = .error .registerFileError ∧ f.copyRegister j i = .error .registerFileError) ∧
    (i < n → ∀ v : Int,
      (f.writeValue i v true = .error .registerError ↔ v < -(2 ^ (w - 1) : Int) ∨ (2 ^ (w - 1) : Int) ≤ v) ∧
      (f.writeValue i v false = .error .registerError ↔ v < 0 ∨ (2 ^ w : Int) ≤ v))

/-- R32: whatever an instruction or a step does, x0 reads 0 afterwards and slot 0 keeps its value. -/
def Obligations.ZeroRegisterNeverChanges : Prop :=
  (∀ (i : Instr) (s t : State), exec i s = .next t → t.x 0 = 0#32 ∧ t.rf.slot 0 = s.rf.slot 0) ∧
  ∀ s t : State, step s = .next t → t.x 0 = 0#32 ∧ t.rf.slot 0 = s.rf.slot 0

/-! ### Byte order (spec/20_memory.md) -/

/-- R100: byte `k` of an n-byte buffer is bits `8k+7..8k` of its value in little order and the byte as far from the other
end in big order; `bytes_E` is the inverse of `val_E` on the value's `8n` low-order bits. -/
def Obligations.ByteOrderConversions : Prop :=
  ∀ n : Nat, n ∈ [1, 2, 4, 8] →
    (∀ (bs : List Byte) (hl : bs.length = n) (k : Nat) (hk : k < n),
      valOf .little bs / 2 ^ (8 * k) % 256 = (bs[k]'(by omega)).toNat ∧
      valOf .big bs / 2 ^ (8 * k) % 256 = (bs[n - 1 - k]'(by omega)).toNat) ∧
    (∀ (e : Endian) (bs : List Byte), bs.length = n → valOf e bs < 2 ^ (8 * n) ∧ bytesOf e (valOf e bs) n = bs) ∧
    ∀ (e : Endian) (v : Nat), (bytesOf e v n).length = n ∧ valOf e (bytesOf e v n) = v % 2 ^ (8 * n)

/-! ### Memory controller (spec/20_memory.md) -/

/-- R62 with the spec's decision D19: construction succeeds exactly for a valid configuration, giving an empty memory; a
bad one fails with `MemoryError`. -/
def Obligations.ConstructionConstraints : Prop :=
  ∀ ms mz g : Nat,
    let valid := (∃ k, g = 2 ^ k) ∧ 8 ≤ g ∧ 0 < mz ∧ g ∣ mz ∧ g ∣ ms ∧ ms + mz ≤ 2 ^ 48
    (valid → ∃ m, Memory.construct ms mz g = .ok m ∧ m.memoryStart = ms ∧ m.memorySize = mz ∧ m.regionSize = g ∧
      m.regions = []) ∧
    (¬ valid → Memory.construct ms mz g = .error .memoryError)

/-- R71: in a well-formed memory `findRegion` gives the region fully containing the access, which is unique; where no
region fully contains it the access fails with `RegionError`, whatever regions together cover it. -/
def Obligations.FindRegionIsTheContainingRegion : Prop :=
  ∀ (m : Memory) (addr size : Nat), m.wf → 0 < size →
    (∀ r : Region, m.findRegion addr size = some r ↔ r ∈ m.regions ∧ r.start ≤ addr ∧ addr + size ≤ r.stop) ∧
    (∀ r ∈ m.regions, ∀ q ∈ m.regions, r.start ≤ addr ∧ addr + size ≤ r.stop →
      q.start ≤ addr ∧ addr + size ≤ q.stop → q = r) ∧
    (size ∈ [1, 2, 4, 8] → addr % size = 0 → (∀ r ∈ m.regions, ¬ (r.start ≤ addr ∧ addr + size ≤ r.stop)) →
      m.findRegion addr size = none ∧ m.read addr size = .error .regionError)

/-- R72: a read of bytes no region holds fails with `RegionError` and allocates nothing, and the core does not translate
the failure: a fetch or a load from such an address ends the step with `RegionError`. -/
def Obligations.UnbackedReadsFail : Prop :=
  (∀ (m : Memory) (addr size : Nat), size ∈ [1, 2, 4, 8] → addr % size = 0 → m.findRegion addr size = none →
    m.read addr size = .error .regionError) ∧
  (∀ s : State, s.pc.toNat % 4 = 0 → s.mem.findRegion s.pc.toNat 4 = none →
    step s = .fault (.regionError s.pc.toNat 4 s)) ∧
  ∀ f ∈ loadForms, ∀ (s : State) (rd rs1 : Reg) (imm : Word),
    (effectiveAddr s rs1 imm).toNat % f.1 = 0 → s.mem.findRegion (effectiveAddr s rs1 imm).toNat f.1 = none →
    exec (f.2.2 rd rs1 imm) s = .fault (.regionError (effectiveAddr s rs1 imm).toNat f.1 s) ∧
    ∀ (u : State) (w : Word) (m : Memory), Fetches u w m → decodeWord w = .ok (f.2.2 rd rs1 imm) → s = u.withMem m →
      step u = .fault (.regionError (effectiveAddr s rs1 imm).toNat f.1 s)

/-- R70, R76: the memory's own checks on a host call, in their order: size, alignment, and for a write the data's length
(the order is the spec's decision D27). -/
def Obligations.HostAccessChecks : Prop :=
  ∀ (m : Memory) (addr size : Nat) (data : List Byte),
    (size ∉ [1, 2, 4, 8] → m.read addr size = .error .memoryError ∧ m.write addr size data = .error .memoryError) ∧
    (size ∈ [1, 2, 4, 8] → addr % size ≠ 0 →
      m.read addr size = .error .memoryError ∧ m.write addr size data = .error .memoryError) ∧
    (size ∈ [1, 2, 4, 8] → addr % size = 0 → data.length ≠ size → m.write addr size data = .error .memoryError)

/-- R68: a region's own access. Outside the region's range it fails with `RegionError`. Inside, a NormalRegion gives a copy
of the bytes or takes the data's bytes in order, no other byte changing, and an MMIORegion makes one call of its device. -/
def Obligations.RegionLocalAccess : Prop :=
  ∀ (m : Memory) (r : Region) (addr size : Nat) (data : List Byte), m.wf → r ∈ m.regions → 0 < size →
    data.length = size →
    (¬ (r.start ≤ addr ∧ addr + size ≤ r.stop) →
      m.regionRead r addr size = .error .regionError ∧ m.regionWrite r addr size data = .error .regionError) ∧
    (r.start ≤ addr → addr + size ≤ r.stop → r.isNormal = true →
      (∃ bs, m.regionRead r addr size = .ok (bs, m) ∧ bs.length = size ∧ ∀ k, k < size → m.byteAt (addr + k) = bs[k]?) ∧
      ∃ m', m.regionWrite r addr size data = .ok m' ∧ (∀ k, k < size → m'.byteAt (addr + k) = data[k]?) ∧
        (∀ a, (a < addr ∨ addr + size ≤ a) → m'.byteAt a = m.byteAt a) ∧ m'.calls = m.calls) ∧
    ∀ name, r.start ≤ addr → addr + size ≤ r.stop → r.backing = .mmio name →
      (∃ bs m', m.regionRead r addr size = .ok (bs, m') ∧ bs.length = size ∧ m'.regions = m.regions ∧
        ∃ c : DeviceCall, m'.calls = m.calls ++ [c] ∧ c.device = name ∧ c.kind = .read ∧ c.addr = addr ∧ c.size = size ∧
          c.bytes = bs) ∧
      ∃ m', m.regionWrite r addr size data = .ok m' ∧ m'.regions = m.regions ∧
        ∃ c : DeviceCall, m'.calls = m.calls ++ [c] ∧ c.device = name ∧ c.kind = .write ∧ c.addr = addr ∧ c.size = size ∧
          c.bytes = data

/-- R68, R103: an aligned read that lies in a NormalRegion of a well-formed memory gives the bytes of its addresses in
order and changes nothing. -/
def Obligations.ReadReturnsTheBytes : Prop :=
  ∀ (m : Memory) (addr size : Nat) (r : Region), m.wf → size ∈ [1, 2, 4, 8] → addr % size = 0 →
    m.findRegion addr size = some r → r.isNormal = true →
    ∃ bs, m.read addr size = .ok (bs, m) ∧ bs.length = size ∧
      ∀ k, k < size → m.byteAt (addr + k) = bs[k]?

/-- R86 (Q1, Q2): a completed write that made no device call is read back byte for byte, and the later of two writes
wins. -/
def Obligations.ReadAfterWrite : Prop :=
  ∀ (m m1 : Memory) (addr size : Nat) (p : List Byte), m.wf → m.write addr size p = .ok m1 → m1.calls = m.calls →
    m1.read addr size = .ok (p, m1) ∧
    ∀ (q : List Byte) (m2 : Memory), m1.write addr size q = .ok m2 → m2.read addr size = .ok (q, m2)

/-- R65, R78, R79, R86: a completed write changes no byte that existed outside the bytes written. An address that had no
byte and has one now reads zero and lies less than a granule below the access or in its granule; where every NormalRegion
is a whole number of granules, in its granule. -/
def Obligations.WriteLeavesOtherBytes : Prop :=
  ∀ (m m' : Memory) (addr size : Nat) (data : List Byte), m.wf → m.write addr size data = .ok m' →
    ∀ a, (a < addr ∨ addr + size ≤ a) →
      m'.byteAt a = m.byteAt a ∨
        (m.byteAt a = none ∧ m'.byteAt a = some 0#8 ∧ m.findRegion addr size = none ∧ addr < a + m.regionSize ∧
          a < addr / m.regionSize * m.regionSize + m.regionSize ∧
          (m.granular → addr / m.regionSize * m.regionSize ≤ a))

/-- R87 (which rests on the spec's decisions D16, D17, D28): an aligned write that no region contains, on granules. The
granule outside the bounds is `RegionError`; a region overlapping it is `MemoryError`; otherwise the granule becomes
backed by zero bytes except the bytes written, every other byte and every device stays, and at most one region is
added. -/
def Obligations.WriteAllocationOnGranules : Prop :=
  ∀ (m : Memory) (addr size : Nat) (data : List Byte), m.wf → m.granular → size ∈ [1, 2, 4, 8] → addr % size = 0 →
    data.length = size → m.findRegion addr size = none →
    let a := addr / m.regionSize * m.regionSize
    ((a < m.memoryStart ∨ m.memoryStart + m.memorySize < a + m.regionSize) →
      m.write addr size data = .error .regionError) ∧
    (m.memoryStart ≤ a → a + m.regionSize ≤ m.memoryStart + m.memorySize →
      (∃ r ∈ m.regions, r.start < a + m.regionSize ∧ a < r.stop) → m.write addr size data = .error .memoryError) ∧
    (m.memoryStart ≤ a → a + m.regionSize ≤ m.memoryStart + m.memorySize →
      (∀ r ∈ m.regions, ¬ (r.start < a + m.regionSize ∧ a < r.stop)) →
      ∃ m', m.write addr size data = .ok m' ∧ m'.wf ∧ m'.granular ∧
        (∀ k, k < size → m'.byteAt (addr + k) = data[k]?) ∧
        (∀ b, a ≤ b → b < a + m.regionSize → (b < addr ∨ addr + size ≤ b) → m'.byteAt b = some 0#8) ∧
        (∀ b, (b < a ∨ a + m.regionSize ≤ b) → m'.byteAt b = m.byteAt b) ∧
        m'.calls = m.calls ∧ m'.draws = m.draws ∧
        m'.regions.filter (fun r => !r.isNormal) = m.regions.filter (fun r => !r.isNormal) ∧
        m'.regions.length ≤ m.regions.length + 1)

/-- R88: an aligned access of at most 8 bytes finds a region exactly when its granule is backed by one NormalRegion or the
access lies inside one MMIORegion, however granules are grouped into regions. -/
def Obligations.RegionFoundIffGranuleBacked : Prop :=
  ∀ (m : Memory) (addr size : Nat), m.wf → m.granular → size ∈ [1, 2, 4, 8] → addr % size = 0 →
    let a := addr / m.regionSize * m.regionSize
    ((∃ r, m.findRegion addr size = some r) ↔
      (∃ r ∈ m.regions, r.isNormal = true ∧ r.start ≤ a ∧ a + m.regionSize ≤ r.stop) ∨
      (∃ r ∈ m.regions, r.isNormal = false ∧ r.start ≤ addr ∧ addr + size ≤ r.stop))

/-- R84, R85 (the merge's direction is the spec's decision D18): `addRegion` fails with `RegionError` exactly for a region
outside the bounds, not at a multiple of `G`, overlapping another (or empty: the model's choice, log entry 12). Otherwise
every address of the region gets its byte and no other address changes. A NormalRegion is absorbed by the NormalRegion
that ends where it starts: that one is replaced by the merge of the two and the count stays (vector M10). In every other
case, also where the new region adjoins another from below, it stands as its own region beside all the old ones (M11). -/
def Obligations.AddRegionEffect : Prop :=
  ∀ (m : Memory) (r : Region), m.wf → CellsWf r.start r.stop r.cells →
    let refused := r.size = 0 ∨ r.start < m.memoryStart ∨ m.memoryStart + m.memorySize < r.stop ∨
      r.start % m.regionSize ≠ 0 ∨ ∃ q ∈ m.regions, q.start < r.stop ∧ r.start < q.stop
    (refused → m.addRegion r = .error .regionError) ∧
    (¬ refused → ∃ m', m.addRegion r = .ok m' ∧ m'.wf ∧
      (∀ a, r.start ≤ a → a < r.stop → m'.byteAt a = if r.isNormal then some (cellsGet r.cells a) else none) ∧
      (∀ a, (a < r.start ∨ r.stop ≤ a) → m'.byteAt a = m.byteAt a) ∧
      SameConfig m m' ∧ m'.calls = m.calls ∧ m'.draws = m.draws ∧
      (∀ e ∈ m.regions, r.isNormal = true → e.isNormal = true → e.stop = r.start →
        m'.regions.length = m.regions.length ∧
        ∃ c, e.merge r = .ok c ∧ ∀ q, q ∈ m'.regions ↔ q = c ∨ (q ∈ m.regions ∧ q ≠ e)) ∧
      (¬ (r.isNormal = true ∧ ∃ e ∈ m.regions, e.isNormal = true ∧ e.stop = r.start) →
        m'.regions.length = m.regions.length + 1 ∧ ∀ q, q ∈ m'.regions ↔ q = r ∨ q ∈ m.regions))

/-- R74, R75: growing, shrinking, relocating and merging a region (fill, equal size and error kinds are the spec's
decision D26, the merge's direction D18). -/
def Obligations.RegionOperations : Prop :=
  (∀ (r : Region) (k : Nat),
    (r.isNormal = true → r.resize (r.size + k) = .ok { r with size := r.size + k } ∧
      r.expandRegion k = (true, { r with size := r.size + k })) ∧
    (r.isNormal = false → r.resize k = .error .regionError ∧ r.expandRegion k = (false, r)) ∧
    (k < r.size → r.resize k = .error .regionError) ∧
    r.shrinkRegion k = (false, r) ∧ r.relocate k = .error .regionError) ∧
  ∀ a b : Region,
    (a.isNormal = true → b.isNormal = true → a.stop = b.start →
      ∃ c, a.merge b = .ok c ∧ c.start = a.start ∧ c.size = a.size + b.size ∧ c.isNormal = true ∧
        c.cells = a.cells ++ b.cells) ∧
    (¬ (a.isNormal = true ∧ b.isNormal = true ∧ a.stop = b.start) → a.merge b = .error .regionError)

/-- R69 (Q3, Q4): overlapping non-empty regions are neither lower nor higher than one another, and a region that ends
where another starts is lower than it. The last conclusion, on `isAlignHigher`, rests on the spec's decision D20, which
defines that predicate. -/
def Obligations.RegionGeometry : Prop :=
  ∀ a b : Region, 0 < a.size → 0 < b.size →
    (a.isOverlap b = true → a.isLowerThan b = false ∧ a.isHigherThan b = false) ∧
    (a.isOverlap b = false → a.isLowerThan b = true ∨ a.isHigherThan b = true) ∧
    (a.isOverlap b = b.isOverlap a) ∧
    (a.isAlignLower b = true → a.isLowerThan b = true ∧ b.isHigherThan a = true ∧ b.isAlignHigher a = true)

/-! ### Encoding (spec/30_encoding.md) -/

/-- Q8: decoding the word the encoder gives a well-formed instruction gives the instruction back, with every operand at
every value its encoding admits. -/
def Obligations.DecodeOfEncode : Prop := ∀ i : Instr, i.wellFormed = true → decodeWord (encode i) = .ok i

/-- R154: a word the decoder accepts is the encoding of the instruction it decodes to, which is well formed: no bit is
dropped and no word has two meanings. -/
def Obligations.EncodeOfDecode : Prop :=
  ∀ (w : Word) (i : Instr), decodeWord w = .ok i → i.wellFormed = true ∧ encode i = w

/-- R154, R152: a word is an instruction exactly when it matches a row of the opcode table, and it matches at most one. -/
def Obligations.LegalWordsAreTheTableRows : Prop :=
  ∀ w : Word,
    ((∃ i, decodeWord w = .ok i) ↔ ∃ row ∈ opcodeRows, w &&& row.2 = row.1) ∧
    ∀ p ∈ opcodeRows, ∀ q ∈ opcodeRows, w &&& p.2 = p.1 → w &&& q.2 = q.1 → p = q

/-- R142: the fixed fields of the record, extracted from every word the decoder accepts, whatever its format. -/
def Obligations.RecordFixedFields : Prop :=
  ∀ (e : Endian) (pc : Word) (buf : List Byte) (r : InstRecord), decodeRecord e pc buf = .ok r →
    let inst := valOf e buf
    r.baseOpcode.toNat = inst / 2 ^ 2 % 2 ^ 5 ∧ r.rd.val = inst / 2 ^ 7 % 2 ^ 5 ∧ r.funct3.toNat = inst / 2 ^ 12 % 2 ^ 3 ∧
    r.rs1.val = inst / 2 ^ 15 % 2 ^ 5 ∧ r.rs2.val = inst / 2 ^ 20 % 2 ^ 5 ∧ r.funct7.toNat = inst / 2 ^ 25 % 2 ^ 7

/-- R145 to R149 (bit layouts the spec supplies from general knowledge): the five immediates as integers, each bit of the
word with its weight and bit 31 negative (positive weight in `imm_u`, which is read modulo 2^32). -/
def Obligations.ImmediateValues : Prop :=
  ∀ w : Word,
    let f (lo len : Nat) : Int := ((w.toNat / 2 ^ lo % 2 ^ len : Nat) : Int)
    (immI w).toInt = f 20 11 - f 31 1 * 2 ^ 11 ∧
    (immS w).toInt = f 7 5 + f 25 6 * 2 ^ 5 - f 31 1 * 2 ^ 11 ∧
    (immB w).toInt = f 8 4 * 2 + f 25 6 * 2 ^ 5 + f 7 1 * 2 ^ 11 - f 31 1 * 2 ^ 12 ∧
    ((immU w).toNat : Int) = f 12 20 * 2 ^ 12 ∧
    (immJ w).toInt = f 21 10 * 2 + f 20 1 * 2 ^ 11 + f 12 8 * 2 ^ 12 - f 31 1 * 2 ^ 20

/-- R163 and the examples of the family rules: words written out in the spec decode to the instructions they stand for. -/
def Obligations.SpecWordsDecode : Prop :=
  decodeWord 0x00500093#32 = .ok (.addi 1 0 5#32) ∧
  decodeWord 0x008000EF#32 = .ok (.jal 1 8#32) ∧
  decodeWord 0x00000073#32 = .ok .ecall ∧
  decodeWord 0x00000000#32 = .error .lowBits ∧
  decodeWord 0xFE532E23#32 = .ok (.sw 5 6 0xFFFFFFFC#32) ∧
  decodeWord 0xFE029CE3#32 = .ok (.bne 5 0 0xFFFFFFF8#32) ∧
  decodeWord 0x40435293#32 = .ok (.srai 5 6 4) ∧
  decodeWord 0x407302B3#32 = .ok (.sub 5 6 7) ∧
  decodeWord 0x123452B7#32 = .ok (.lui 5 0x12345000#32) ∧
  decodeWord 0x8330000F#32 = .ok (.fence 8 3 3 0 0)

/-- R210: OP_IMM with funct3 `101` is SRLI for `imm[11:5] = 0000000`, SRAI for `0100000`, and illegal otherwise; the
exception is raised before any write and the PC is unchanged. -/
def Obligations.ShiftRightImmediateSelection : Prop :=
  ∀ w : Word, w.extractLsb' 0 7 = 0x13#7 → w.extractLsb' 12 3 = 0b101#3 →
    (w.extractLsb' 25 7 = 0b0000000#7 → ∃ rd rs1 shamt, decodeWord w = .ok (.srli rd rs1 shamt) ∧
      rd.val = w.toNat / 2 ^ 7 % 32 ∧ rs1.val = w.toNat / 2 ^ 15 % 32 ∧ shamt.val = w.toNat / 2 ^ 20 % 32) ∧
    (w.extractLsb' 25 7 = 0b0100000#7 → ∃ rd rs1 shamt, decodeWord w = .ok (.srai rd rs1 shamt) ∧
      rd.val = w.toNat / 2 ^ 7 % 32 ∧ rs1.val = w.toNat / 2 ^ 15 % 32 ∧ shamt.val = w.toNat / 2 ^ 20 % 32) ∧
    (w.extractLsb' 25 7 ≠ 0b0000000#7 → w.extractLsb' 25 7 ≠ 0b0100000#7 →
      ∀ (s : State) (m : Memory), Fetches s w m →
        step s = .next ((s.withMem m).report (.illegalInst s.pc w)))

/-- R306: the 8-byte LOAD and STORE codes raise `IllegalInstException(pc, inst)` whatever the address is, before any
alignment check or access. -/
def Obligations.EightByteCodesAreIllegal : Prop :=
  ∀ w ∈ [0x00033283#32, 0x00037283#32, 0x00533023#32, 0x00537023#32], ∀ (s : State) (m : Memory),
    Fetches s w m → step s = .next ((s.withMem m).report (.illegalInst s.pc w))

/-! ### The step (spec/40_core_step.md, spec/60_exceptions.md) -/

/-- R180, R186: when the word at a multiple-of-4 PC decodes to `i`, the step is `exec i` on the state the fetch leaves,
which is `s` but for a device call where the word lies in an MMIO region. -/
def Obligations.StepRunsTheDecodedInstruction : Prop :=
  ∀ (s : State) (w : Word) (m : Memory) (i : Instr), Fetches s w m → decodeWord w = .ok i →
    step s = exec i (s.withMem m)

/-- R182: at a multiple-of-4 PC `fetch` reads the four bytes at the PC anew: with no region containing them it ends the step
with `RegionError`; from a NormalRegion it gives their bytes and the memory as it was; from an MMIORegion it makes one
4-byte device read. And the step works on exactly what `fetch` gives. -/
def Obligations.FetchReadsFourBytesAtThePc : Prop :=
  ∀ s : State, s.pc.toNat % 4 = 0 →
    (s.mem.findRegion s.pc.toNat 4 = none →
      fetch s = .ended (.fault (.regionError s.pc.toNat 4 s)) ∧ step s = .fault (.regionError s.pc.toNat 4 s)) ∧
    (∀ r, s.mem.findRegion s.pc.toNat 4 = some r → r.isNormal = true →
      fetch s = .bytes (cellsRead r.cells s.pc.toNat 4) (s.withMem s.mem)) ∧
    (∀ r name, s.mem.findRegion s.pc.toNat 4 = some r → r.backing = .mmio name →
      ∃ (bs : List Byte) (m : Memory), fetch s = .bytes bs (s.withMem m) ∧ bs.length = 4 ∧ m.regions = s.mem.regions ∧
        SameConfig s.mem m ∧
        ∃ c : DeviceCall, m.calls = s.mem.calls ++ [c] ∧ c.device = name ∧ c.kind = .read ∧ c.addr = s.pc.toNat ∧
          c.size = 4 ∧ c.bytes = bs) ∧
    ∀ (bs : List Byte) (t : State), fetch s = .bytes bs t →
      (∀ i, decodeWord (wordOf s.endian bs) = .ok i → step s = exec i t) ∧
      ∀ d, decodeWord (wordOf s.endian bs) = .error d →
        step s = .next (t.report (.illegalInst s.pc (wordOf s.endian bs)))

/-- R114, Q8: when the four bytes at a multiple-of-4 PC are those of a well-formed instruction's word in the machine's
byte order, in a NormalRegion of a well-formed memory, the step runs that instruction on `s` itself. -/
def Obligations.StepRunsTheEncodedInstruction : Prop :=
  ∀ (s : State) (i : Instr) (r : Region), s.mem.wf → i.wellFormed = true → s.pc.toNat % 4 = 0 →
    s.mem.findRegion s.pc.toNat 4 = some r → r.isNormal = true →
    (∀ k, k < 4 → s.mem.byteAt (s.pc.toNat + k) = (bytesOf s.endian (encode i).toNat 4)[k]?) → step s = exec i s

/-- R183, R185, R186, R354: a word that is no instruction makes the step report `IllegalInstException` with the PC and the
word, nothing else changing. -/
def Obligations.StepReportsIllegalWord : Prop :=
  ∀ (s : State) (w : Word) (m : Memory) (d : DecodeRefusal), Fetches s w m → decodeWord w = .error d →
    step s = .next ((s.withMem m).report (.illegalInst s.pc w))

/-- R181 (the spec's decision D12; the source leaves open which error kind is reported, C7): a PC that is not a multiple
of 4 makes the step report a misaligned fetch, before any memory access. -/
def Obligations.StepReportsMisalignedPc : Prop :=
  ∀ s : State, s.pc.toNat % 4 ≠ 0 → step s = .next (s.report (.memMisaligned .fetch s.pc s.pc.toNat 4))

/-- R189, R358 (decision D13): a step that does not retire writes nothing. The state it leaves has the registers, PC,
regions and bytes of the state before; at most one device read, the fetch's, is added. -/
def Obligations.NonRetiringStepWritesNothing : Prop :=
  (∀ s t : State, step s = .next t → t.outcome ≠ some .retired →
    t.rf = s.rf ∧ t.mem.regions = s.mem.regions ∧ SameConfig s.mem t.mem ∧
    (t.mem = s.mem ∨ ∃ c, t.mem.calls = s.mem.calls ++ [c] ∧ c.kind = .read ∧ c.addr = s.pc.toNat ∧ c.size = 4)) ∧
  ∀ (s : State) (f : Fault), step s = .fault f →
    ∃ (a n : Nat) (t : State), (f = .regionError a n t ∨ f = .memoryError a n t) ∧
      t.rf = s.rf ∧ t.outcome = s.outcome ∧ t.mem.regions = s.mem.regions ∧ SameConfig s.mem t.mem ∧
      (t.mem = s.mem ∨ ∃ c, t.mem.calls = s.mem.calls ++ [c] ∧ c.kind = .read ∧ c.addr = s.pc.toNat ∧ c.size = 4)

/-- R382: a step from the unchanged state repeats the same outcome: after an event whose step made no device call, the
next step gives the same state again. -/
def Obligations.UnchangedStateRepeatsTheEvent : Prop :=
  ∀ s t : State, step s = .next t → t.outcome ≠ some .retired → t.mem = s.mem → step t = .next t

/-- R191, R188: a step never lacks a meaning, and a step that goes on reports an outcome; it reports `Retired` exactly when
an instruction was decoded and completed. -/
def Obligations.StepReportsOneOutcome : Prop :=
  ∀ s : State,
    (∀ r : Refusal, step s ≠ .refused r) ∧
    (∀ t, step s = .next t → ∃ o, t.outcome = some o) ∧
    (∀ t, step s = .next t → t.outcome = some .retired →
      ∃ w m i, Fetches s w m ∧ decodeWord w = .ok i ∧ exec i (s.withMem m) = .next t)

/-- R91, R112: the device calls of a step are appended in order: the fetch's read first, then at most one call of the
instruction. -/
def Obligations.StepMakesAtMostTwoDeviceCalls : Prop :=
  ∀ s t : State, step s = .next t →
    ∃ l, t.mem.calls = s.mem.calls ++ l ∧ l.length ≤ 2 ∧
      (l.length = 2 → ∃ c d, l = [c, d] ∧ c.kind = .read ∧ c.addr = s.pc.toNat ∧ c.size = 4)

/-- R193: with no MMIO region a step is a function of the registers and the memory's bytes: it calls no device, and the
record of earlier calls and the draw counter have no influence on it. -/
def Obligations.StepWithoutDevicesIgnoresThem : Prop :=
  ∀ (s t : State) (calls : List DeviceCall) (draws : Nat), (∀ r ∈ s.mem.regions, r.isNormal = true) →
    step s = .next t →
    t.mem.calls = s.mem.calls ∧ t.mem.draws = s.mem.draws ∧ (∀ r ∈ t.mem.regions, r.isNormal = true) ∧
    step (s.withMem { s.mem with calls := calls, draws := draws }) =
      .next (t.withMem { t.mem with calls := calls, draws := draws })

/-- R114, R397: a stored word is what the next fetch of its address reads: when the word stored is an instruction, a step
with the PC at its address runs it. -/
def Obligations.StoredWordIsFetchedAtOnce : Prop :=
  ∀ (s t : State) (rs2 rs1 : Reg) (imm : Word) (i : Instr), s.mem.wf → exec (.sw rs2 rs1 imm) s = .next t →
    t.outcome = some .retired → t.mem.calls = s.mem.calls → decodeWord (s.x rs2) = .ok i →
    step (t.setPc (effectiveAddr s rs1 imm)) = exec i (t.setPc (effectiveAddr s rs1 imm))

/-! ### Launch, reset and the invariant (spec/70_reset_and_hazards.md) -/

/-- R46: the state after reset. x0 = 0 is the spec's decision D2. Everything else is the model's choice of what the spec
leaves open: the memory's configuration (log entry 1), no MMIO region (2) and no image (6), hence the empty region list,
the PC (3), x1..x31 (4), the byte order (5), and the values before the first step of the model's own fields `outcome` (7)
and `calls` (9). -/
def Obligations.ResetState : Prop :=
  (∀ r : Reg, State.reset.x r = 0#32) ∧ State.reset.pc = 0#32 ∧ State.reset.endian = .little ∧
  State.reset.mem.regions = [] ∧ State.reset.mem.calls = [] ∧ State.reset.outcome = none ∧
  State.reset.mem.memoryStart = 0 ∧ State.reset.mem.memorySize = 2 ^ 48 ∧ State.reset.mem.regionSize = 2048 ∧
  core.reset = State.reset

/-- The invariant holds after reset. The spec gives slot 0 = 0 (decision D2); that the PC is even rests on the model's choice
of ENTRY_PC (log entry 3), and that the memory is well formed and granular on its choice of the configuration (1) and of
no MMIO region (2). -/
def Obligations.ResetMeetsTheInvariant : Prop := State.reset.Inv

/-- R390 steps 1 to 5, R65: what a launch that succeeds leaves. Step 1: a well-formed memory with the launch's bounds. Step
2: its MMIO regions are exactly the devices of the parameter. Step 3: each image write that no device takes is in memory
where no later write covers it, exactly the granules of these writes are backed, every byte the image does not write is
zero, and the writes that devices take are the device calls made, in order. Steps 4 and 5: x1..x31, the PC and the byte
order are the parameters' and slot 0 is 0 (the spec's decision D2). The device log and `outcome = none` are the model's own
fields (log entries 9 and 7). -/
def Obligations.LaunchGivesTheLaunchState : Prop :=
  ∀ (p : LaunchParams) (s : State), launch p = .ok s →
    s.mem.wf ∧ s.mem.memoryStart = p.memStart ∧ s.mem.memorySize = p.memSize ∧ s.mem.regionSize = p.granule ∧
    (∀ r : Region, r ∈ s.mem.regions ∧ r.isNormal = false ↔ ∃ d ∈ p.devices, r = d.region) ∧
    (∀ (before after : List ImageWrite) (w : ImageWrite), p.image = before ++ w :: after → p.deviceOf w = none →
      w.data.length = w.size ∧
      ∀ k, k < w.size → (∀ v ∈ after, w.addr + k < v.addr ∨ v.addr + v.size ≤ w.addr + k) →
        s.mem.byteAt (w.addr + k) = w.data[k]?) ∧
    (∀ a, (s.mem.byteAt a).isSome = true ↔ ∃ w ∈ p.image, p.deviceOf w = none ∧ a / p.granule = w.addr / p.granule) ∧
    (∀ a, (∀ w ∈ p.image, a < w.addr ∨ w.addr + w.size ≤ a) → s.mem.byteAt a = none ∨ s.mem.byteAt a = some 0#8) ∧
    s.mem.calls = p.image.filterMap (fun w => (p.deviceOf w).map fun d =>
      { device := d.name, kind := .write, addr := w.addr, size := w.size, bytes := w.data }) ∧
    (∀ r : Reg, r ≠ 0 → s.x r = p.initRegs[r.val]) ∧ s.rf.slot 0 = 0#32 ∧ s.pc = p.entryPc ∧ s.endian = p.endian ∧
    s.outcome = none

/-- R65, R87, R32, R269: the invariant is kept by every step from every state that meets it: the memory stays well formed
(sorted, disjoint, aligned regions in canonical form) and granular, slot 0 stays 0, the PC stays even. -/
def Obligations.StepKeepsTheInvariant : Prop := ∀ s t : State, s.Inv → step s = .next t → t.Inv

/-! ### Immediate ALU and upper-immediate instructions (spec/41_op_imm_upper.md) -/

/-- R201 to R206: ADDI, SLTI, SLTIU, XORI, ORI and ANDI complete on every state, writing `rd` alone. -/
def Obligations.ImmediateAluResults : Prop :=
  ∀ (s : State) (rd rs1 : Reg) (imm : Word),
    Completes (.addi rd rs1 imm) s rd (BitVec.ofNat 32 ((s.x rs1).toNat + imm.toNat)) (s.pc + 4#32) ∧
    Completes (.slti rd rs1 imm) s rd (if (s.x rs1).toInt < imm.toInt then 1#32 else 0#32) (s.pc + 4#32) ∧
    Completes (.sltiu rd rs1 imm) s rd (if (s.x rs1).toNat < imm.toNat then 1#32 else 0#32) (s.pc + 4#32) ∧
    Completes (.xori rd rs1 imm) s rd (BitVec.ofNat 32 ((s.x rs1).toNat ^^^ imm.toNat)) (s.pc + 4#32) ∧
    Completes (.ori rd rs1 imm) s rd (BitVec.ofNat 32 ((s.x rs1).toNat ||| imm.toNat)) (s.pc + 4#32) ∧
    Completes (.andi rd rs1 imm) s rd (BitVec.ofNat 32 ((s.x rs1).toNat &&& imm.toNat)) (s.pc + 4#32)

/-- R207 to R209: SLLI, SRLI and SRAI complete on every state: multiplication by a power of two modulo 2^32, unsigned
division, and signed division rounding down. -/
def Obligations.ImmediateShiftResults : Prop :=
  ∀ (s : State) (rd rs1 : Reg) (shamt : Fin 32),
    Completes (.slli rd rs1 shamt) s rd (BitVec.ofNat 32 ((s.x rs1).toNat * 2 ^ shamt.val)) (s.pc + 4#32) ∧
    Completes (.srli rd rs1 shamt) s rd (BitVec.ofNat 32 ((s.x rs1).toNat / 2 ^ shamt.val)) (s.pc + 4#32) ∧
    Completes (.srai rd rs1 shamt) s rd (BitVec.ofInt 32 ((s.x rs1).toInt.fdiv (2 ^ shamt.val))) (s.pc + 4#32)

/-- R211, R212: LUI writes its immediate and AUIPC the sum of its own address and its immediate, modulo 2^32. -/
def Obligations.UpperImmediateResults : Prop :=
  ∀ (s : State) (rd : Reg) (imm : Word),
    Completes (.lui rd imm) s rd imm (s.pc + 4#32) ∧
    Completes (.auipc rd imm) s rd (BitVec.ofNat 32 (s.pc.toNat + imm.toNat)) (s.pc + 4#32)

/-! ### Register-register ALU instructions (spec/42_op_reg.md) -/

/-- R231, R232, R234 to R236, R239, R240: ADD, SUB, SLT, SLTU, XOR, OR and AND complete on every state, both sources read
before `rd` is written. -/
def Obligations.RegisterAluResults : Prop :=
  ∀ (s : State) (rd rs1 rs2 : Reg),
    Completes (.add rd rs1 rs2) s rd (BitVec.ofNat 32 ((s.x rs1).toNat + (s.x rs2).toNat)) (s.pc + 4#32) ∧
    Completes (.sub rd rs1 rs2) s rd (BitVec.ofInt 32 (((s.x rs1).toNat : Int) - (s.x rs2).toNat)) (s.pc + 4#32) ∧
    Completes (.slt rd rs1 rs2) s rd (if (s.x rs1).toInt < (s.x rs2).toInt then 1#32 else 0#32) (s.pc + 4#32) ∧
    Completes (.sltu rd rs1 rs2) s rd (if (s.x rs1).toNat < (s.x rs2).toNat then 1#32 else 0#32) (s.pc + 4#32) ∧
    Completes (.xor rd rs1 rs2) s rd (BitVec.ofNat 32 ((s.x rs1).toNat ^^^ (s.x rs2).toNat)) (s.pc + 4#32) ∧
    Completes (.or rd rs1 rs2) s rd (BitVec.ofNat 32 ((s.x rs1).toNat ||| (s.x rs2).toNat)) (s.pc + 4#32) ∧
    Completes (.and rd rs1 rs2) s rd (BitVec.ofNat 32 ((s.x rs1).toNat &&& (s.x rs2).toNat)) (s.pc + 4#32)

/-- R233, R237, R238: SLL, SRL and SRA complete on every state and shift by the low 5 bits of `x[rs2]`. -/
def Obligations.RegisterShiftResults : Prop :=
  ∀ (s : State) (rd rs1 rs2 : Reg),
    let amount := (s.x rs2).toNat % 32
    Completes (.sll rd rs1 rs2) s rd (BitVec.ofNat 32 ((s.x rs1).toNat * 2 ^ amount)) (s.pc + 4#32) ∧
    Completes (.srl rd rs1 rs2) s rd (BitVec.ofNat 32 ((s.x rs1).toNat / 2 ^ amount)) (s.pc + 4#32) ∧
    Completes (.sra rd rs1 rs2) s rd (BitVec.ofInt 32 ((s.x rs1).toInt.fdiv (2 ^ amount))) (s.pc + 4#32)

/-! ### Jumps and branches (spec/43_control_transfer.md) -/

/-- R260, R261: JAL and JALR complete on every state, linking `pc + 4` into `rd`; JALR's target is the sum of the old
`x[rs1]` and the immediate modulo 2^32 with bit 0 cleared. -/
def Obligations.JumpResults : Prop :=
  ∀ (s : State) (rd rs1 : Reg) (imm : Word),
    Completes (.jal rd imm) s rd (s.pc + 4#32) (BitVec.ofNat 32 (s.pc.toNat + imm.toNat)) ∧
    Completes (.jalr rd rs1 imm) s rd (s.pc + 4#32)
      (BitVec.ofNat 32 (((s.x rs1).toNat + imm.toNat) % 2 ^ 32 / 2 * 2))

/-- R263 to R268: the six branches complete on every state and write no general register; the PC goes to `pc + imm_b` when
the condition holds and to `pc + 4` otherwise. -/
def Obligations.BranchResults : Prop :=
  ∀ (s : State) (rs1 rs2 : Reg) (imm : Word),
    let go (c : Prop) [Decidable c] : Word := if c then BitVec.ofNat 32 (s.pc.toNat + imm.toNat) else s.pc + 4#32
    Completes (.beq rs1 rs2 imm) s 0 0#32 (go (s.x rs1 = s.x rs2)) ∧
    Completes (.bne rs1 rs2 imm) s 0 0#32 (go (s.x rs1 ≠ s.x rs2)) ∧
    Completes (.blt rs1 rs2 imm) s 0 0#32 (go ((s.x rs1).toInt < (s.x rs2).toInt)) ∧
    Completes (.bge rs1 rs2 imm) s 0 0#32 (go ((s.x rs2).toInt ≤ (s.x rs1).toInt)) ∧
    Completes (.bltu rs1 rs2 imm) s 0 0#32 (go ((s.x rs1).toNat < (s.x rs2).toNat)) ∧
    Completes (.bgeu rs1 rs2 imm) s 0 0#32 (go ((s.x rs2).toNat ≤ (s.x rs1).toNat))

/-- R269 (decision D12): a jump to a target that is 2 modulo 4 retires, linking and writing the target to the PC, and the
next step reports the misaligned fetch with the PC unchanged. -/
def Obligations.MisalignedTargetIsReportedByTheNextFetch : Prop :=
  ∀ (s : State) (rd rs1 : Reg) (imm : Word), ∀ i ∈ [Instr.jal rd imm, Instr.jalr rd rs1 imm],
    ∀ t, exec i s = .next t → t.pc.toNat % 4 ≠ 0 →
      t.outcome = some .retired ∧ (rd ≠ 0 → t.x rd = s.pc + 4#32) ∧
      step t = .next (t.report (.memMisaligned .fetch t.pc t.pc.toNat 4))

/-! ### Loads and stores (spec/44_load_store.md) -/

/-- R293 to R298: LB, LH, LW, LBU, LHU and LWU complete when the effective address is aligned and the access lies in a
NormalRegion: `rd` takes the extended value of the bytes in the machine's byte order, and nothing in memory changes. -/
def Obligations.LoadsFromNormalRegions : Prop :=
  ∀ f ∈ loadForms, ∀ (s : State) (rd rs1 : Reg) (imm : Word) (r : Region),
    let ea := effectiveAddr s rs1 imm
    ea.toNat % f.1 = 0 → s.mem.findRegion ea.toNat f.1 = some r → r.isNormal = true →
    Completes (f.2.2 rd rs1 imm) s rd (loadedWord s.endian f.1 f.2.1 (cellsRead r.cells ea.toNat f.1)) (s.pc + 4#32)

/-- R91, R90, R307: a load from an MMIO region is exactly one call of the device's reader, recorded, also when `rd` is x0;
`rd` takes the extended value of whatever the device answered (a free value, log entry 9). -/
def Obligations.LoadsFromDevices : Prop :=
  ∀ f ∈ loadForms, ∀ (s : State) (rd rs1 : Reg) (imm : Word) (r : Region) (name : String),
    let ea := effectiveAddr s rs1 imm
    ea.toNat % f.1 = 0 → s.mem.findRegion ea.toNat f.1 = some r → r.backing = .mmio name →
    ∃ (t : State) (bs : List Byte), exec (f.2.2 rd rs1 imm) s = .next t ∧ bs.length = f.1 ∧
      RegisterWritten s t rd (loadedWord s.endian f.1 f.2.1 bs) (s.pc + 4#32) ∧ t.outcome = some .retired ∧
      t.mem.regions = s.mem.regions ∧ SameConfig s.mem t.mem ∧
      t.mem.calls = s.mem.calls ++ [{ device := name, kind := .read, addr := ea.toNat, size := f.1, bytes := bs }]

/-- R300 to R305, R102: SB, SH, SW, SB_F4, SH_F5 and SW_F6 complete when the effective address is aligned and the access
lies in a NormalRegion of a well-formed memory: the low-order bytes of `x[rs2]` are stored in the machine's byte order,
and no other byte, region, device or register changes. -/
def Obligations.StoresToNormalRegions : Prop :=
  ∀ f ∈ storeForms, ∀ (s : State) (rs2 rs1 : Reg) (imm : Word) (r : Region),
    let ea := effectiveAddr s rs1 imm
    s.mem.wf → ea.toNat % f.1 = 0 → s.mem.findRegion ea.toNat f.1 = some r → r.isNormal = true →
    ∃ t, exec (f.2 rs2 rs1 imm) s = .next t ∧ RegisterWritten s t 0 0#32 (s.pc + 4#32) ∧ t.outcome = some .retired ∧
      (∀ k, k < f.1 → t.mem.byteAt (ea.toNat + k) = (bytesOf s.endian (s.x rs2).toNat f.1)[k]?) ∧
      (∀ a, (a < ea.toNat ∨ ea.toNat + f.1 ≤ a) → t.mem.byteAt a = s.mem.byteAt a) ∧
      t.mem.regions.map (fun q => (q.start, q.size, q.isNormal)) =
        s.mem.regions.map (fun q => (q.start, q.size, q.isNormal)) ∧
      SameConfig s.mem t.mem ∧ t.mem.calls = s.mem.calls ∧ t.mem.draws = s.mem.draws

/-- R299, R87: a store that no region contains completes when its granule lies inside the bounds and no region overlaps
it: the granule becomes backed, zero but for the bytes stored, and nothing outside it changes. -/
def Obligations.StoresAllocateAGranule : Prop :=
  ∀ f ∈ storeForms, ∀ (s : State) (rs2 rs1 : Reg) (imm : Word),
    let ea := effectiveAddr s rs1 imm
    let g := s.mem.regionSize
    let a := ea.toNat / g * g
    s.mem.wf → s.mem.granular → ea.toNat % f.1 = 0 → s.mem.findRegion ea.toNat f.1 = none →
    s.mem.memoryStart ≤ a → a + g ≤ s.mem.memoryStart + s.mem.memorySize →
    (∀ r ∈ s.mem.regions, ¬ (r.start < a + g ∧ a < r.stop)) →
    ∃ t, exec (f.2 rs2 rs1 imm) s = .next t ∧ RegisterWritten s t 0 0#32 (s.pc + 4#32) ∧ t.outcome = some .retired ∧
      (∀ k, k < f.1 → t.mem.byteAt (ea.toNat + k) = (bytesOf s.endian (s.x rs2).toNat f.1)[k]?) ∧
      (∀ b, a ≤ b → b < a + g → (b < ea.toNat ∨ ea.toNat + f.1 ≤ b) → t.mem.byteAt b = some 0#8) ∧
      (∀ b, (b < a ∨ a + g ≤ b) → t.mem.byteAt b = s.mem.byteAt b) ∧
      SameConfig s.mem t.mem ∧ t.mem.calls = s.mem.calls ∧ t.mem.draws = s.mem.draws

/-- R91, R299: a store to an MMIO region is exactly one call of the device's writer, recorded with the address, the size
and the bytes; it allocates nothing and changes no region and no register. -/
def Obligations.StoresToDevices : Prop :=
  ∀ f ∈ storeForms, ∀ (s : State) (rs2 rs1 : Reg) (imm : Word) (r : Region) (name : String),
    let ea := effectiveAddr s rs1 imm
    ea.toNat % f.1 = 0 → s.mem.findRegion ea.toNat f.1 = some r → r.backing = .mmio name →
    ∃ t, exec (f.2 rs2 rs1 imm) s = .next t ∧ RegisterWritten s t 0 0#32 (s.pc + 4#32) ∧ t.outcome = some .retired ∧
      t.mem.regions = s.mem.regions ∧ SameConfig s.mem t.mem ∧ t.mem.draws = s.mem.draws ∧
      ∃ c : DeviceCall, t.mem.calls = s.mem.calls ++ [c] ∧ c.device = name ∧ c.kind = .write ∧ c.addr = ea.toNat ∧
        c.size = f.1 ∧ c.bytes = bytesOf s.endian (s.x rs2).toNat f.1

/-- R291 (the spec's decision D11; the source leaves open which error kind is reported, C7): a load or store whose
effective address is not a multiple of its width reports the misaligned access and changes nothing. -/
def Obligations.MisalignedAccessesAreReported : Prop :=
  (∀ f ∈ loadForms, ∀ (s : State) (rd rs1 : Reg) (imm : Word), (effectiveAddr s rs1 imm).toNat % f.1 ≠ 0 →
    exec (f.2.2 rd rs1 imm) s =
      .next (s.report (.memMisaligned .load s.pc (effectiveAddr s rs1 imm).toNat f.1))) ∧
  ∀ f ∈ storeForms, ∀ (s : State) (rs2 rs1 : Reg) (imm : Word), (effectiveAddr s rs1 imm).toNat % f.1 ≠ 0 →
    exec (f.2 rs2 rs1 imm) s =
      .next (s.report (.memMisaligned .store s.pc (effectiveAddr s rs1 imm).toNat f.1))

/-- R299, R356 (decisions D16, D17): an aligned store that no region contains fails with `RegionError` when its granule
lies outside the bounds and with `MemoryError` when a region overlaps its granule, the state unchanged. -/
def Obligations.StoresThatCannotAllocateFail : Prop :=
  ∀ f ∈ storeForms, ∀ (s : State) (rs2 rs1 : Reg) (imm : Word),
    let ea := effectiveAddr s rs1 imm
    let g := s.mem.regionSize
    let a := ea.toNat / g * g
    ea.toNat % f.1 = 0 → s.mem.findRegion ea.toNat f.1 = none →
    ((a < s.mem.memoryStart ∨ s.mem.memoryStart + s.mem.memorySize < a + g) →
      exec (f.2 rs2 rs1 imm) s = .fault (.regionError ea.toNat f.1 s)) ∧
    (s.mem.wf → s.mem.granular → s.mem.memoryStart ≤ a → a + g ≤ s.mem.memoryStart + s.mem.memorySize →
      (∃ r ∈ s.mem.regions, r.start < a + g ∧ a < r.stop) →
      exec (f.2 rs2 rs1 imm) s = .fault (.memoryError ea.toNat f.1 s))

/-! ### FENCE, ECALL and EBREAK (spec/45_misc_mem_system.md) -/

/-- R330: FENCE completes on every state whatever its fields are, and only the PC advances. -/
def Obligations.FenceOnlyAdvancesThePc : Prop :=
  ∀ (s : State) (fm pred succ : BitVec 4) (rs1 rd : Reg),
    Completes (.fence fm pred succ rs1 rd) s 0 0#32 (s.pc + 4#32)

/-- R332, R333 (which rest on the spec's decision D10 for the fields): ECALL and EBREAK report their trap on every state,
carrying the record of the trapping word at the PC; no register, byte, region, device or PC changes. -/
def Obligations.TrapsLeaveTheStateToTheHost : Prop :=
  ∀ s : State,
    (∃ t rec, exec .ecall s = .next t ∧ t.outcome = some (.trap .ecall rec) ∧ t.rf = s.rf ∧ t.mem = s.mem ∧
      t.pc = s.pc ∧ rec.address = s.pc ∧ rec.word = 0x00000073#32 ∧ rec.immI = 0#32) ∧
    (∃ t rec, exec .ebreak s = .next t ∧ t.outcome = some (.trap .ebreak rec) ∧ t.rf = s.rf ∧ t.mem = s.mem ∧
      t.pc = s.pc ∧ rec.address = s.pc ∧ rec.word = 0x00100073#32 ∧ rec.immI = 1#32)

/-- R357: a step that reports a trap fetched exactly the trap's word, and the trap carries the record the decoder gives
that word at the PC; and each of the two words, fetched, reports its trap. -/
def Obligations.TrapsComeFromTheTwoWords : Prop :=
  (∀ (s t : State) (k : TrapKind) (rec : InstRecord), step s = .next t → t.outcome = some (.trap k rec) →
    rec.word = (match k with | .ecall => 0x00000073#32 | .ebreak => 0x00100073#32) ∧
    decodeRecord s.endian s.pc (bytesOf s.endian rec.word.toNat 4) = .ok rec ∧ ∃ m, Fetches s rec.word m) ∧
  ∀ (s : State) (m : Memory),
    (Fetches s 0x00000073#32 m → ∃ rec, step s = .next ((s.withMem m).report (.trap .ecall rec))) ∧
    (Fetches s 0x00100073#32 m → ∃ rec, step s = .next ((s.withMem m).report (.trap .ebreak rec)))
end

