-- ==== Sys2Proof/Laws/Bytes.lean ====
section
/-! SUPPORT. Laws of the byte-order conversions (spec/20_memory.md rule R100) and of the cells of a NormalRegion: a byte set
is the byte read, no other address changes, and the canonical form is kept. -/

namespace Sys2Proof.Machine

/-! ### Lengths -/

@[simp] theorem leBytes_length (v n : Nat) : (leBytes v n).length = n := by
  induction n generalizing v with
  | zero => rfl
  | succ n ih => simp [leBytes, ih]

@[simp] theorem bytesOf_length (e : Endian) (v n : Nat) : (bytesOf e v n).length = n := by
  cases e <;> simp [bytesOf]

@[simp] theorem cellsRead_length (cs : List Host.Cell) (a n : Nat) : (cellsRead cs a n).length = n := by
  simp [cellsRead]

/-! ### Cells -/

/-- Addresses strictly rising. -/
abbrev CellsSorted (cs : List Host.Cell) : Prop := cs.Pairwise fun a b => a.1 < b.1

theorem cellsGet_eq_unlisted {cs : List Host.Cell} {a : Nat} (h : ∀ c ∈ cs, c.1 ≠ a) :
    cellsGet cs a = unlistedByte := by
  induction cs with
  | nil => rfl
  | cons c cs ih =>
    simp only [cellsGet, h c (by simp), if_false]
    exact ih fun d hd => h d (by simp [hd])

theorem mem_cellsSet {cs : List Host.Cell} {a : Nat} {b : Byte} {c : Host.Cell} (h : c ∈ cellsSet cs a b) :
    c ∈ cs ∨ (c = (a, b) ∧ b ≠ unlistedByte) := by
  induction cs with
  | nil =>
    simp only [cellsSet] at h
    split at h
    · simp at h
    · exact .inr ⟨by simpa using h, ‹_›⟩
  | cons d cs ih =>
    simp only [cellsSet] at h
    split at h
    · rcases List.mem_cons.1 h with rfl | h
      · simp
      · exact (ih h).imp_left fun h => by simp [h]
    · split at h <;> split at h <;> simp_all <;> tauto

theorem cellsSet_sorted {cs : List Host.Cell} (a : Nat) (b : Byte) (h : CellsSorted cs) :
    CellsSorted (cellsSet cs a b) := by
  induction cs with
  | nil => simp only [cellsSet]; split <;> simp
  | cons d cs ih =>
    have ⟨hd, hs⟩ := List.pairwise_cons.1 h
    simp only [cellsSet]
    split
    · rename_i hlt
      refine List.pairwise_cons.2 ⟨fun c hc => ?_, ih hs⟩
      rcases mem_cellsSet hc with hc | ⟨rfl, -⟩
      · exact hd c hc
      · exact hlt
    · rename_i hlt
      have hrest : CellsSorted (if d.1 = a then cs else d :: cs) := by split <;> assumption
      split
      · exact hrest
      · refine List.pairwise_cons.2 ⟨fun c hc => ?_, hrest⟩
        split at hc
        · have := hd c hc
          simp only; omega
        · rcases List.mem_cons.1 hc with rfl | hc
          · simp only; omega
          · have := hd c hc
            simp only; omega

theorem cellsGet_cellsSet {cs : List Host.Cell} (a x : Nat) (b : Byte) (h : CellsSorted cs) :
    cellsGet (cellsSet cs a b) x = if x = a then b else cellsGet cs x := by
  induction cs with
  | nil =>
    simp only [cellsSet]
    by_cases hx : x = a
    · subst hx; split <;> simp_all [cellsGet]
    · split <;> simp_all [cellsGet, eq_comm]
  | cons d cs ih =>
    have ⟨hd, hs⟩ := List.pairwise_cons.1 h
    have hne : ∀ y, y ≤ d.1 → ∀ c ∈ cs, c.1 ≠ y := fun y hy c hc e => by
      have := hd c hc; omega
    simp only [cellsSet]
    split
    · rename_i hlt
      simp only [cellsGet, ih hs]
      by_cases hx : x = a
      · subst hx; simp; omega
      · simp [hx]
    · rename_i hlt
      by_cases hda : d.1 = a
      · by_cases hx : x = a
        · subst hx
          have : cellsGet cs x = unlistedByte := cellsGet_eq_unlisted (hne x (by omega))
          split <;> simp_all [cellsGet]
        · have : ¬ a = x := fun e => hx e.symm
          split <;> simp_all [cellsGet]
      · by_cases hx : x = a
        · subst hx
          have : cellsGet cs x = unlistedByte := cellsGet_eq_unlisted (hne x (by omega))
          split <;> simp_all [cellsGet]
        · have : ¬ a = x := fun e => hx e.symm
          split <;> simp_all [cellsGet]

theorem cellsSetMany_sorted {cs : List Host.Cell} (a : Nat) (bs : List Byte) (h : CellsSorted cs) :
    CellsSorted (cellsSetMany cs a bs) := by
  induction bs generalizing cs a with
  | nil => exact h
  | cons b bs ih => exact ih _ (cellsSet_sorted a b h)

/-- An address outside the bytes set reads as before. -/
theorem cellsGet_cellsSetMany_out {cs : List Host.Cell} (a x : Nat) (bs : List Byte) (h : CellsSorted cs)
    (hx : x < a ∨ a + bs.length ≤ x) : cellsGet (cellsSetMany cs a bs) x = cellsGet cs x := by
  induction bs generalizing cs a with
  | nil => rfl
  | cons b bs ih =>
    simp only [List.length_cons] at hx
    simp only [cellsSetMany]
    rw [ih _ (cellsSet_sorted a b h) (by omega), cellsGet_cellsSet _ _ _ h, if_neg (by omega)]

/-- Each byte set reads as set. -/
theorem cellsGet_cellsSetMany_in {cs : List Host.Cell} (a k : Nat) (bs : List Byte) (h : CellsSorted cs)
    (hk : k < bs.length) : cellsGet (cellsSetMany cs a bs) (a + k) = bs[k] := by
  induction bs generalizing cs a k with
  | nil => simp at hk
  | cons b bs ih =>
    simp only [cellsSetMany]
    cases k with
    | zero =>
      rw [cellsGet_cellsSetMany_out _ _ _ (cellsSet_sorted a b h) (by omega), cellsGet_cellsSet _ _ _ h]
      simp
    | succ k =>
      have := ih (a + 1) k (cellsSet_sorted a b h) (by simpa using hk)
      rw [show a + (k + 1) = a + 1 + k by omega, this]
      simp

/-- Reading back the bytes just set gives them (R68). -/
theorem cellsRead_cellsSetMany {cs : List Host.Cell} (a : Nat) (bs : List Byte) (h : CellsSorted cs) :
    cellsRead (cellsSetMany cs a bs) a bs.length = bs := by
  apply List.ext_getElem (by simp)
  intro k h1 h2
  simp [cellsRead, cellsGet_cellsSetMany_in a k bs h h2]

/-! ### The canonical form -/

theorem CellsWf.get_out {lo hi : Nat} {cs : List Host.Cell} (h : CellsWf lo hi cs) {a : Nat} (ha : a < lo ∨ hi ≤ a) :
    cellsGet cs a = unlistedByte :=
  cellsGet_eq_unlisted fun c hc e => by have := (h.2 c hc).1; omega

theorem CellsWf.set {lo hi : Nat} {cs : List Host.Cell} (h : CellsWf lo hi cs) {a : Nat} (b : Byte) (hlo : lo ≤ a)
    (hhi : a < hi) : CellsWf lo hi (cellsSet cs a b) := by
  refine ⟨cellsSet_sorted a b h.1, fun c hc => ?_⟩
  rcases mem_cellsSet hc with hc | ⟨rfl, hb⟩
  · exact h.2 c hc
  · exact ⟨⟨hlo, hhi⟩, hb⟩

theorem CellsWf.setMany {lo hi : Nat} {cs : List Host.Cell} (h : CellsWf lo hi cs) (a : Nat) (bs : List Byte)
    (hlo : lo ≤ a) (hhi : a + bs.length ≤ hi) : CellsWf lo hi (cellsSetMany cs a bs) := by
  induction bs generalizing cs a with
  | nil => exact h
  | cons b bs ih =>
    simp only [List.length_cons] at hhi
    exact ih (h.set b hlo (by omega)) (a + 1) (by omega) (by omega)

theorem CellsWf.widen {lo hi hi' : Nat} {cs : List Host.Cell} (h : CellsWf lo hi cs) (hh : hi ≤ hi') :
    CellsWf lo hi' cs :=
  ⟨h.1, fun c hc => ⟨⟨(h.2 c hc).1.1, by have := (h.2 c hc).1.2; omega⟩, (h.2 c hc).2⟩⟩

theorem CellsWf.append {lo mid hi : Nat} {cs ds : List Host.Cell} (h : CellsWf lo mid cs) (k : CellsWf mid hi ds)
    (h1 : lo ≤ mid) (h2 : mid ≤ hi) : CellsWf lo hi (cs ++ ds) := by
  refine ⟨List.pairwise_append.2 ⟨h.1, k.1, fun c hc d hd => ?_⟩, fun c hc => ?_⟩
  · have := (h.2 c hc).1; have := (k.2 d hd).1; omega
  · rcases List.mem_append.1 hc with hc | hc
    · have := h.2 c hc; exact ⟨by omega, this.2⟩
    · have := k.2 c hc; exact ⟨by omega, this.2⟩

end Sys2Proof.Machine
end

