-- ==== Sys2Proof/Laws/State.lean ====
section
/-! SUPPORT. One lemma per field or accessor per update of State (spec/10_state.md rules R31, R32, R36). -/

namespace Sys2Proof.Machine

/-! ### Slots of a register file -/

@[simp] theorem RegFile.slot_setSlot_same {w n : Nat} (f : RegFile w n) (i : Fin n) (v : BitVec w) :
    (f.setSlot i v).slot i = v := by
  simp [RegFile.slot, RegFile.setSlot, Vector.get_eq_getElem]

theorem RegFile.slot_setSlot_ne {w n : Nat} (f : RegFile w n) {i j : Fin n} (v : BitVec w) (h : i ≠ j) :
    (f.setSlot i v).slot j = f.slot j := by
  have : i.val ≠ j.val := fun e => h (Fin.ext e)
  simp [RegFile.slot, RegFile.setSlot, Vector.get_eq_getElem, this]

@[simp] theorem RegFile.endian_setSlot {w n : Nat} (f : RegFile w n) (i : Fin n) (v : BitVec w) :
    (f.setSlot i v).endian = f.endian := rfl

theorem regSlot_injective {a b : Reg} (h : regSlot a = regSlot b) : a = b := Fin.castSucc_injective _ h

theorem regSlot_ne_pcSlot (r : Reg) : regSlot r ≠ pcSlot := by
  revert r; decide

namespace State

variable (s : State)

/-! ### Reading `x[0]` -/

@[simp] theorem x_zero : s.x 0 = 0#32 := rfl

/-! ### `setX` -/

@[simp] theorem setX_zero (v : Word) : s.setX 0 v = s := rfl

@[simp] theorem setX_mem (r : Reg) (v : Word) : (s.setX r v).mem = s.mem := by
  unfold setX; split <;> rfl

@[simp] theorem setX_outcome (r : Reg) (v : Word) : (s.setX r v).outcome = s.outcome := by
  unfold setX; split <;> rfl

@[simp] theorem setX_endian (r : Reg) (v : Word) : (s.setX r v).endian = s.endian := by
  unfold setX; split <;> rfl

@[simp] theorem setX_pc (r : Reg) (v : Word) : (s.setX r v).pc = s.pc := by
  unfold setX; split
  · rfl
  · exact RegFile.slot_setSlot_ne _ _ (regSlot_ne_pcSlot r)

theorem setX_x_same {r : Reg} (v : Word) (h : r ≠ 0) : (s.setX r v).x r = v := by
  simp [setX, x, zeroReg, h]

theorem setX_x_ne {r q : Reg} (v : Word) (h : q ≠ r) : (s.setX r v).x q = s.x q := by
  unfold setX
  split
  · rfl
  · unfold x
    split
    · rfl
    · exact RegFile.slot_setSlot_ne _ _ fun e => h (regSlot_injective e).symm

theorem setX_x (r q : Reg) (v : Word) : (s.setX r v).x q = if q = r ∧ r ≠ 0 then v else s.x q := by
  by_cases hq : q = r
  · subst hq
    by_cases h0 : q = 0
    · subst h0; rfl
    · simp [h0, setX_x_same]
  · simp [hq, setX_x_ne]

/-! ### `setPc` -/

@[simp] theorem setPc_mem (v : Word) : (s.setPc v).mem = s.mem := rfl
@[simp] theorem setPc_outcome (v : Word) : (s.setPc v).outcome = s.outcome := rfl
@[simp] theorem setPc_endian (v : Word) : (s.setPc v).endian = s.endian := rfl
@[simp] theorem setPc_pc (v : Word) : (s.setPc v).pc = v := RegFile.slot_setSlot_same _ _ _
@[simp] theorem setPc_x (v : Word) (r : Reg) : (s.setPc v).x r = s.x r := by
  unfold x
  split
  · rfl
  · exact RegFile.slot_setSlot_ne _ _ (regSlot_ne_pcSlot r).symm

/-! ### `withMem` -/

@[simp] theorem withMem_mem (m : Memory) : (s.withMem m).mem = m := rfl
@[simp] theorem withMem_rf (m : Memory) : (s.withMem m).rf = s.rf := rfl
@[simp] theorem withMem_outcome (m : Memory) : (s.withMem m).outcome = s.outcome := rfl
@[simp] theorem withMem_endian (m : Memory) : (s.withMem m).endian = s.endian := rfl
@[simp] theorem withMem_pc (m : Memory) : (s.withMem m).pc = s.pc := rfl
@[simp] theorem withMem_x (m : Memory) (r : Reg) : (s.withMem m).x r = s.x r := rfl
@[simp] theorem withMem_self : s.withMem s.mem = s := rfl

/-! ### `retire` -/

@[simp] theorem retire_mem (v : Word) : (s.retire v).mem = s.mem := rfl
@[simp] theorem retire_outcome (v : Word) : (s.retire v).outcome = some .retired := rfl
@[simp] theorem retire_endian (v : Word) : (s.retire v).endian = s.endian := rfl
@[simp] theorem retire_pc (v : Word) : (s.retire v).pc = v := setPc_pc s v
@[simp] theorem retire_x (v : Word) (r : Reg) : (s.retire v).x r = s.x r := setPc_x s v r

/-! ### `report` -/

@[simp] theorem report_mem (o : StepOutcome) : (s.report o).mem = s.mem := rfl
@[simp] theorem report_rf (o : StepOutcome) : (s.report o).rf = s.rf := rfl
@[simp] theorem report_outcome (o : StepOutcome) : (s.report o).outcome = some o := rfl
@[simp] theorem report_endian (o : StepOutcome) : (s.report o).endian = s.endian := rfl
@[simp] theorem report_pc (o : StepOutcome) : (s.report o).pc = s.pc := rfl
@[simp] theorem report_x (o : StepOutcome) (r : Reg) : (s.report o).x r = s.x r := rfl

/-! ### Slot 0 -/

theorem slot_zero_setX (r : Reg) (v : Word) : (s.setX r v).rf.slot 0 = s.rf.slot 0 := by
  unfold setX
  split
  · rfl
  · rename_i h
    exact RegFile.slot_setSlot_ne _ _ fun e => h (regSlot_injective (b := 0) e)

theorem slot_zero_setPc (v : Word) : (s.setPc v).rf.slot 0 = s.rf.slot 0 :=
  RegFile.slot_setSlot_ne _ _ (by decide)

@[simp] theorem slot_zero_retire (v : Word) : (s.retire v).rf.slot 0 = s.rf.slot 0 := slot_zero_setPc s v

end State

/-- `AddrOf` of a word is its unsigned value (R13, D6). -/
@[simp] theorem addrOf_eq (w : Word) : addrOf w = w.toNat := by
  simp only [addrOf, BitVec.toNat_setWidth]
  exact Nat.mod_eq_of_lt (by omega)

/-- The launch with the parameters `State.reset` stands for gives `State.reset` (R390, R394). -/
theorem launch_resetParams : launch resetParams = .ok State.reset := by decide

end Sys2Proof.Machine
end

