-- ==== Sys2Proof/Laws/Memory.lean ====
section
/-! SUPPORT. Every memory operation keeps the invariants of spec/20_memory.md rule R65 and the canonical form of the cells,
and what each operation can do. -/

namespace Sys2Proof.Machine

/-! ### Lists of regions -/

theorem mem_updateFirst {p : Region → Bool} {f : Region → Region} {rs : List Region} {q : Region}
    (h : q ∈ updateFirst p f rs) : q ∈ rs ∨ ∃ r ∈ rs, p r = true ∧ q = f r := by
  induction rs with
  | nil => simp [updateFirst] at h
  | cons r rs ih =>
    simp only [updateFirst] at h
    split at h
    · rcases List.mem_cons.1 h with rfl | h
      · exact .inr ⟨r, by simp, ‹_›, rfl⟩
      · exact .inl (by simp [h])
    · rcases List.mem_cons.1 h with rfl | h
      · exact .inl (by simp)
      · rcases ih h with h | ⟨r', h1, h2⟩
        · exact .inl (by simp [h])
        · exact .inr ⟨r', by simp [h1], h2⟩

/-- Regions in order and disjoint (R65). -/
abbrev RegionsSorted (rs : List Region) : Prop := rs.Pairwise fun a b => a.stop ≤ b.start

/-- Changing one region keeps the order when its start stays and its end passes no later region's start. -/
theorem updateFirst_sorted {p : Region → Bool} {f : Region → Region} {rs : List Region} (h : RegionsSorted rs)
    (hs : ∀ r ∈ rs, p r = true → (f r).start = r.start)
    (he : ∀ r ∈ rs, p r = true → ∀ q ∈ rs, r.stop ≤ q.start → (f r).stop ≤ q.start) :
    RegionsSorted (updateFirst p f rs) := by
  induction rs with
  | nil => exact h
  | cons r rs ih =>
    have ⟨hr, hrs⟩ := List.pairwise_cons.1 h
    simp only [updateFirst]
    split
    · rename_i hp
      exact List.pairwise_cons.2 ⟨fun q hq => he r (by simp) hp q (by simp [hq]) (hr q hq), hrs⟩
    · refine List.pairwise_cons.2 ⟨fun q hq => ?_, ih hrs (fun a ha => hs a (by simp [ha]))
        (fun a ha hp b hb => he a (by simp [ha]) hp b (by simp [hb]))⟩
      rcases mem_updateFirst hq with hq | ⟨a, ha, hpa, rfl⟩
      · exact hr q hq
      · rw [hs a (by simp [ha]) hpa]; exact hr a ha

theorem mem_insertSorted {r q : Region} {rs : List Region} (h : q ∈ insertSorted r rs) : q = r ∨ q ∈ rs := by
  induction rs with
  | nil => simpa [insertSorted] using h
  | cons a rs ih =>
    simp only [insertSorted] at h
    split at h
    · simpa using h
    · rcases List.mem_cons.1 h with rfl | h
      · simp
      · rcases ih h with h | h <;> simp [h]

theorem mem_insertSorted_iff {r q : Region} {rs : List Region} : q ∈ insertSorted r rs ↔ q = r ∨ q ∈ rs := by
  refine ⟨mem_insertSorted, fun h => ?_⟩
  induction rs with
  | nil => simpa [insertSorted] using h
  | cons a rs ih =>
    simp only [insertSorted]
    split
    · simpa using h
    · rcases h with rfl | h
      · simp [ih (.inl rfl)]
      · rcases List.mem_cons.1 h with rfl | h
        · simp
        · simp [ih (.inr h)]

@[simp] theorem insertSorted_length (r : Region) (rs : List Region) : (insertSorted r rs).length = rs.length + 1 := by
  induction rs with
  | nil => rfl
  | cons a rs ih => simp only [insertSorted]; split <;> simp [ih]

@[simp] theorem updateFirst_length (p : Region → Bool) (f : Region → Region) (rs : List Region) :
    (updateFirst p f rs).length = rs.length := by
  induction rs with
  | nil => rfl
  | cons a rs ih => simp only [updateFirst]; split <;> simp [ih]

/-- Where exactly one region of a list without repeats satisfies `p`, `updateFirst` replaces it and keeps the rest. -/
theorem mem_updateFirst_iff {p : Region → Bool} {f : Region → Region} {rs : List Region} {r : Region} (hd : rs.Nodup)
    (hr : r ∈ rs) (hp : p r = true) (hu : ∀ q ∈ rs, p q = true → q = r) (q : Region) :
    q ∈ updateFirst p f rs ↔ q = f r ∨ (q ∈ rs ∧ q ≠ r) := by
  induction rs with
  | nil => cases hr
  | cons a rs ih =>
    have ⟨hn, hd'⟩ := List.nodup_cons.1 hd
    simp only [updateFirst]
    split
    · have ha := hu a (by simp) ‹_›
      subst ha
      simp only [List.mem_cons]
      constructor
      · rintro (rfl | h)
        · exact .inl rfl
        · exact .inr ⟨.inr h, fun he => hn (he ▸ h)⟩
      · rintro (rfl | ⟨rfl | h, hne⟩)
        · exact .inl rfl
        · exact absurd rfl hne
        · exact .inr h
    · have hra : a ≠ r := fun h => by subst h; contradiction
      have hr' : r ∈ rs := (List.mem_cons.1 hr).resolve_left fun h => hra h.symm
      rw [List.mem_cons, ih hd' hr' (fun q hq => hu q (by simp [hq])), List.mem_cons]
      constructor
      · rintro (rfl | h | ⟨h, hne⟩)
        · exact .inr ⟨.inl rfl, hra⟩
        · exact .inl h
        · exact .inr ⟨.inr h, hne⟩
      · rintro (h | ⟨rfl | h, hne⟩)
        · exact .inr (.inl h)
        · exact .inl rfl
        · exact .inr (.inr ⟨h, hne⟩)

theorem insertSorted_sorted {r : Region} {rs : List Region} (h : RegionsSorted rs) (hr : 0 < r.size)
    (hpos : ∀ q ∈ rs, 0 < q.size) (ho : ∀ q ∈ rs, q.overlapsRange r.start r.stop = false) :
    RegionsSorted (insertSorted r rs) := by
  have key : ∀ q ∈ rs, r.stop ≤ q.start ∨ q.stop ≤ r.start := fun q hq => by
    have := ho q hq
    simp [Region.overlapsRange] at this
    omega
  induction rs with
  | nil => simp [insertSorted]
  | cons a rs ih =>
    have ⟨ha, hs⟩ := List.pairwise_cons.1 h
    have ka := key a (by simp)
    have pa := hpos a (by simp)
    have spa : a.stop = a.start + a.size := rfl
    have spr : r.stop = r.start + r.size := rfl
    simp only [insertSorted]
    split
    · refine List.pairwise_cons.2 ⟨fun q hq => ?_, h⟩
      rcases List.mem_cons.1 hq with rfl | hq
      · omega
      · have := ha q hq; omega
    · refine List.pairwise_cons.2 ⟨fun q hq => ?_, ih hs (fun q hq => hpos q (by simp [hq]))
        (fun q hq => ho q (by simp [hq])) (fun q hq => key q (by simp [hq]))⟩
      rcases mem_insertSorted hq with rfl | hq
      · omega
      · exact ha q hq

theorem find_region_spec {m : Memory} {addr size : Nat} {r : Region} (h : m.findRegion addr size = some r) :
    r ∈ m.regions ∧ r.start ≤ addr ∧ addr + size ≤ r.stop := by
  refine ⟨List.mem_of_find?_eq_some h, ?_⟩
  have := List.find?_some h
  simpa [Region.holds] using this

theorem closestBelow_spec {addr : Nat} {rs : List Region} {p : Region} (h : closestBelow addr rs = some p) :
    p ∈ rs ∧ p.stop ≤ addr := by
  induction rs generalizing p with
  | nil => simp [closestBelow] at h
  | cons r rs ih =>
    simp only [closestBelow] at h
    split at h
    · split at h
      · cases h; exact ⟨by simp, ‹_›⟩
      · cases h
    · rename_i q hq
      split at h
      · cases h; exact ⟨by simp, by omega⟩
      · cases h; exact ⟨by simp [(ih hq).1], (ih hq).2⟩

namespace Memory

theorem wf.granule_pos {m : Memory} (h : m.wf) : 0 < m.regionSize := by
  have := h.1
  simp only [configOk, Bool.and_eq_true, decide_eq_true_eq] at this
  omega

/-- No region stands twice in a well-formed memory. -/
theorem wf.nodup {m : Memory} (h : m.wf) : m.regions.Nodup := by
  refine List.Pairwise.imp_of_mem (fun {a b} ha _ hab hne => ?_) h.2.1
  subst hne
  have := (h.2.2 a ha).1
  have : a.stop = a.start + a.size := rfl
  omega

/-- At most one region of a well-formed memory ends at a given address. -/
theorem wf.eq_of_stop_eq {m : Memory} (h : m.wf) {a b : Region} (ha : a ∈ m.regions) (hb : b ∈ m.regions)
    (hs : a.stop = b.stop) : a = b := by
  have key : ∀ rs : List Region, RegionsSorted rs → (∀ r ∈ rs, 0 < r.size) → a ∈ rs → b ∈ rs → a = b := by
    intro rs hrs hpos ha hb
    have pa : a.stop = a.start + a.size := rfl
    have pb : b.stop = b.start + b.size := rfl
    have za := hpos a ha
    have zb := hpos b hb
    induction rs with
    | nil => cases ha
    | cons r rs ih =>
      have ⟨hr, hrs'⟩ := List.pairwise_cons.1 hrs
      rcases List.mem_cons.1 ha with rfl | ha' <;> rcases List.mem_cons.1 hb with rfl | hb'
      · rfl
      · have := hr b hb'; omega
      · have := hr a ha'; omega
      · exact ih hrs' (fun q hq => hpos q (by simp [hq])) ha' hb'
  exact key m.regions h.2.1 (fun r hr => (h.2.2 r hr).1) ha hb

/-! ### `putBytes` -/

theorem putBytes_start (addr : Nat) (data : List Byte) (r : Region) : (putBytes addr data r).start = r.start := by
  unfold putBytes; split <;> rfl

theorem putBytes_stop (addr : Nat) (data : List Byte) (r : Region) : (putBytes addr data r).stop = r.stop := by
  unfold putBytes Region.stop; split <;> rfl

theorem putBytes_isNormal (addr : Nat) (data : List Byte) (r : Region) :
    (putBytes addr data r).isNormal = r.isNormal := by
  obtain ⟨start, size, cs | name⟩ := r <;> rfl

theorem putBytes_size (addr : Nat) (data : List Byte) (r : Region) : (putBytes addr data r).size = r.size := by
  unfold putBytes; split <;> rfl

theorem putBytes_wf {ms mz g addr : Nat} {data : List Byte} {r : Region} (h : r.Wf ms mz g)
    (hr : r.holds addr data.length = true) : (putBytes addr data r).Wf ms mz g := by
  simp only [Region.holds, decide_eq_true_eq] at hr
  refine ⟨by rw [putBytes_size]; exact h.1, by rw [putBytes_start]; exact h.2.1,
    by rw [putBytes_stop]; exact h.2.2.1, by rw [putBytes_start]; exact h.2.2.2.1, ?_⟩
  rw [putBytes_start, putBytes_stop]
  have hc := h.2.2.2.2
  obtain ⟨start, size, cs | name⟩ := r
  · exact CellsWf.setMany hc addr data hr.1 hr.2
  · exact hc

/-! ### `addRegion` (R84, R85) -/

theorem mergedWith_eq {r e : Region} (h : absorbs r e = true) :
    mergedWith r e = { start := e.start, size := e.size + r.size, backing := .normal (e.cells ++ r.cells) } ∧
      e.stop = r.start := by
  simp only [absorbs, Bool.and_eq_true, decide_eq_true_eq] at h
  exact ⟨by simp [mergedWith, Region.merge, h], h.2⟩

theorem absorbs_iff {r e : Region} :
    absorbs r e = true ↔ r.isNormal = true ∧ e.isNormal = true ∧ e.stop = r.start := by
  simp only [absorbs, Region.mergeable, Bool.and_eq_true, decide_eq_true_eq]
  exact ⟨fun ⟨⟨a, b⟩, c⟩ => ⟨b, a, c⟩, fun ⟨a, b, c⟩ => ⟨⟨b, a⟩, c⟩⟩

/-- A region some region absorbs replaces that one by the merge of the two (R85). -/
theorem mem_insertRegion_absorbed {m : Memory} (h : m.wf) {r e : Region} (he : e ∈ m.regions)
    (ha : absorbs r e = true) (q : Region) :
    q ∈ insertRegion m.regions r ↔ q = mergedWith r e ∨ (q ∈ m.regions ∧ q ≠ e) := by
  rw [insertRegion, if_pos (List.any_eq_true.2 ⟨e, he, ha⟩)]
  exact mem_updateFirst_iff h.nodup he ha
    (fun b hb hab => h.eq_of_stop_eq hb he ((absorbs_iff.1 hab).2.2.trans (absorbs_iff.1 ha).2.2.symm)) q

theorem insertRegion_length_absorbed {rs : List Region} {r e : Region} (he : e ∈ rs) (ha : absorbs r e = true) :
    (insertRegion rs r).length = rs.length := by
  rw [insertRegion, if_pos (List.any_eq_true.2 ⟨e, he, ha⟩), updateFirst_length]

/-- A region that no region absorbs is put in its sorted place beside all the others (R84, R85). -/
theorem insertRegion_separate {rs : List Region} {r : Region} (h : ∀ e ∈ rs, absorbs r e = false) :
    insertRegion rs r = insertSorted r rs := by
  rw [insertRegion, if_neg (by simpa using h)]

/-- `addRegion` succeeds exactly for a non-empty region in the bounds, at a multiple of `G`, that overlaps none. -/
theorem addRegion_ok_iff (m : Memory) (r : Region) (m' : Memory) :
    m.addRegion r = .ok m' ↔
      (r.size ≠ 0 ∧ m.memoryStart ≤ r.start ∧ r.stop ≤ m.memoryEnd ∧ r.start % m.regionSize = 0 ∧
        m.overlapsAny r.start r.stop = false) ∧ m' = { m with regions := insertRegion m.regions r } := by
  unfold addRegion
  split
  · simp [*]
  · split
    · rename_i h
      refine ⟨(fun h => by cases h), ?_⟩
      rintro ⟨⟨-, h1, h2, -⟩, -⟩
      unfold memoryEnd at *
      omega
    · split
      · simp [*]
      · split
        · simp [*]
        · rename_i h1 h2 h3 h4
          simp only [Except.ok.injEq]
          constructor
          · rintro rfl
            exact ⟨⟨h1, by omega, by omega, by omega, by simpa using h4⟩, rfl⟩
          · rintro ⟨-, rfl⟩; rfl

/-- Every failure of `addRegion` is `RegionError` (R84). -/
theorem addRegion_error {m : Memory} {r : Region} {e : MemError} (h : m.addRegion r = .error e) : e = .regionError := by
  unfold addRegion at h
  repeat' split at h
  all_goals first | (cases h; rfl) | cases h

theorem not_overlapsAny {m : Memory} {lo hi : Nat} (h : m.overlapsAny lo hi = false) :
    ∀ q ∈ m.regions, hi ≤ q.start ∨ q.stop ≤ lo := fun q hq => by
  have := List.any_eq_false.1 h q hq
  simp [Region.overlapsRange] at this
  omega

theorem addRegion_wf {m m' : Memory} {r : Region} (h : m.wf) (hc : CellsWf r.start r.stop r.cells)
    (hm : m.addRegion r = .ok m') : m'.wf ∧ SameConfig m m' := by
  obtain ⟨⟨hpos, hlo, hhi, hal, hov⟩, rfl⟩ := (addRegion_ok_iff m r m').1 hm
  have hsep := not_overlapsAny hov
  have hstop : r.stop = r.start + r.size := rfl
  refine ⟨⟨h.1, ?_, ?_⟩, rfl, rfl, rfl⟩
  · show RegionsSorted (insertRegion m.regions r)
    unfold insertRegion
    split
    · refine updateFirst_sorted h.2.1 (fun e _ he => by rw [(mergedWith_eq he).1]) fun e hem he q hq hle => ?_
      have ⟨h1, h2⟩ := mergedWith_eq he
      rw [h1]
      have hqs := (h.2.2 q hq).1
      have hqstop : q.stop = q.start + q.size := rfl
      have hestop : e.stop = e.start + e.size := rfl
      have := hsep q hq
      show e.start + (e.size + r.size) ≤ q.start
      omega
    · exact insertSorted_sorted h.2.1 (by omega) (fun q hq => (h.2.2 q hq).1)
        (fun q hq => by simpa using List.any_eq_false.1 hov q hq)
  · intro q hq
    show q.Wf m.memoryStart m.memorySize m.regionSize
    have hrwf : r.Wf m.memoryStart m.memorySize m.regionSize := ⟨by omega, hlo, hhi, hal, hc⟩
    unfold insertRegion at hq
    split at hq
    · rcases mem_updateFirst hq with hq | ⟨e, hem, he, rfl⟩
      · exact h.2.2 q hq
      · have ⟨h1, h2⟩ := mergedWith_eq he
        have hewf := h.2.2 e hem
        have hestop : e.stop = e.start + e.size := rfl
        rw [h1]
        refine ⟨by show 0 < e.size + r.size; have := hewf.1; omega, hewf.2.1, ?_, hewf.2.2.2.1, ?_⟩
        · show e.start + (e.size + r.size) ≤ _
          have : r.stop ≤ m.memoryStart + m.memorySize := hhi
          omega
        · show CellsWf e.start (e.start + (e.size + r.size)) (e.cells ++ r.cells)
          have : e.start + (e.size + r.size) = r.stop := by omega
          rw [this]
          have hc' := hewf.2.2.2.2
          rw [h2] at hc'
          exact hc'.append hc (by omega) (by omega)
    · rcases mem_insertSorted hq with rfl | hq
      · exact hrwf
      · exact h.2.2 q hq

theorem fresh_cellsWf (start size : Nat) : CellsWf (Region.fresh start size).start (Region.fresh start size).stop
    (Region.fresh start size).cells := ⟨List.Pairwise.nil, by simp [Region.fresh, Region.cells]⟩

theorem addOrBlock_ok {m m' : Memory} {r : Region} (h : m.addOrBlock r = .ok m') : m.addRegion r = .ok m' := by
  unfold addOrBlock at h
  split at h
  · cases h; assumption
  · cases h

/-! ### Write allocation (R78 to R83) -/

theorem granuleStart_mod {m : Memory} (addr : Nat) : m.granuleStart addr % m.regionSize = 0 := by
  unfold granuleStart
  rw [← Nat.div_add_mod addr m.regionSize, Nat.mul_add_mod]
  simp

theorem granuleStart_le (m : Memory) (addr : Nat) : m.granuleStart addr ≤ addr := Nat.sub_le _ _

theorem lt_granuleEnd {m : Memory} (h : 0 < m.regionSize) (addr : Nat) :
    addr < m.granuleStart addr + m.regionSize := by
  unfold granuleStart
  have := Nat.mod_lt addr h
  have := Nat.mod_le addr m.regionSize
  omega

/-- Under R65 the far end of a granule falls inside no region: step 4 never shrinks (R80). -/
theorem farEndRegion_eq_none {m : Memory} (h : m.wf) {a : Nat} (ha : a % m.regionSize = 0) : m.farEndRegion a = none := by
  refine List.find?_eq_none.2 fun q hq => ?_
  have hg := h.granule_pos
  have hal := (h.2.2 q hq).2.2.2.1
  simp only [decide_eq_true_eq, not_and]
  intro h1 h2
  obtain ⟨i, hi⟩ := Nat.dvd_of_mod_eq_zero ha
  obtain ⟨j, hj⟩ := Nat.dvd_of_mod_eq_zero hal
  rw [hi, hj] at h1 h2
  have hij : i < j := Nat.lt_of_mul_lt_mul_left h1
  have := Nat.mul_le_mul_left m.regionSize (show i + 1 ≤ j from hij)
  rw [Nat.mul_add] at this
  omega

theorem createGranule_eq {m : Memory} (h : m.wf) {a : Nat} (ha : a % m.regionSize = 0) :
    m.createGranule a = m.addOrBlock (Region.fresh a m.regionSize) := by
  simp [createGranule, farEndRegion_eq_none h ha]

theorem extendTo_eq {hi : Nat} {p : Region} (hr : p.resizable = true) (h : p.stop ≤ hi) :
    extendTo hi p = { p with size := hi - p.start } := by
  have : p.stop = p.start + p.size := rfl
  simp [extendTo, Region.resize, hr, show p.size ≤ hi - p.start by omega]

/-- What allocation can do (R78 to R81): it adds the granule, or it extends the region just below it. -/
theorem allocate_cases {m m' : Memory} {addr : Nat} (h : m.wf) (hm : m.allocate addr = .ok m') :
    (m.memoryStart ≤ m.granuleStart addr ∧ m.granuleStart addr + m.regionSize ≤ m.memoryEnd) ∧
    (m.addRegion (Region.fresh (m.granuleStart addr) m.regionSize) = .ok m' ∨
      ∃ p, closestBelow addr m.regions = some p ∧ addr - p.stop < m.regionSize ∧ p.resizable = true ∧
        m.overlapsAny p.stop (m.granuleStart addr + m.regionSize) = false ∧
        m' = { m with regions := updateFirst (fun q => q == p) (extendTo (m.granuleStart addr + m.regionSize)) m.regions }) := by
  have hcg := createGranule_eq h (m.granuleStart_mod addr)
  simp only [allocate] at hm
  split at hm
  · cases hm
  · rename_i hb
    refine ⟨by omega, ?_⟩
    split at hm
    · exact .inl (addOrBlock_ok hm)
    · split at hm
      · rename_i p hp
        split at hm
        · rename_i hq
          split at hm
          · cases hm
          · rename_i ho
            cases hm
            exact .inr ⟨p, hp, hq.1, hq.2, by simpa using ho, rfl⟩
        · rw [hcg] at hm
          exact .inl (addOrBlock_ok hm)
      · rw [hcg] at hm
        exact .inl (addOrBlock_ok hm)

theorem allocate_wf {m m' : Memory} {addr : Nat} (h : m.wf) (hm : m.allocate addr = .ok m') :
    m'.wf ∧ SameConfig m m' := by
  obtain ⟨⟨hlo, hhi⟩, hadd | ⟨p, hp, hd, hres, hov, rfl⟩⟩ := allocate_cases h hm
  · exact addRegion_wf h (fresh_cellsWf _ _) hadd
  · obtain ⟨hpm, hps⟩ := closestBelow_spec hp
    have hlt := lt_granuleEnd h.granule_pos addr
    have hsep := not_overlapsAny hov
    have hext := extendTo_eq (hi := m.granuleStart addr + m.regionSize) hres (by omega)
    have hpwf := h.2.2 p hpm
    have hpstop : p.stop = p.start + p.size := rfl
    have hnewstop : ({ p with size := m.granuleStart addr + m.regionSize - p.start } : Region).stop =
        m.granuleStart addr + m.regionSize := by
      show p.start + (m.granuleStart addr + m.regionSize - p.start) = _
      omega
    refine ⟨⟨h.1, ?_, ?_⟩, rfl, rfl, rfl⟩
    · refine updateFirst_sorted h.2.1 (fun r _ hr => ?_) fun r _ hr q hq hle => ?_
      · rw [beq_iff_eq] at hr; subst hr; rw [hext]
      · rw [beq_iff_eq] at hr; subst hr
        rw [hext, hnewstop]
        have hqstop : q.stop = q.start + q.size := rfl
        have := (h.2.2 q hq).1
        have := hsep q hq
        omega
    · intro q hq
      rcases mem_updateFirst hq with hq | ⟨r, hrm, hr, rfl⟩
      · exact h.2.2 q hq
      · rw [beq_iff_eq] at hr; subst hr
        rw [hext]
        refine ⟨by show 0 < m.granuleStart addr + m.regionSize - r.start; omega, hpwf.2.1,
          by rw [hnewstop]; exact hhi, hpwf.2.2.2.1, ?_⟩
        rw [hnewstop]
        exact CellsWf.widen hpwf.2.2.2.2 (by omega)

/-! ### Access (R68, R70, R76) -/

theorem deviceWrite_wf {m : Memory} (h : m.wf) (name : String) (addr size : Nat) (data : List Byte) :
    (m.deviceWrite name addr size data).wf := h

theorem deviceRead_wf {m : Memory} (h : m.wf) (name : String) (addr size : Nat) :
    (m.deviceRead name addr size).2.wf := h

/-- What a region-local write can do (R68): one device call, or the bytes put in the region. -/
theorem regionWrite_cases {m m' : Memory} {r : Region} {addr size : Nat} {data : List Byte}
    (hm : m.regionWrite r addr size data = .ok m') :
    (∃ name, r.backing = .mmio name ∧ m' = m.deviceWrite name addr size data) ∨
    (r.isNormal = true ∧
      m' = { m with regions := updateFirst (fun q => q.holds addr size) (putBytes addr data) m.regions }) := by
  unfold regionWrite at hm
  split at hm
  · split at hm
    · rename_i hb
      cases hm
      exact .inr ⟨by simp [Region.isNormal, hb], rfl⟩
    · rename_i hb
      cases hm
      exact .inl ⟨_, hb, rfl⟩
  · cases hm

theorem regionWrite_wf {m m' : Memory} {r : Region} {addr size : Nat} {data : List Byte} (h : m.wf)
    (hl : data.length = size) (hm : m.regionWrite r addr size data = .ok m') : m'.wf ∧ SameConfig m m' := by
  obtain ⟨name, -, rfl⟩ | ⟨-, rfl⟩ := regionWrite_cases hm
  · exact ⟨h, rfl, rfl, rfl⟩
  · refine ⟨⟨h.1, updateFirst_sorted h.2.1 (fun q _ _ => putBytes_start _ _ _)
      (fun q _ _ a _ hle => by rw [putBytes_stop]; exact hle), fun q hq => ?_⟩, rfl, rfl, rfl⟩
    rcases mem_updateFirst hq with hq | ⟨a, ham, ha, rfl⟩
    · exact h.2.2 q hq
    · exact putBytes_wf (h.2.2 a ham) (by rw [hl]; exact ha)

/-- What a write can do (R76, R77): a region's own write, or allocation and then a region's write. -/
theorem write_cases {m m' : Memory} {addr size : Nat} {data : List Byte} (hm : m.write addr size data = .ok m') :
    validSize size = true ∧ addr % size = 0 ∧ data.length = size ∧
    ((∃ r, m.findRegion addr size = some r ∧ m.regionWrite r addr size data = .ok m') ∨
      (m.findRegion addr size = none ∧ ∃ m1 r, m.allocate addr = .ok m1 ∧ m1.findRegion addr size = some r ∧
        m1.regionWrite r addr size data = .ok m')) := by
  unfold write at hm
  split at hm
  · cases hm
  · split at hm
    · cases hm
    · split at hm
      · cases hm
      · rename_i h1 h2 h3
        refine ⟨by simpa using h1, by omega, by omega, ?_⟩
        split at hm
        · exact .inl ⟨_, ‹_›, hm⟩
        · refine .inr ⟨‹_›, ?_⟩
          unfold allocateAndWrite at hm
          split at hm
          · cases hm
          · split at hm
            · exact ⟨_, _, ‹_›, ‹_›, hm⟩
            · cases hm

/-- A write keeps the invariants and the configuration (R65). -/
theorem write_wf {m m' : Memory} {addr size : Nat} {data : List Byte} (h : m.wf)
    (hm : m.write addr size data = .ok m') : m'.wf ∧ SameConfig m m' := by
  obtain ⟨-, -, hl, ⟨r, -, hw⟩ | ⟨-, m1, r, ha, -, hw⟩⟩ := write_cases hm
  · exact regionWrite_wf h hl hw
  · obtain ⟨h1, c1⟩ := allocate_wf h ha
    obtain ⟨h2, c2⟩ := regionWrite_wf h1 hl hw
    exact ⟨h2, c2.1.trans c1.1, c2.2.1.trans c1.2.1, c2.2.2.trans c1.2.2⟩

/-- What a read can do (R70): a copy of a NormalRegion's bytes and nothing else, or one device call. -/
theorem read_cases {m m' : Memory} {addr size : Nat} {bs : List Byte} (hm : m.read addr size = .ok (bs, m')) :
    validSize size = true ∧ addr % size = 0 ∧ ∃ r, m.findRegion addr size = some r ∧
      ((r.isNormal = true ∧ bs = cellsRead r.cells addr size ∧ m' = m) ∨
        (∃ name, r.backing = .mmio name ∧ bs = m.deviceAnswer name addr size ∧
          m' = (m.deviceRead name addr size).2)) := by
  unfold read at hm
  split at hm
  · cases hm
  · split at hm
    · cases hm
    · rename_i h1 h2
      refine ⟨by simpa using h1, by omega, ?_⟩
      split at hm
      · rename_i r hr
        refine ⟨r, hr, ?_⟩
        unfold regionRead at hm
        split at hm
        · split at hm
          · rename_i hb
            cases hm
            exact .inl ⟨by simp [Region.isNormal, hb], by simp [Region.cells, hb], rfl⟩
          · rename_i hb
            cases hm
            exact .inr ⟨_, hb, rfl, rfl⟩
        · cases hm
      · cases hm

/-- A read keeps the invariants, the configuration and every region (R70). -/
theorem read_wf {m m' : Memory} {addr size : Nat} {bs : List Byte} (h : m.wf)
    (hm : m.read addr size = .ok (bs, m')) : m'.wf ∧ SameConfig m m' ∧ m'.regions = m.regions := by
  obtain ⟨-, -, r, -, ⟨-, -, rfl⟩ | ⟨name, -, -, rfl⟩⟩ := read_cases hm
  · exact ⟨h, ⟨rfl, rfl, rfl⟩, rfl⟩
  · exact ⟨deviceRead_wf h name addr size, ⟨rfl, rfl, rfl⟩, rfl⟩

theorem read_length {m m' : Memory} {addr size : Nat} {bs : List Byte} (hm : m.read addr size = .ok (bs, m')) :
    bs.length = size := by
  obtain ⟨-, -, r, -, ⟨-, rfl, -⟩ | ⟨name, -, rfl, -⟩⟩ := read_cases hm
  · simp
  · simp [deviceAnswer]

/-- A constructed memory is well formed (R62, R65). -/
theorem construct_wf {ms mz g : Nat} {m : Memory} (h : construct ms mz g = .ok m) : m.wf ∧ m.granular := by
  unfold construct at h
  split at h
  · cases h
    exact ⟨⟨‹_›, List.Pairwise.nil, by simp⟩, by simp [granular]⟩
  · cases h

/-- The reset memory is well formed. -/
theorem reset_wf : State.reset.mem.wf := by
  refine ⟨by decide, List.Pairwise.nil, by simp [State.reset]⟩

end Memory

end Sys2Proof.Machine
end

