-- ==== Sys2Proof/Laws/Ops.lean ====
section
/-! SUPPORT. What each shared operation, each instruction and a step can do, said once (spec/40_core_step.md rules R180 to
R192). -/

namespace Sys2Proof.Machine

/-! ### Memory through the state -/

theorem memRead_ok {s t : State} {a n : Nat} {bs : List Byte} (h : memRead s a n = .ok (bs, t)) :
    ∃ m, s.mem.read a n = .ok (bs, m) ∧ t = s.withMem m := by
  unfold memRead at h
  split at h
  · cases h; exact ⟨_, ‹_›, rfl⟩
  · cases h

theorem memWrite_ok {s t : State} {a n : Nat} {bs : List Byte} (h : memWrite s a n bs = .ok t) :
    ∃ m, s.mem.write a n bs = .ok m ∧ t = s.withMem m := by
  unfold memWrite at h
  split at h
  · cases h; exact ⟨_, ‹_›, rfl⟩
  · cases h

@[simp] theorem memRead_of_read_ok {s : State} {a n : Nat} {bs : List Byte} {m : Memory}
    (h : s.mem.read a n = .ok (bs, m)) : memRead s a n = .ok (bs, s.withMem m) := by simp [memRead, h]

@[simp] theorem memRead_of_read_error {s : State} {a n : Nat} {e : MemError} (h : s.mem.read a n = .error e) :
    memRead s a n = .error e := by simp [memRead, h]

@[simp] theorem memWrite_of_write_ok {s : State} {a n : Nat} {bs : List Byte} {m : Memory}
    (h : s.mem.write a n bs = .ok m) : memWrite s a n bs = .ok (s.withMem m) := by simp [memWrite, h]

@[simp] theorem memWrite_of_write_error {s : State} {a n : Nat} {bs : List Byte} {e : MemError}
    (h : s.mem.write a n bs = .error e) : memWrite s a n bs = .error e := by simp [memWrite, h]

/-! ### What a meaning can answer -/

/-- The shapes of an instruction's answer on a state. -/
inductive Answer (s : State) : Result → Prop where
  /-- One register written (none when `rd` is x0), no memory access, the next PC. -/
  | register (rd : Reg) (v npc : Word) : Answer s (.next ((s.setX rd v).retire npc))
  /-- A completed load: one `Memory.read`, the value in one register, the PC advanced. -/
  | loaded (a n : Nat) (bs : List Byte) (m : Memory) (rd : Reg) (v : Word) (h : s.mem.read a n = .ok (bs, m)) :
      Answer s (.next (((s.withMem m).setX rd v).retire (nextPc s)))
  /-- A completed store: one `Memory.write`, the PC advanced. -/
  | stored (a n : Nat) (bs : List Byte) (m : Memory) (h : s.mem.write a n bs = .ok m) :
      Answer s (.next ((s.withMem m).retire (nextPc s)))
  /-- An architectural event: the state unchanged but for the reported outcome. -/
  | event (o : StepOutcome) (h : o ≠ .retired) : Answer s (.next (s.report o))
  /-- An emulator error, the state unchanged. -/
  | error (e : MemError) (a n : Nat) : Answer s (.fault (faultOf e a n s))

theorem writeAndAdvance_answer (s : State) (rd : Reg) (v : Word) : Answer s (writeAndAdvance s rd v) :=
  .register rd v _

theorem branchIf_answer (s : State) (c : Bool) (imm : Word) : Answer s (branchIf s c imm) := .register 0 0 _

theorem raise_answer (s : State) {o : StepOutcome} (h : o ≠ .retired) : Answer s (raise s o) := .event o h

theorem load_answer (s : State) (n : Nat) (signed : Bool) (rd rs1 : Reg) (imm : Word) :
    Answer s (load s n signed rd rs1 imm) := by
  unfold load
  dsimp only
  split
  · exact raise_answer s (by simp)
  · split
    · exact .error _ _ _
    · obtain ⟨m, hm, rfl⟩ := memRead_ok ‹_›
      exact .loaded _ _ _ m rd _ hm

theorem store_answer (s : State) (n : Nat) (rs2 rs1 : Reg) (imm : Word) : Answer s (store s n rs2 rs1 imm) := by
  unfold store
  dsimp only
  split
  · exact raise_answer s (by simp)
  · split
    · exact .error _ _ _
    · obtain ⟨m, hm, rfl⟩ := memWrite_ok ‹_›
      exact .stored _ _ _ m hm

/-- Every instruction's answer has one of the shapes (R33, R40: an instruction writes at most its `rd`, the PC and
memory). -/
theorem exec_answer (i : Instr) (s : State) : Answer s (exec i s) := by
  cases i with
  | jal rd imm => exact .register rd _ _
  | jalr rd rs1 imm => exact .register rd _ _
  | fence => exact .register 0 0 _
  | ecall => exact raise_answer s (by simp)
  | ebreak => exact raise_answer s (by simp)
  | lb | lh | lw | lbu | lhu | lwu => exact load_answer s _ _ _ _ _
  | sb | sh | sw | sbF4 | shF5 | swF6 => exact store_answer s _ _ _ _
  | beq | bne | blt | bge | bltu | bgeu => exact branchIf_answer s _ _
  | _ => exact writeAndAdvance_answer s _ _

/-! ### Fetch and step -/

/-- What a step can do: the PC is misaligned; the fetch fails; or four bytes are read, and the word is illegal or the
instruction it decodes to runs on the state the fetch leaves. -/
theorem step_cases (s : State) :
    (aligned s.pc 4 = false ∧ step s = raiseMisaligned s .fetch s.pc 4) ∨
    (aligned s.pc 4 = true ∧ ∃ e, s.mem.read s.pc.toNat 4 = .error e ∧
      step s = .fault (faultOf e s.pc.toNat 4 s)) ∨
    (aligned s.pc 4 = true ∧ ∃ bs m, s.mem.read s.pc.toNat 4 = .ok (bs, m) ∧
      ((∃ d, decodeInstr s.endian s.pc bs = .error d ∧
          step s = raiseIllegal (s.withMem m) (wordOf s.endian bs)) ∨
        (∃ i, decodeInstr s.endian s.pc bs = .ok i ∧ step s = exec i (s.withMem m)))) := by
  unfold step fetch
  by_cases ha : aligned s.pc 4 = false
  · simp [ha]
  · have ha' : aligned s.pc 4 = true := by simpa using ha
    simp only [ha', Bool.true_eq_false, if_false, addrOf_eq, true_and, false_and, false_or]
    cases hr : s.mem.read s.pc.toNat 4 with
    | error e => exact .inl ⟨e, rfl, by simp [hr]⟩
    | ok p =>
      obtain ⟨bs, m⟩ := p
      refine .inr ⟨bs, m, rfl, ?_⟩
      simp only [memRead_of_read_ok hr]
      cases hd : decodeInstr s.endian s.pc bs with
      | error d => exact .inl ⟨d, rfl, rfl⟩
      | ok i => exact .inr ⟨i, rfl, rfl⟩

/-- The buffer of a fetch is four bytes, so its decoding is its word's (R190: no `DecoderError` from a step). -/
theorem decodeInstr_eq_decodeWord (e : Endian) (pc : Word) {buf : List Byte} (h : buf.length = 4) :
    decodeInstr e pc buf = decodeWord (wordOf e buf) := by
  unfold decodeInstr decodeRecord decodeWord
  rw [if_neg (by omega)]
  by_cases hl : (wordOf e buf).extractLsb' 0 2 ≠ 0b11#2
  · rw [if_pos hl, if_pos hl]
  · rw [if_neg hl, if_neg hl]
    rfl

end Sys2Proof.Machine
end

