-- ==== Sys2Proof/Laws/PerInstr.lean ====
section
/-! SUPPORT. The family `TableRow`: the word the encoder gives an instruction matches that instruction's row of
spec/opcode_table.json (word AND mask = match), the rows written out here from the table. -/

namespace Sys2Proof.Laws

open Sys2Proof

/-- The mask of the rows that fix the opcode and funct3. -/
def maskF3 : Word := 0x0000707F#32
/-- The mask of the rows that fix the opcode alone. -/
def maskOpc : Word := 0x0000007F#32
/-- The mask of the rows that fix the opcode, funct3 and funct7. -/
def maskF7 : Word := 0xFE00707F#32
/-- The mask of the rows that fix every bit. -/
def maskAll : Word := 0xFFFFFFFF#32

/-- The (match, mask) of an instruction's row in spec/opcode_table.json. -/
def tableRow : Instr → Word × Word
  | .lui _ _ => (0x00000037#32, maskOpc)
  | .auipc _ _ => (0x00000017#32, maskOpc)
  | .jal _ _ => (0x0000006F#32, maskOpc)
  | .jalr _ _ _ => (0x00000067#32, maskF3)
  | .beq _ _ _ => (0x00000063#32, maskF3)
  | .bne _ _ _ => (0x00001063#32, maskF3)
  | .blt _ _ _ => (0x00004063#32, maskF3)
  | .bge _ _ _ => (0x00005063#32, maskF3)
  | .bltu _ _ _ => (0x00006063#32, maskF3)
  | .bgeu _ _ _ => (0x00007063#32, maskF3)
  | .lb _ _ _ => (0x00000003#32, maskF3)
  | .lh _ _ _ => (0x00001003#32, maskF3)
  | .lw _ _ _ => (0x00002003#32, maskF3)
  | .lbu _ _ _ => (0x00004003#32, maskF3)
  | .lhu _ _ _ => (0x00005003#32, maskF3)
  | .lwu _ _ _ => (0x00006003#32, maskF3)
  | .sb _ _ _ => (0x00000023#32, maskF3)
  | .sh _ _ _ => (0x00001023#32, maskF3)
  | .sw _ _ _ => (0x00002023#32, maskF3)
  | .sbF4 _ _ _ => (0x00004023#32, maskF3)
  | .shF5 _ _ _ => (0x00005023#32, maskF3)
  | .swF6 _ _ _ => (0x00006023#32, maskF3)
  | .addi _ _ _ => (0x00000013#32, maskF3)
  | .slti _ _ _ => (0x00002013#32, maskF3)
  | .sltiu _ _ _ => (0x00003013#32, maskF3)
  | .xori _ _ _ => (0x00004013#32, maskF3)
  | .ori _ _ _ => (0x00006013#32, maskF3)
  | .andi _ _ _ => (0x00007013#32, maskF3)
  | .slli _ _ _ => (0x00001013#32, maskF7)
  | .srli _ _ _ => (0x00005013#32, maskF7)
  | .srai _ _ _ => (0x40005013#32, maskF7)
  | .add _ _ _ => (0x00000033#32, maskF7)
  | .sub _ _ _ => (0x40000033#32, maskF7)
  | .sll _ _ _ => (0x00001033#32, maskF7)
  | .slt _ _ _ => (0x00002033#32, maskF7)
  | .sltu _ _ _ => (0x00003033#32, maskF7)
  | .xor _ _ _ => (0x00004033#32, maskF7)
  | .srl _ _ _ => (0x00005033#32, maskF7)
  | .sra _ _ _ => (0x40005033#32, maskF7)
  | .or _ _ _ => (0x00006033#32, maskF7)
  | .and _ _ _ => (0x00007033#32, maskF7)
  | .fence _ _ _ _ _ => (0x0000000F#32, maskF3)
  | .ecall => (0x00000073#32, maskAll)
  | .ebreak => (0x00100073#32, maskAll)

/-! ### The formats' fixed bits -/

theorem encI_and_maskF3 (imm : Word) (rs1 : Reg) (f3 : BitVec 3) (rd : Reg) (opc : BitVec 5) :
    encI imm rs1 f3 rd opc &&& maskF3 = 0#17 ++ f3 ++ 0#5 ++ opcode opc := by
  apply BitVec.eq_of_getLsbD_eq
  intro i hi
  simp only [encI, maskF3, BitVec.getLsbD_and, BitVec.getLsbD_append]
  interval_cases i <;> simp

theorem encS_and_maskF3 (imm : Word) (rs2 rs1 : Reg) (f3 : BitVec 3) (opc : BitVec 5) :
    encS imm rs2 rs1 f3 opc &&& maskF3 = 0#17 ++ f3 ++ 0#5 ++ opcode opc := by
  apply BitVec.eq_of_getLsbD_eq
  intro i hi
  simp only [encS, maskF3, BitVec.getLsbD_and, BitVec.getLsbD_append]
  interval_cases i <;> simp

theorem encB_and_maskF3 (imm : Word) (rs2 rs1 : Reg) (f3 : BitVec 3) (opc : BitVec 5) :
    encB imm rs2 rs1 f3 opc &&& maskF3 = 0#17 ++ f3 ++ 0#5 ++ opcode opc := by
  apply BitVec.eq_of_getLsbD_eq
  intro i hi
  simp only [encB, maskF3, BitVec.getLsbD_and, BitVec.getLsbD_append]
  interval_cases i <;> simp

theorem encR_and_maskF7 (f7 : BitVec 7) (rs2 rs1 : Reg) (f3 : BitVec 3) (rd : Reg) (opc : BitVec 5) :
    encR f7 rs2 rs1 f3 rd opc &&& maskF7 = f7 ++ 0#10 ++ f3 ++ 0#5 ++ opcode opc := by
  apply BitVec.eq_of_getLsbD_eq
  intro i hi
  simp only [encR, maskF7, BitVec.getLsbD_and, BitVec.getLsbD_append]
  interval_cases i <;> simp

theorem encU_and_maskOpc (imm : Word) (rd : Reg) (opc : BitVec 5) :
    encU imm rd opc &&& maskOpc = 0#25 ++ opcode opc := by
  apply BitVec.eq_of_getLsbD_eq
  intro i hi
  simp only [encU, maskOpc, BitVec.getLsbD_and, BitVec.getLsbD_append]
  interval_cases i <;> simp

theorem encJ_and_maskOpc (imm : Word) (rd : Reg) (opc : BitVec 5) :
    encJ imm rd opc &&& maskOpc = 0#25 ++ opcode opc := by
  apply BitVec.eq_of_getLsbD_eq
  intro i hi
  simp only [encJ, maskOpc, BitVec.getLsbD_and, BitVec.getLsbD_append]
  interval_cases i <;> simp

theorem encFence_and_maskF3 (fm pred succ : BitVec 4) (rs1 rd : Reg) :
    encFence fm pred succ rs1 rd &&& maskF3 = 0#17 ++ 0#3 ++ 0#5 ++ opcode opcMiscMem := by
  apply BitVec.eq_of_getLsbD_eq
  intro i hi
  simp only [encFence, maskF3, BitVec.getLsbD_and, BitVec.getLsbD_append]
  interval_cases i <;> simp

end Sys2Proof.Laws

namespace Sys2Proof.Laws.TableRow

open Sys2Proof

/-- The encoder's word for the instruction matches the instruction's row of the opcode table. -/
def Statement (i : Instr) : Prop := encode i &&& (tableRow i).2 = (tableRow i).1

theorem lui (rd : Reg) (imm : Word) : Statement (.lui rd imm) :=
  (encU_and_maskOpc _ _ _).trans rfl
theorem auipc (rd : Reg) (imm : Word) : Statement (.auipc rd imm) :=
  (encU_and_maskOpc _ _ _).trans rfl
theorem jal (rd : Reg) (imm : Word) : Statement (.jal rd imm) :=
  (encJ_and_maskOpc _ _ _).trans rfl
theorem jalr (rd : Reg) (rs1 : Reg) (imm : Word) : Statement (.jalr rd rs1 imm) :=
  (encI_and_maskF3 _ _ _ _ _).trans rfl
theorem beq (rs1 : Reg) (rs2 : Reg) (imm : Word) : Statement (.beq rs1 rs2 imm) :=
  (encB_and_maskF3 _ _ _ _ _).trans rfl
theorem bne (rs1 : Reg) (rs2 : Reg) (imm : Word) : Statement (.bne rs1 rs2 imm) :=
  (encB_and_maskF3 _ _ _ _ _).trans rfl
theorem blt (rs1 : Reg) (rs2 : Reg) (imm : Word) : Statement (.blt rs1 rs2 imm) :=
  (encB_and_maskF3 _ _ _ _ _).trans rfl
theorem bge (rs1 : Reg) (rs2 : Reg) (imm : Word) : Statement (.bge rs1 rs2 imm) :=
  (encB_and_maskF3 _ _ _ _ _).trans rfl
theorem bltu (rs1 : Reg) (rs2 : Reg) (imm : Word) : Statement (.bltu rs1 rs2 imm) :=
  (encB_and_maskF3 _ _ _ _ _).trans rfl
theorem bgeu (rs1 : Reg) (rs2 : Reg) (imm : Word) : Statement (.bgeu rs1 rs2 imm) :=
  (encB_and_maskF3 _ _ _ _ _).trans rfl
theorem lb (rd : Reg) (rs1 : Reg) (imm : Word) : Statement (.lb rd rs1 imm) :=
  (encI_and_maskF3 _ _ _ _ _).trans rfl
theorem lh (rd : Reg) (rs1 : Reg) (imm : Word) : Statement (.lh rd rs1 imm) :=
  (encI_and_maskF3 _ _ _ _ _).trans rfl
theorem lw (rd : Reg) (rs1 : Reg) (imm : Word) : Statement (.lw rd rs1 imm) :=
  (encI_and_maskF3 _ _ _ _ _).trans rfl
theorem lbu (rd : Reg) (rs1 : Reg) (imm : Word) : Statement (.lbu rd rs1 imm) :=
  (encI_and_maskF3 _ _ _ _ _).trans rfl
theorem lhu (rd : Reg) (rs1 : Reg) (imm : Word) : Statement (.lhu rd rs1 imm) :=
  (encI_and_maskF3 _ _ _ _ _).trans rfl
theorem lwu (rd : Reg) (rs1 : Reg) (imm : Word) : Statement (.lwu rd rs1 imm) :=
  (encI_and_maskF3 _ _ _ _ _).trans rfl
theorem sb (rs2 : Reg) (rs1 : Reg) (imm : Word) : Statement (.sb rs2 rs1 imm) :=
  (encS_and_maskF3 _ _ _ _ _).trans rfl
theorem sh (rs2 : Reg) (rs1 : Reg) (imm : Word) : Statement (.sh rs2 rs1 imm) :=
  (encS_and_maskF3 _ _ _ _ _).trans rfl
theorem sw (rs2 : Reg) (rs1 : Reg) (imm : Word) : Statement (.sw rs2 rs1 imm) :=
  (encS_and_maskF3 _ _ _ _ _).trans rfl
theorem sbF4 (rs2 : Reg) (rs1 : Reg) (imm : Word) : Statement (.sbF4 rs2 rs1 imm) :=
  (encS_and_maskF3 _ _ _ _ _).trans rfl
theorem shF5 (rs2 : Reg) (rs1 : Reg) (imm : Word) : Statement (.shF5 rs2 rs1 imm) :=
  (encS_and_maskF3 _ _ _ _ _).trans rfl
theorem swF6 (rs2 : Reg) (rs1 : Reg) (imm : Word) : Statement (.swF6 rs2 rs1 imm) :=
  (encS_and_maskF3 _ _ _ _ _).trans rfl
theorem addi (rd : Reg) (rs1 : Reg) (imm : Word) : Statement (.addi rd rs1 imm) :=
  (encI_and_maskF3 _ _ _ _ _).trans rfl
theorem slti (rd : Reg) (rs1 : Reg) (imm : Word) : Statement (.slti rd rs1 imm) :=
  (encI_and_maskF3 _ _ _ _ _).trans rfl
theorem sltiu (rd : Reg) (rs1 : Reg) (imm : Word) : Statement (.sltiu rd rs1 imm) :=
  (encI_and_maskF3 _ _ _ _ _).trans rfl
theorem xori (rd : Reg) (rs1 : Reg) (imm : Word) : Statement (.xori rd rs1 imm) :=
  (encI_and_maskF3 _ _ _ _ _).trans rfl
theorem ori (rd : Reg) (rs1 : Reg) (imm : Word) : Statement (.ori rd rs1 imm) :=
  (encI_and_maskF3 _ _ _ _ _).trans rfl
theorem andi (rd : Reg) (rs1 : Reg) (imm : Word) : Statement (.andi rd rs1 imm) :=
  (encI_and_maskF3 _ _ _ _ _).trans rfl
theorem slli (rd : Reg) (rs1 : Reg) (shamt : Fin 32) : Statement (.slli rd rs1 shamt) :=
  (encR_and_maskF7 _ _ _ _ _ _).trans rfl
theorem srli (rd : Reg) (rs1 : Reg) (shamt : Fin 32) : Statement (.srli rd rs1 shamt) :=
  (encR_and_maskF7 _ _ _ _ _ _).trans rfl
theorem srai (rd : Reg) (rs1 : Reg) (shamt : Fin 32) : Statement (.srai rd rs1 shamt) :=
  (encR_and_maskF7 _ _ _ _ _ _).trans rfl
theorem add (rd : Reg) (rs1 : Reg) (rs2 : Reg) : Statement (.add rd rs1 rs2) :=
  (encR_and_maskF7 _ _ _ _ _ _).trans rfl
theorem sub (rd : Reg) (rs1 : Reg) (rs2 : Reg) : Statement (.sub rd rs1 rs2) :=
  (encR_and_maskF7 _ _ _ _ _ _).trans rfl
theorem sll (rd : Reg) (rs1 : Reg) (rs2 : Reg) : Statement (.sll rd rs1 rs2) :=
  (encR_and_maskF7 _ _ _ _ _ _).trans rfl
theorem slt (rd : Reg) (rs1 : Reg) (rs2 : Reg) : Statement (.slt rd rs1 rs2) :=
  (encR_and_maskF7 _ _ _ _ _ _).trans rfl
theorem sltu (rd : Reg) (rs1 : Reg) (rs2 : Reg) : Statement (.sltu rd rs1 rs2) :=
  (encR_and_maskF7 _ _ _ _ _ _).trans rfl
theorem xor (rd : Reg) (rs1 : Reg) (rs2 : Reg) : Statement (.xor rd rs1 rs2) :=
  (encR_and_maskF7 _ _ _ _ _ _).trans rfl
theorem srl (rd : Reg) (rs1 : Reg) (rs2 : Reg) : Statement (.srl rd rs1 rs2) :=
  (encR_and_maskF7 _ _ _ _ _ _).trans rfl
theorem sra (rd : Reg) (rs1 : Reg) (rs2 : Reg) : Statement (.sra rd rs1 rs2) :=
  (encR_and_maskF7 _ _ _ _ _ _).trans rfl
theorem or (rd : Reg) (rs1 : Reg) (rs2 : Reg) : Statement (.or rd rs1 rs2) :=
  (encR_and_maskF7 _ _ _ _ _ _).trans rfl
theorem and (rd : Reg) (rs1 : Reg) (rs2 : Reg) : Statement (.and rd rs1 rs2) :=
  (encR_and_maskF7 _ _ _ _ _ _).trans rfl
theorem fence (fm : BitVec 4) (pred : BitVec 4) (succ : BitVec 4) (rs1 : Reg) (rd : Reg) : Statement (.fence fm pred succ rs1 rd) :=
  (encFence_and_maskF3 _ _ _ _ _).trans rfl
theorem ecall : Statement (.ecall) :=
  rfl
theorem ebreak : Statement (.ebreak) :=
  rfl

end Sys2Proof.Laws.TableRow
end

