-- ==== Sys2Proof/Machine/Pseudo.lean ====
section
/-! DEFINITION. Pseudo-instructions (spec/30_encoding.md rule R157): "none is a hardware concept and each is executed as its
expansion". The table as data, a sequence of instructions run one after the other, and the CSR accesses that other
pseudo-instructions expand to, which are illegal encodings here (R154, R334). -/

namespace Sys2Proof.Machine

/-- The rows of R157's table. A target `t` or a symbol is given as its offset from the pseudo-instruction's own address
(R156: the assembler computes the PC-relative offset). -/
inductive Pseudo where
  | nop
  | li (rd : Reg) (imm : Word)
  | mv (rd rs : Reg)
  | not (rd rs : Reg)
  | neg (rd rs : Reg)
  | seqz (rd rs : Reg)
  | snez (rd rs : Reg)
  | sltz (rd rs : Reg)
  | sgtz (rd rs : Reg)
  | beqz (rs : Reg) (off : Word)
  | bnez (rs : Reg) (off : Word)
  | blez (rs : Reg) (off : Word)
  | bgez (rs : Reg) (off : Word)
  | bltz (rs : Reg) (off : Word)
  | bgtz (rs : Reg) (off : Word)
  | bgt (rs rt : Reg) (off : Word)
  | ble (rs rt : Reg) (off : Word)
  | bgtu (rs rt : Reg) (off : Word)
  | bleu (rs rt : Reg) (off : Word)
  | j (off : Word)
  | jal (off : Word)
  | jr (rs : Reg)
  | jalr (rs : Reg)
  | ret
  | call (off : Word)
  | tail (off : Word)
  | la (rd : Reg) (off : Word)
  | fence
deriving DecidableEq, Repr

/-- `lo12 = sext(imm[11:0])` (R157). -/
def lo12 (imm : Word) : Word := (imm.extractLsb' 0 12).signExtend 32

/-- `hi20 = (imm − lo12)[31:12]` (R157), as the immediate `imm_u` of LUI and AUIPC, the 20 bits followed by 12 zeros
(R148). -/
def hi20 (imm : Word) : Word := (imm - lo12 imm).extractLsb' 12 20 ++ 0#12

namespace Pseudo

/-- The expansion of each row of R157's table. The `hi20` and `lo12` of `call`, `tail` and `la` split the offset from their
AUIPC as those of `li` split its immediate (log entry 18). -/
def expand : Pseudo → List Instr
  | .nop => [.addi 0 0 0#32]
  | .li rd imm => if fitsImm12 imm then [.addi rd 0 imm] else [.lui rd (hi20 imm), .addi rd rd (lo12 imm)]
  | .mv rd rs => [.addi rd rs 0#32]
  | .not rd rs => [.xori rd rs (-1#32)]
  | .neg rd rs => [.sub rd 0 rs]
  | .seqz rd rs => [.sltiu rd rs 1#32]
  | .snez rd rs => [.sltu rd 0 rs]
  | .sltz rd rs => [.slt rd rs 0]
  | .sgtz rd rs => [.slt rd 0 rs]
  | .beqz rs off => [.beq rs 0 off]
  | .bnez rs off => [.bne rs 0 off]
  | .blez rs off => [.bge 0 rs off]
  | .bgez rs off => [.bge rs 0 off]
  | .bltz rs off => [.blt rs 0 off]
  | .bgtz rs off => [.blt 0 rs off]
  | .bgt rs rt off => [.blt rt rs off]
  | .ble rs rt off => [.bge rt rs off]
  | .bgtu rs rt off => [.bltu rt rs off]
  | .bleu rs rt off => [.bgeu rt rs off]
  | .j off => [.jal 0 off]
  | .jal off => [.jal 1 off]
  | .jr rs => [.jalr 0 rs 0#32]
  | .jalr rs => [.jalr 1 rs 0#32]
  | .ret => [.jalr 0 1 0#32]
  | .call off => [.auipc 1 (hi20 off), .jalr 1 1 (lo12 off)]
  | .tail off => [.auipc 6 (hi20 off), .jalr 0 6 (lo12 off)]
  | .la rd off => [.auipc rd (hi20 off), .addi rd rd (lo12 off)]
  | .fence => [.fence 0b0000#4 0b1111#4 0b1111#4 0 0]

/-- The offset is one the expansion's branch or jump can encode (R147, R149). -/
def encodable : Pseudo → Bool
  | .beqz _ off | .bnez _ off | .blez _ off | .bgez _ off | .bltz _ off | .bgtz _ off
  | .bgt _ _ off | .ble _ _ off | .bgtu _ _ off | .bleu _ _ off => fitsImmB off
  | .j off | .jal off => fitsImmJ off
  | .nop | .li _ _ | .mv _ _ | .not _ _ | .neg _ _ | .seqz _ _ | .snez _ _ | .sltz _ _ | .sgtz _ _
  | .jr _ | .jalr _ | .ret | .call _ | .tail _ | .la _ _ | .fence => true

/-- The instruction words the pseudo-instruction stands for. -/
def words (p : Pseudo) : List Word := p.expand.map encode

end Pseudo

/-- Instructions run one after the other, each on the state the one before left, while they retire. -/
def execAll : List Instr → State → Result
  | [], s => .next s
  | i :: is, s =>
    match exec i s with
    | .next t => if t.outcome = some .retired then execAll is t else .next t
    | .fault f => .fault f
    | .refused r => .refused r

/-- A pseudo-instruction executed as its expansion (R157). -/
def execPseudo (p : Pseudo) (s : State) : Result := execAll p.expand s

/-! ### CSR accesses -/

/-- A word of major opcode SYSTEM with funct3 other than `000`: every CSR access (R154, R334). -/
def isCsrAccess (w : Word) : Bool := w.extractLsb' 0 7 == 0b1110011#7 && w.extractLsb' 12 3 != 0b000#3

/-- The word of a CSR access, in the I format's places: the CSR number where `imm_i` stands, the source register (or its
5-bit immediate), funct3, and `rd` (R334: `csrrs x5, cycle, x0` = `0xC00022F3`). -/
def csrAccessWord (csr : BitVec 12) (src : Reg) (f3 : BitVec 3) (rd : Reg) : Word :=
  encI (csr.setWidth 32) src f3 rd opcSystem

/-- What `csrr rd, csr` expands to, `csrrs rd, csr, x0`; `rdcycle`, `rdtime` and `rdinstret` are this word for their own
counters (R157, R334). -/
def csrReadWord (csr : BitVec 12) (rd : Reg) : Word := csrAccessWord csr 0 0b010#3 rd

end Sys2Proof.Machine
end

