-- ==== Sys2Proof/Laws/Pseudo.lean ====
section
/-! SUPPORT. What the pseudo-instructions of spec/30_encoding.md rule R157 do, and that every CSR access is an illegal word
whose step reports it (R154, R334). -/

namespace Sys2Proof.Machine

/-! ### The two parts of a 32-bit value -/

theorem lo12_toNat_mod (v : Word) : (lo12 v).toNat % 4096 = v.toNat % 4096 := by
  simp only [lo12, BitVec.toNat_signExtend, BitVec.toNat_setWidth, BitVec.extractLsb'_toNat]
  split <;> omega

theorem hi20_toNat (v : Word) : (hi20 v).toNat = (v - lo12 v).toNat / 4096 % 2 ^ 20 * 4096 := by
  show ((v - lo12 v).extractLsb' 12 20 ++ 0#12).toNat = _
  rw [BitVec.toNat_append, BitVec.extractLsb'_toNat]
  simp [Nat.shiftRight_eq_div_pow, Nat.shiftLeft_eq]

theorem hi20_eq (v : Word) : hi20 v = v - lo12 v := by
  apply BitVec.eq_of_toNat_eq
  have h12 := lo12_toNat_mod v
  have hv := v.isLt
  have hl := (lo12 v).isLt
  rw [hi20_toNat, BitVec.toNat_sub]
  omega

/-- The two parts of a value add up to it (R157's `lui` and `addi`). -/
@[simp] theorem hi20_add_lo12 (v : Word) : hi20 v + lo12 v = v := by
  rw [hi20_eq, BitVec.sub_add_cancel]

theorem fitsImm12_lo12 (v : Word) : fitsImm12 (lo12 v) = true := by
  simp only [fitsImm12, lo12, beq_iff_eq]
  congr 1
  apply BitVec.eq_of_toNat_eq
  rw [BitVec.extractLsb'_toNat, BitVec.extractLsb'_toNat]
  exact (lo12_toNat_mod v).symm

theorem fitsImmU_hi20 (v : Word) : fitsImmU (hi20 v) = true := by
  rw [fitsImmU, beq_iff_eq]
  apply BitVec.eq_of_toNat_eq
  rw [BitVec.extractLsb'_toNat, hi20_toNat]
  simp

/-! ### Expansions -/

/-- Every instruction of an encodable pseudo-instruction's expansion is well formed, so it has a word (R154). -/
theorem Pseudo.expand_wellFormed (p : Pseudo) (h : p.encodable = true) : ∀ i ∈ p.expand, i.wellFormed = true := by
  intro i hi
  cases p with
  | li rd imm =>
    simp only [Pseudo.expand] at hi
    split at hi
    · simp only [List.mem_singleton] at hi; subst hi; assumption
    · simp only [List.mem_cons, List.not_mem_nil, or_false] at hi
      rcases hi with rfl | rfl
      · exact fitsImmU_hi20 imm
      · exact fitsImm12_lo12 imm
  | call off | tail off | la rd off =>
    simp only [Pseudo.expand, List.mem_cons, List.not_mem_nil, or_false] at hi
    rcases hi with rfl | rfl
    · exact fitsImmU_hi20 off
    · exact fitsImm12_lo12 off
  | _ =>
    simp only [Pseudo.expand, List.mem_singleton] at hi
    subst hi
    exact h

/-- The state after two completed register instructions in a row that write the same register. -/
theorem registerWritten_trans {s t u : State} {rd : Reg} {v w p q : Word} (h : RegisterWritten s t rd v p)
    (k : RegisterWritten t u rd w q) : RegisterWritten s u rd w q where
  value := k.value
  zero := k.zero
  others r hr := (k.others r hr).trans (h.others r hr)
  pc := k.pc
  endian := k.endian.trans h.endian
  slotZero := k.slotZero.trans h.slotZero

theorem registerWritten_retire (s : State) (rd : Reg) (v npc : Word) :
    RegisterWritten s ((s.setX rd v).retire npc) rd v npc where
  value h := by simp [State.setX_x_same _ _ h]
  zero := by simp
  others r h := by simp [State.setX_x_ne _ _ h]
  pc := by simp
  endian := by simp
  slotZero := by simp [State.slot_zero_setX]

/-- `li rd, imm` leaves `imm` in `rd`, whatever `imm` is, and goes past its one or two instructions. -/
theorem execPseudo_li (s : State) (rd : Reg) (imm : Word) :
    ∃ t, execPseudo (.li rd imm) s = .next t ∧
      RegisterWritten s t rd imm (s.pc + if fitsImm12 imm then 4#32 else 8#32) ∧ t.mem = s.mem := by
  unfold execPseudo Pseudo.expand
  by_cases hf : fitsImm12 imm = true
  · refine ⟨(s.setX rd imm).retire (s.pc + 4#32), ?_, ?_, by simp⟩
    · simp [hf, execAll, exec, execAddi, writeAndAdvance, nextPc]
    · simpa [hf] using registerWritten_retire s rd imm (s.pc + 4#32)
  · have h1 := registerWritten_retire s rd (hi20 imm) (s.pc + 4#32)
    generalize hm : (s.setX rd (hi20 imm)).retire (s.pc + 4#32) = m at h1
    refine ⟨(m.setX rd (m.x rd + lo12 imm)).retire (nextPc m), ?_, ?_, ?_⟩
    · subst hm
      simp [hf, execAll, exec, execLui, execAddi, writeAndAdvance, nextPc]
    · have h2 := registerWritten_trans h1 (registerWritten_retire m rd (m.x rd + lo12 imm) (nextPc m))
      refine { h2 with value := fun h => ?_, pc := ?_ }
      · rw [h2.value h, h1.value h, hi20_add_lo12]
      · rw [h2.pc, nextPc, h1.pc, if_neg hf, BitVec.add_assoc]; rfl
    · subst hm; simp

/-- `la rd, sym` leaves the symbol's address, the offset from its own address, in `rd`. -/
theorem execPseudo_la (s : State) (rd : Reg) (off : Word) :
    ∃ t, execPseudo (.la rd off) s = .next t ∧ RegisterWritten s t rd (s.pc + off) (s.pc + 8#32) ∧ t.mem = s.mem := by
  have h1 := registerWritten_retire s rd (s.pc + hi20 off) (s.pc + 4#32)
  generalize hm : (s.setX rd (s.pc + hi20 off)).retire (s.pc + 4#32) = m at h1
  refine ⟨(m.setX rd (m.x rd + lo12 off)).retire (nextPc m), ?_, ?_, ?_⟩
  · subst hm
    simp [execPseudo, Pseudo.expand, execAll, exec, execAuipc, execAddi, writeAndAdvance, nextPc]
  · have h2 := registerWritten_trans h1 (registerWritten_retire m rd (m.x rd + lo12 off) (nextPc m))
    refine { h2 with value := fun h => ?_, pc := ?_ }
    · rw [h2.value h, h1.value h, BitVec.add_assoc, hi20_add_lo12]
    · rw [h2.pc, nextPc, h1.pc, BitVec.add_assoc]; rfl
  · subst hm; simp

/-- `call t` links the address after its second instruction into x1 and goes to `t`, bit 0 cleared as JALR clears it. -/
theorem execPseudo_call (s : State) (off : Word) :
    ∃ t, execPseudo (.call off) s = .next t ∧ RegisterWritten s t 1 (s.pc + 8#32) ((s.pc + off) &&& ~~~1#32) ∧
      t.mem = s.mem := by
  have h1 := registerWritten_retire s 1 (s.pc + hi20 off) (s.pc + 4#32)
  generalize hm : (s.setX 1 (s.pc + hi20 off)).retire (s.pc + 4#32) = m at h1
  refine ⟨(m.setX 1 (nextPc m)).retire (jalrTarget m 1 (lo12 off)), ?_, ?_, ?_⟩
  · subst hm
    simp [execPseudo, Pseudo.expand, execAll, exec, execAuipc, execJalr, writeAndAdvance, nextPc]
  · have h2 := registerWritten_trans h1 (registerWritten_retire m 1 (nextPc m) (jalrTarget m 1 (lo12 off)))
    refine { h2 with value := fun h => ?_, pc := ?_ }
    · rw [h2.value h, nextPc, h1.pc, BitVec.add_assoc]; rfl
    · rw [h2.pc, jalrTarget, h1.value (by decide), BitVec.add_assoc, hi20_add_lo12]
  · subst hm; simp

/-- `tail t` goes to `t`, bit 0 cleared, links nothing and leaves only x6 changed. -/
theorem execPseudo_tail (s : State) (off : Word) :
    ∃ t, execPseudo (.tail off) s = .next t ∧
      RegisterWritten s t 6 (s.pc + hi20 off) ((s.pc + off) &&& ~~~1#32) ∧ t.mem = s.mem := by
  have h1 := registerWritten_retire s 6 (s.pc + hi20 off) (s.pc + 4#32)
  generalize hm : (s.setX 6 (s.pc + hi20 off)).retire (s.pc + 4#32) = m at h1
  refine ⟨m.retire (jalrTarget m 6 (lo12 off)), ?_, ?_, ?_⟩
  · subst hm
    simp [execPseudo, Pseudo.expand, execAll, exec, execAuipc, execJalr, writeAndAdvance, nextPc]
  · refine { h1 with value := fun h => ?_, zero := by simp, others := fun r hr => ?_, pc := ?_, endian := ?_, slotZero := ?_ }
    · rw [State.retire_x, h1.value h]
    · rw [State.retire_x, h1.others r hr]
    · rw [State.retire_pc, jalrTarget, h1.value (by decide), BitVec.add_assoc, hi20_add_lo12]
    · rw [State.retire_endian, h1.endian]
    · rw [State.slot_zero_retire, h1.slotZero]
  · subst hm; simp

/-! ### CSR accesses and the other SYSTEM words (R154, R334) -/

/-- Every SYSTEM word but ECALL's and EBREAK's selects no instruction. -/
theorem decodeWord_system {w : Word} (ho : w.extractLsb' 0 7 = 0b1110011#7) (hc : w ≠ ecallWord) (hb : w ≠ ebreakWord) :
    decodeWord w = .error .systemWord := by
  have hn := congrArg BitVec.toNat ho
  rw [BitVec.extractLsb'_toNat] at hn
  have hl : w.extractLsb' 0 2 = 0b11#2 := by
    apply BitVec.eq_of_toNat_eq
    rw [BitVec.extractLsb'_toNat]
    simp at hn ⊢
    omega
  have hop : w.extractLsb' 2 5 = opcSystem := by
    apply BitVec.eq_of_toNat_eq
    rw [BitVec.extractLsb'_toNat]
    simp [opcSystem, Nat.shiftRight_eq_div_pow] at hn ⊢
    omega
  rw [decodeWord, if_neg (by simp [hl])]
  simp [selectInstr, recordOf, hop, claims, opcSystem, opcLoad, opcMiscMem, opcOpImm, opcAuipc, opcStore, opcOp, opcLui,
    opcBranch, opcJalr, opcJal, selectSystem, hc, hb]

/-- A step that fetched such a word reports it as illegal with the PC and the word, nothing else changing. -/
theorem step_system_illegal {s : State} {w : Word} {m : Memory} (hf : Fetches s w m)
    (ho : w.extractLsb' 0 7 = 0b1110011#7) (hc : w ≠ ecallWord) (hb : w ≠ ebreakWord) :
    step s = .next ((s.withMem m).report (.illegalInst s.pc w)) := by
  obtain ⟨hal, bs, hr, rfl⟩ := hf
  have ha : aligned s.pc 4 = true := by simp [aligned, hal]
  have hd := decodeInstr_eq_decodeWord s.endian s.pc (Memory.read_length hr)
  rw [decodeWord_system ho hc hb] at hd
  obtain ⟨h, -⟩ | ⟨-, e, he, -⟩ | ⟨-, bs', m', hr', hs⟩ := step_cases s
  · rw [ha] at h; cases h
  · rw [hr] at he; cases he
  · rw [hr] at hr'; cases hr'
    obtain ⟨-, -, hs⟩ | ⟨i, hi, -⟩ := hs
    · exact hs
    · rw [hd] at hi; cases hi

theorem isCsrAccess_ne {w : Word} (h : isCsrAccess w = true) :
    w.extractLsb' 0 7 = 0b1110011#7 ∧ w ≠ ecallWord ∧ w ≠ ebreakWord := by
  simp only [isCsrAccess, Bool.and_eq_true, beq_iff_eq, bne_iff_ne] at h
  exact ⟨h.1, fun e => h.2 (by subst e; decide), fun e => h.2 (by subst e; decide)⟩

/-- R157's last sentence: a CSR access, so every pseudo-instruction that expands to one, is an illegal encoding. -/
theorem step_csrAccess_illegal {s : State} {w : Word} {m : Memory} (hf : Fetches s w m) (h : isCsrAccess w = true) :
    step s = .next ((s.withMem m).report (.illegalInst s.pc w)) :=
  step_system_illegal hf (isCsrAccess_ne h).1 (isCsrAccess_ne h).2.1 (isCsrAccess_ne h).2.2

/-- Every CSR instruction's word (funct3 not `000`) is a CSR access, whatever its CSR and operands are. -/
theorem isCsrAccess_csrAccessWord (csr : BitVec 12) (src : Reg) {f3 : BitVec 3} (rd : Reg) (h : f3 ≠ 0b000#3) :
    isCsrAccess (csrAccessWord csr src f3 rd) = true := by
  have h7 : (csrAccessWord csr src f3 rd).extractLsb' 0 7 = 0b1110011#7 := by
    apply BitVec.eq_of_getLsbD_eq
    intro i hi
    simp only [csrAccessWord, encI, opcode, opcSystem, BitVec.getLsbD_extractLsb', BitVec.getLsbD_append]
    interval_cases i <;> simp
  have h3 : (csrAccessWord csr src f3 rd).extractLsb' 12 3 = f3 := by
    apply BitVec.eq_of_getLsbD_eq
    intro i hi
    simp only [csrAccessWord, encI, opcode, opcSystem, BitVec.getLsbD_extractLsb', BitVec.getLsbD_append]
    interval_cases i <;> simp
  simp [isCsrAccess, h7, h3, h]

/-- `csrr` (and `rdcycle`, `rdtime`, `rdinstret`) of any CSR into any register, fetched, is reported as illegal. -/
theorem step_csrRead_illegal {s : State} {csr : BitVec 12} {rd : Reg} {m : Memory}
    (hf : Fetches s (csrReadWord csr rd) m) :
    step s = .next ((s.withMem m).report (.illegalInst s.pc (csrReadWord csr rd))) :=
  step_csrAccess_illegal hf (isCsrAccess_csrAccessWord csr 0 rd (by decide))

end Sys2Proof.Machine
end

