-- ==== Sys2Proof/Tests/Slice0.lean ====
section
/-! SUPPORT. The model's own tests. Expected results are the spec's: the worked examples of its rules and the vectors of
spec/95_test_vectors.md. Part 1 is the WellFormed smoke, part 2 decodes a word of the spec for every constructor, part 3
runs one small step per instruction, part 4 the memory and the host, part 5 gives for every statement of
Certificates/Slice0/Obligations.lean with hypotheses a concrete state and operands that meet them. -/

namespace Sys2Proof.Tests

open Sys2Proof Sys2Proof.Machine

/-! ### A small state -/

/-- The bytes the examples of spec/44_load_store.md assume at 0x1000, and `addi x1, x0, 5` (0x00500093) at 0x1010. -/
def demoCells : List Host.Cell :=
  [(0x1000, 0x80#8), (0x1001, 0x01#8), (0x1002, 0x02#8), (0x1003, 0xF3#8), (0x1010, 0x93#8), (0x1012, 0x50#8)]

/-- Bounds `[0, 0x10000)`, granule 0x800 (the vectors' conventions), a NormalRegion at 0x1000 and a device at 0x4000. -/
def demoMem : Memory where
  memoryStart := 0
  memorySize  := 0x10000
  regionSize  := 0x800
  regions     := [{ start := 0x1000, size := 0x800, backing := .normal demoCells },
                  { start := 0x4000, size := 0x10, backing := .mmio "uart" }]
  calls       := []
  draws       := 0

/-- Registers zero, the PC at 0x1010. -/
def demoWith (e : Endian) : State where
  rf      := { endian := e, slots := (Vector.replicate 33 0#32).set 32 0x1010#32 }
  mem     := demoMem
  outcome := none

def demo : State := demoWith .little

/-- `demo` with two source registers set. -/
def two (a b : Word) : State := (demo.setX 6 a).setX 7 b

def nextOf : Result → Option State
  | .next t => some t
  | _ => none

def faultOf? : Result → Option Fault
  | .fault f => some f
  | _ => none

/-- A register after an instruction. -/
def regAfter (i : Instr) (s : State) (r : Reg) : Option Word := (nextOf (exec i s)).map fun t => t.x r

/-- The PC after an instruction. -/
def pcAfter (i : Instr) (s : State) : Option Word := (nextOf (exec i s)).map State.pc

/-- The outcome after a result. -/
def outcomeOf (r : Result) : Option StepOutcome := (nextOf r).bind State.outcome

/-- Some bytes of memory after an instruction. -/
def bytesAfter (i : Instr) (s : State) (as : List Nat) : Option (List (Option Byte)) :=
  (nextOf (exec i s)).map fun t => as.map t.mem.byteAt

/-! ### Part 1: WellFormed refuses an ill-formed term for each check -/

theorem test_illFormed_i_immediate_above_range : (Instr.addi 1 0 2048#32).wellFormed = false := by decide
theorem test_illFormed_i_immediate_below_range : (Instr.jalr 1 0 0xFFFFF7FF#32).wellFormed = false := by decide
theorem test_illFormed_s_immediate_above_range : (Instr.sw 5 6 0x00000800#32).wellFormed = false := by decide
theorem test_illFormed_b_immediate_out_of_range : (Instr.beq 1 2 4096#32).wellFormed = false := by decide
theorem test_illFormed_b_immediate_odd : (Instr.bne 1 2 5#32).wellFormed = false := by decide
theorem test_illFormed_u_immediate_low_bits : (Instr.lui 5 0x12345001#32).wellFormed = false := by decide
theorem test_illFormed_j_immediate_out_of_range : (Instr.jal 1 0x00100000#32).wellFormed = false := by decide
theorem test_illFormed_j_immediate_odd : (Instr.jal 1 7#32).wellFormed = false := by decide
theorem test_wellFormed_at_the_bounds : (Instr.addi 1 0 2047#32).wellFormed = true ∧ (Instr.sb 5 6 0xFFFFF800#32).wellFormed = true ∧
    (Instr.beq 0 31 4094#32).wellFormed = true ∧ (Instr.beq 0 0 0xFFFFF000#32).wellFormed = true ∧
    (Instr.jal 5 0x000FFFFE#32).wellFormed = true ∧ (Instr.jal 5 0xFFF00000#32).wellFormed = true ∧
    (Instr.lui 5 0xFFFFF000#32).wellFormed = true := by decide

/-! ### Part 2: decoding, each word as the spec prints it -/

theorem test_decode_lui : decodeWord 0x123452B7#32 = .ok (.lui 5 0x12345000#32) := by decide
theorem test_decode_auipc : decodeWord 0x00001297#32 = .ok (.auipc 5 0x1000#32) := by decide
theorem test_decode_jal : decodeWord 0x008000EF#32 = .ok (.jal 1 8#32) := by decide
theorem test_decode_jalr : decodeWord 0x003280E7#32 = .ok (.jalr 1 5 3#32) := by decide
theorem test_decode_beq : decodeWord 0x00628863#32 = .ok (.beq 5 6 16#32) := by decide
theorem test_decode_bne : decodeWord 0xFE029CE3#32 = .ok (.bne 5 0 0xFFFFFFF8#32) := by decide
theorem test_decode_blt : decodeWord 0x0062C863#32 = .ok (.blt 5 6 16#32) := by decide
theorem test_decode_bge : decodeWord 0x0062D863#32 = .ok (.bge 5 6 16#32) := by decide
theorem test_decode_bltu : decodeWord 0x0062E863#32 = .ok (.bltu 5 6 16#32) := by decide
theorem test_decode_bgeu : decodeWord 0x0062F863#32 = .ok (.bgeu 5 6 16#32) := by decide
theorem test_decode_lb : decodeWord 0x00030283#32 = .ok (.lb 5 6 0#32) := by decide
theorem test_decode_lh : decodeWord 0x00231283#32 = .ok (.lh 5 6 2#32) := by decide
theorem test_decode_lw : decodeWord 0xFFC32283#32 = .ok (.lw 5 6 0xFFFFFFFC#32) := by decide
theorem test_decode_lbu : decodeWord 0x00034283#32 = .ok (.lbu 5 6 0#32) := by decide
theorem test_decode_lhu : decodeWord 0x00235283#32 = .ok (.lhu 5 6 2#32) := by decide
theorem test_decode_lwu : decodeWord 0x00036283#32 = .ok (.lwu 5 6 0#32) := by decide
theorem test_decode_sb : decodeWord 0x005300A3#32 = .ok (.sb 5 6 1#32) := by decide
theorem test_decode_sh : decodeWord 0x00531123#32 = .ok (.sh 5 6 2#32) := by decide
theorem test_decode_sw : decodeWord 0xFE532E23#32 = .ok (.sw 5 6 0xFFFFFFFC#32) := by decide
theorem test_decode_sbF4 : decodeWord 0x005340A3#32 = .ok (.sbF4 5 6 1#32) := by decide
theorem test_decode_shF5 : decodeWord 0x00535123#32 = .ok (.shF5 5 6 2#32) := by decide
theorem test_decode_swF6 : decodeWord 0x00536223#32 = .ok (.swF6 5 6 4#32) := by decide
theorem test_decode_addi : decodeWord 0x00500093#32 = .ok (.addi 1 0 5#32) := by decide
theorem test_decode_slti : decodeWord 0xFFF32293#32 = .ok (.slti 5 6 0xFFFFFFFF#32) := by decide
theorem test_decode_sltiu : decodeWord 0xFFF33293#32 = .ok (.sltiu 5 6 0xFFFFFFFF#32) := by decide
theorem test_decode_xori : decodeWord 0xFFF34293#32 = .ok (.xori 5 6 0xFFFFFFFF#32) := by decide
theorem test_decode_ori : decodeWord 0x0F036293#32 = .ok (.ori 5 6 0xF0#32) := by decide
theorem test_decode_andi : decodeWord 0x80037293#32 = .ok (.andi 5 6 0xFFFFF800#32) := by decide
theorem test_decode_slli : decodeWord 0x01F31293#32 = .ok (.slli 5 6 31) := by decide
theorem test_decode_srli : decodeWord 0x00435293#32 = .ok (.srli 5 6 4) := by decide
theorem test_decode_srai : decodeWord 0x40435293#32 = .ok (.srai 5 6 4) := by decide
theorem test_decode_add : decodeWord 0x007302B3#32 = .ok (.add 5 6 7) := by decide
theorem test_decode_sub : decodeWord 0x407302B3#32 = .ok (.sub 5 6 7) := by decide
theorem test_decode_sll : decodeWord 0x007312B3#32 = .ok (.sll 5 6 7) := by decide
theorem test_decode_slt : decodeWord 0x007322B3#32 = .ok (.slt 5 6 7) := by decide
theorem test_decode_sltu : decodeWord 0x007332B3#32 = .ok (.sltu 5 6 7) := by decide
theorem test_decode_xor : decodeWord 0x007342B3#32 = .ok (.xor 5 6 7) := by decide
theorem test_decode_srl : decodeWord 0x007352B3#32 = .ok (.srl 5 6 7) := by decide
theorem test_decode_sra : decodeWord 0x407352B3#32 = .ok (.sra 5 6 7) := by decide
theorem test_decode_or : decodeWord 0x007362B3#32 = .ok (.or 5 6 7) := by decide
theorem test_decode_and : decodeWord 0x007372B3#32 = .ok (.and 5 6 7) := by decide
theorem test_decode_fence : decodeWord 0x0FF0000F#32 = .ok (.fence 0 15 15 0 0) := by decide
theorem test_decode_ecall : decodeWord 0x00000073#32 = .ok (.ecall) := by decide
theorem test_decode_ebreak : decodeWord 0x00100073#32 = .ok (.ebreak) := by decide
theorem test_decode_refusals : decodeWord 0x00000000#32 = .error .lowBits ∧ decodeWord 0xFFFFFFFF#32 = .error .unclaimedOpcode ∧
    decodeWord 0x40431293#32 = .error .shiftEncoding ∧ decodeWord 0x027302B3#32 = .error .opFunct7 ∧
    decodeWord 0x000290E7#32 = .error .jalrFunct3 ∧ decodeWord 0x0062A863#32 = .error .branchFunct3 ∧
    decodeWord 0x00033283#32 = .error .widthCode ∧ decodeWord 0x0000100F#32 = .error .miscMemFunct3 ∧
    decodeWord 0x30200073#32 = .error .systemWord ∧ decodeWord 0x000000F3#32 = .error .systemWord := by decide
theorem test_decoder_refuses_three_bytes : decodeRecord .little 0#32 [0x93#8, 0x00#8, 0x50#8] = .error .notFourBytes := by decide
theorem test_decodeTableWord_addi : decodeTableWord 32 0x00500093 = some (.addi 1 0 5#32) := by decide
theorem test_decode_big_endian : decodeInstr .big 0#32 [0x00#8, 0x50#8, 0x00#8, 0x93#8] = .ok (.addi 1 0 5#32) := by decide

/-! ### Part 3: one step per instruction (the examples of the family rules) -/

theorem test_exec_lui : regAfter (.lui 5 0x12345000#32) (demo) 5 = some 0x12345000#32 := by decide
theorem test_exec_auipc_wraps : regAfter (.auipc 5 0x1000#32) (demo.setPc 0xFFFFF000#32) 5 = some 0#32 := by decide
theorem test_exec_jal : regAfter (.jal 1 8#32) (demo.setPc 0#32) 1 = some 4#32 ∧ pcAfter (.jal 1 8#32) (demo.setPc 0#32) = some 8#32 := by decide
theorem test_exec_jalr_reads_before_linking : regAfter (.jalr 5 5 1#32) ((demo.setX 5 0x200#32).setPc 0x10#32) 5 = some 0x14#32 ∧
    pcAfter (.jalr 5 5 1#32) ((demo.setX 5 0x200#32).setPc 0x10#32) = some 0x200#32 := by decide
theorem test_exec_beq : pcAfter (.beq 6 7 16#32) ((two 7#32 7#32).setPc 0x20#32) = some 0x30#32 := by decide
theorem test_exec_bne : pcAfter (.bne 6 7 16#32) ((two 1#32 0#32).setPc 0x20#32) = some 0x30#32 := by decide
theorem test_exec_blt : pcAfter (.blt 6 7 16#32) ((two 0xFFFFFFFF#32 1#32).setPc 0x20#32) = some 0x30#32 := by decide
theorem test_exec_bge_not_taken : pcAfter (.bge 6 7 16#32) ((two 0xFFFFFFFF#32 1#32).setPc 0x20#32) = some 0x24#32 := by decide
theorem test_exec_bltu_not_taken : pcAfter (.bltu 6 7 16#32) ((two 0xFFFFFFFF#32 1#32).setPc 0x20#32) = some 0x24#32 := by decide
theorem test_exec_bgeu : pcAfter (.bgeu 6 7 16#32) ((two 0xFFFFFFFF#32 1#32).setPc 0x20#32) = some 0x30#32 := by decide
theorem test_exec_lb : regAfter (.lb 5 6 0#32) (demo.setX 6 0x1000#32) 5 = some 0xFFFFFF80#32 := by decide
theorem test_exec_lh : regAfter (.lh 5 6 2#32) (demo.setX 6 0x1000#32) 5 = some 0xFFFFF302#32 := by decide
theorem test_exec_lh_big_endian : regAfter (.lh 5 6 2#32) ((demoWith .big).setX 6 0x1000#32) 5 = some 0x000002F3#32 := by decide
theorem test_exec_lw : regAfter (.lw 5 6 0#32) (demo.setX 6 0x1000#32) 5 = some 0xF3020180#32 := by decide
theorem test_exec_lw_unbacked_faults : faultOf? (exec (.lw 5 6 0xFFFFFFFC#32) (demo.setX 6 0x1000#32)) = some (.regionError 0xFFC 4 (demo.setX 6 0x1000#32)) := by decide
theorem test_exec_lbu : regAfter (.lbu 5 6 0#32) (demo.setX 6 0x1000#32) 5 = some 0x00000080#32 := by decide
theorem test_exec_lhu : regAfter (.lhu 5 6 2#32) (demo.setX 6 0x1000#32) 5 = some 0x0000F302#32 := by decide
theorem test_exec_lwu : regAfter (.lwu 5 6 0#32) (demo.setX 6 0x1000#32) 5 = some 0xF3020180#32 := by decide
/-- `demo` with x5 = 0x12345678 and x6 = 0x1000, as in the store examples. -/
def storing : State := (demo.setX 5 0x12345678#32).setX 6 0x1000#32

theorem test_exec_sb : bytesAfter (.sb 5 6 1#32) storing [0x1000, 0x1001, 0x1002] = some [some 0x80#8, some 0x78#8, some 0x02#8] := by decide
theorem test_exec_sh : bytesAfter (.sh 5 6 2#32) storing [0x1001, 0x1002, 0x1003, 0x1004] = some [some 0x01#8, some 0x78#8, some 0x56#8, some 0x00#8] := by decide
theorem test_exec_sw : bytesAfter (.sw 5 6 4#32) storing [0x1003, 0x1004, 0x1005, 0x1006, 0x1007] = some [some 0xF3#8, some 0x78#8, some 0x56#8, some 0x34#8, some 0x12#8] := by decide
theorem test_exec_sw_allocates : bytesAfter (.sw 5 6 0xFFFFFFFC#32) storing [0x800, 0xFFC, 0xFFF, 0x1000] = some [some 0x00#8, some 0x78#8, some 0x12#8, some 0x80#8] := by decide
theorem test_exec_sbF4 : bytesAfter (.sbF4 5 6 1#32) storing [0x1001, 0x1002] = some [some 0x78#8, some 0x02#8] := by decide
theorem test_exec_shF5 : bytesAfter (.shF5 5 6 2#32) storing [0x1002, 0x1003] = some [some 0x78#8, some 0x56#8] := by decide
theorem test_exec_swF6 : bytesAfter (.swF6 5 6 4#32) storing [0x1004, 0x1007] = some [some 0x78#8, some 0x12#8] := by decide
theorem test_exec_sw_misaligned : outcomeOf (exec (.sw 5 6 2#32) storing) = some (.memMisaligned .store 0x1010#32 0x1002 4) := by decide
theorem test_exec_addi_wraps : regAfter (.addi 5 6 1#32) (two 0x7FFFFFFF#32 0#32) 5 = some 0x80000000#32 := by decide
theorem test_exec_addi_x0_discards : regAfter (.addi 0 6 1#32) (two 5#32 0#32) 0 = some 0#32 ∧ pcAfter (.addi 0 6 1#32) (two 5#32 0#32) = some 0x1014#32 := by decide
theorem test_exec_slti : regAfter (.slti 5 6 0xFFFFFFFF#32) (two 0xFFFFFFFE#32 0#32) 5 = some 1#32 := by decide
theorem test_exec_sltiu : regAfter (.sltiu 5 6 0xFFFFFFFF#32) (two 5#32 0#32) 5 = some 1#32 := by decide
theorem test_exec_xori : regAfter (.xori 5 6 0xFFFFFFFF#32) (two 0x0000FFFF#32 0#32) 5 = some 0xFFFF0000#32 := by decide
theorem test_exec_ori : regAfter (.ori 5 6 0xF0#32) (two 0xF#32 0#32) 5 = some 0xFF#32 := by decide
theorem test_exec_andi : regAfter (.andi 5 6 0xFFFFF800#32) (two 0xFFFFFFFF#32 0#32) 5 = some 0xFFFFF800#32 := by decide
theorem test_exec_slli : regAfter (.slli 5 6 31) (two 3#32 0#32) 5 = some 0x80000000#32 := by decide
theorem test_exec_srli : regAfter (.srli 5 6 4) (two 0x80000000#32 0#32) 5 = some 0x08000000#32 := by decide
theorem test_exec_srai : regAfter (.srai 5 6 4) (two 0x80000000#32 0#32) 5 = some 0xF8000000#32 := by decide
theorem test_exec_add : regAfter (.add 5 6 7) (two 0x7FFFFFFF#32 1#32) 5 = some 0x80000000#32 := by decide
theorem test_exec_sub : regAfter (.sub 5 6 7) (two 0#32 1#32) 5 = some 0xFFFFFFFF#32 := by decide
theorem test_exec_sll : regAfter (.sll 5 6 7) (two 1#32 33#32) 5 = some 2#32 := by decide
theorem test_exec_slt : regAfter (.slt 5 6 7) (two 0xFFFFFFFF#32 1#32) 5 = some 1#32 := by decide
theorem test_exec_sltu : regAfter (.sltu 5 6 7) (two 0xFFFFFFFF#32 1#32) 5 = some 0#32 := by decide
theorem test_exec_xor : regAfter (.xor 5 6 7) (two 0xF0F0F0F0#32 0xFFFFFFFF#32) 5 = some 0x0F0F0F0F#32 := by decide
theorem test_exec_srl : regAfter (.srl 5 6 7) (two 0x80000000#32 31#32) 5 = some 1#32 := by decide
theorem test_exec_sra : regAfter (.sra 5 6 7) (two 0x80000000#32 31#32) 5 = some 0xFFFFFFFF#32 := by decide
theorem test_exec_or : regAfter (.or 5 6 7) (two 0x0000FF00#32 0x00FF0000#32) 5 = some 0x00FFFF00#32 := by decide
theorem test_exec_and : regAfter (.and 5 6 7) (two 0x0000FFFF#32 0x00FF00FF#32) 5 = some 0xFF#32 := by decide
theorem test_exec_fence : nextOf (exec (.fence 8 3 3 0 0) (demo.setPc 0x40#32)) = some ((demo.setPc 0x40#32).retire 0x44#32) := by decide
theorem test_exec_ecall : outcomeOf (exec .ecall (demo.setPc 0x100#32)) = some (.trap .ecall (recordOf 0x100#32 0x00000073#32)) := by decide
theorem test_exec_ebreak_keeps_pc : pcAfter .ebreak (demo.setPc 0x200#32) = some 0x200#32 := by decide

/-! ### Part 4: steps, memory, host -/

/-- R334's example, and 95_test_vectors.md §8: `rdcycle x5` = 0xC00022F3 at 0x80 ends with the illegal-instruction exception. -/
theorem test_pseudo_rdcycle_is_illegal : csrReadWord 0xC00#12 5 = 0xC00022F3#32 ∧
    outcomeOf (step ((demo.setPc 0x80#32).withFetchWord 32 0xC00022F3)) = some (.illegalInst 0x80#32 0xC00022F3#32) := by decide
/-- The words R156, R201, R330 and program P3 give: nop, fence iorw, iorw, and ret. -/
theorem test_pseudo_words : Pseudo.nop.words = [0x00000013#32] ∧ Pseudo.fence.words = [0x0FF0000F#32] ∧
    Pseudo.ret.words = [0x00008067#32] := by decide
/-- R157's split of `li x5, 0x12345FFF` by hand: lo12 = −1, so hi20 = 0x12346. -/
theorem test_pseudo_li : (Pseudo.li 5 0x12345FFF#32).expand = [.lui 5 0x12346000#32, .addi 5 5 0xFFFFFFFF#32] ∧
    ((nextOf (execPseudo (.li 5 0x12345FFF#32) demo)).map fun t => (t.x 5, t.pc)) = some (0x12345FFF#32, 0x1018#32) := by decide
/-- `bgt x6, x7` at 0x20 is `blt x7, x6`: taken when x6 is the greater. -/
theorem test_pseudo_bgt_swaps : ((nextOf (execPseudo (.bgt 6 7 16#32) ((two 1#32 0xFFFFFFFF#32).setPc 0x20#32))).map State.pc) =
    some 0x30#32 := by decide
/-- `call` backwards over a 2 KiB boundary, by hand: from 0x1010 by −0x810 to 0x800, linking 0x1018. -/
theorem test_pseudo_call : ((nextOf (execPseudo (.call (-0x810#32)) demo)).map fun t => (t.x 1, t.pc)) =
    some (0x1018#32, 0x800#32) := by decide
theorem test_step_addi : (nextOf (step demo)).map (fun t => (t.x 1, t.pc, t.outcome)) = some (5#32, 0x1014#32, some .retired) := by decide
theorem test_step_withFetchWord : (nextOf (step (State.reset.withFetchWord 32 0x00500093))).map (fun t => (t.x 1, t.pc)) = some (5#32, 4#32) := by decide
theorem test_step_reset_has_no_program : faultOf? (step State.reset) = some (.regionError 0 4 State.reset) := by decide
theorem test_step_misaligned_fetch : outcomeOf (step (demo.setPc 6#32)) = some (.memMisaligned .fetch 6#32 6 4) := by decide
theorem test_step_illegal_word : outcomeOf (step (demo.setPc 0x1004#32)) = some (.illegalInst 0x1004#32 0#32) := by decide
theorem test_memory_first_scenario : (Memory.construct 0 0x1000000 2048 >>= fun m => m.write 0 4 [1#8, 2#8, 3#8, 4#8]).map
      (fun m => (m.regions.map (fun r => (r.start, r.size)), m.read 0 4 >>= fun p => .ok p.1))
    = .ok ([(0, 2048)], .ok [1#8, 2#8, 3#8, 4#8]) := by decide
theorem test_memory_blocked_by_device : (demoMem.write 0x4010 4 [1#8, 2#8, 3#8, 4#8]) = .error .memoryError := by decide
theorem test_memory_outside_bounds : (demoMem.write 0x10000 4 [1#8, 2#8, 3#8, 4#8]) = .error .regionError := by decide
theorem test_memory_extends_below_region : ((demoMem.write 0x1800 1 [7#8]).map fun m => m.regions.map fun r => (r.start, r.size))
    = .ok [(0x1000, 0x1000), (0x4000, 0x10)] := by decide
/-- M10: the region that ends where the new one starts absorbs it. -/
theorem test_addRegion_merges_upward :
    ((Memory.construct 0 0x10000 0x800 >>= fun m => m.addRegion (Region.fresh 0 0x800) >>= fun m =>
      m.addRegion (Region.fresh 0x800 0x800)).map fun m => m.regions) = .ok [Region.fresh 0 0x1000] := by decide
/-- M11: a new region that adjoins the existing one from below is not merged with it (D18). -/
theorem test_addRegion_keeps_lower_neighbour :
    ((Memory.construct 0 0x10000 0x800 >>= fun m => m.addRegion (Region.fresh 0x800 0x800) >>= fun m =>
      m.addRegion (Region.fresh 0 0x800)).map fun m => m.regions) =
      .ok [Region.fresh 0 0x800, Region.fresh 0x800 0x800] := by decide
theorem test_mixed_widths_little : ((demoMem.read 0x1000 2).map fun p => valOf .little p.1) = .ok 0x0180 ∧ ((demoMem.read 0x1000 4).map fun p => valOf .big p.1) = .ok 0x800102F3 := by decide
theorem test_store_to_device_is_recorded : (nextOf (exec (.sw 5 6 0#32) (storing.setX 6 0x4000#32))).map (fun t => t.mem.calls) =
    some [{ device := "uart", kind := .write, addr := 0x4000, size := 4, bytes := [0x78#8, 0x56#8, 0x34#8, 0x12#8] }] := by decide
theorem test_load_from_device_is_recorded : (nextOf (exec (.lb 0 6 0#32) (demo.setX 6 0x4004#32))).map
    (fun t => t.mem.calls.map (fun c => (c.device, c.kind, c.addr, c.size))) = some [("uart", .read, 0x4004, 1)] := rfl
theorem test_launch_gives_reset : launch resetParams = .ok State.reset := by decide
theorem test_launch_refuses_bad_granule : (match launch { resetParams with granule := 3 } with | .error .memoryError => true | _ => false) = true := by decide
theorem test_byte_view_write_extends : ((demo.rf.write 5 [0x80#8] true).map fun f => f.slot 5) = .ok 0xFFFFFF80#32 ∧
    (((demoWith .big).rf.write 5 [0x12#8, 0x34#8] false).map fun f => f.slot 5) = .ok 0x1234#32 := by decide
theorem test_host_sets_pc : ((hostWriteSlot demo 32 0x104 false).map State.pc) = .ok 0x104#32 := by decide

/-! ### Part 5: a witness for every statement with hypotheses -/

theorem demo_wf : demo.mem.wf := by decide
theorem demo_granular : demo.mem.granular := by decide
theorem demo_inv : demo.Inv := ⟨demo_wf, demo_granular, by decide, by decide⟩

/-- The region of `demo` at 0x1000 and the one of its device. -/
def demoRegion : Region := { start := 0x1000, size := 0x800, backing := .normal demoCells }
def demoDevice : Region := { start := 0x4000, size := 0x10, backing := .mmio "uart" }

/-- The state whose PC stands in the device's region. -/
def atDevice : State := demo.setPc 0x4000#32

/-- `demo` fetches `addi x1, x0, 5`. -/
theorem demo_fetches : Fetches demo 0x00500093#32 demo.mem :=
  ⟨by decide, [0x93#8, 0x00#8, 0x50#8, 0x00#8], by decide, by decide⟩

/-- `demo` with another word in its four bytes at the PC. -/
def holding (w : Word) : State := (demo.withFetchWord 32 w.toNat)

theorem holding_fetches_sw : Fetches (holding 0x00532023#32) 0x00532023#32 (holding 0x00532023#32).mem :=
  ⟨by decide, [0x23#8, 0x20#8, 0x53#8, 0x00#8], by decide, by decide⟩

theorem witness_RegisterFileByteViewWrite :
    demo.rf.write 33 [1#8] true = .error .registerFileError ∧
    demo.rf.write 32 [1#8, 2#8, 3#8, 4#8, 5#8] true = .error .registerError ∧
    demo.rf.write 0 [] true = .error .registerError ∧
    ((demo.rf.write 0 [0x80#8] true).map fun f => f.slot 0) = .ok 0xFFFFFF80#32 ∧
    ((demo.rf.write 32 [1#8, 2#8, 3#8, 4#8] true).map fun f => f.slot 32) = .ok 0x04030201#32 := by decide

theorem witness_RegisterFileViewsAgree :
    (32 < 33 ∧ [1#8, 2#8, 3#8, 4#8].length = 32 / 8 ∧ 2 ^ 32 - 1 < 2 ^ 32) ∧
    ((demo.rf.writeValue 32 (2 ^ 32 - 1) false).bind fun f => f.read 32) = .ok [0xFF#8, 0xFF#8, 0xFF#8, 0xFF#8] := by decide

theorem witness_SlotZeroIsOrdinaryInTheRegisterFile :
    (0 < [0x80#8].length ∧ [0x80#8].length ≤ 4) ∧ (0 < [1#8, 2#8, 3#8, 4#8].length ∧ [1#8, 2#8, 3#8, 4#8].length ≤ 4) ∧
    demo.rf.write 0 [0x80#8] true = .ok (demo.rf.setSlot 0 0xFFFFFF80#32) := by decide

theorem witness_RegisterFileRefusesBadCalls :
    0 < 32 ∧ demo.rf.read 33 = .error .registerFileError ∧ demo.rf.copyRegister 0 33 = .error .registerFileError ∧
    demo.rf.writeValue 32 (2 ^ 31) true = .error .registerError ∧
    demo.rf.writeValue 32 (-(2 ^ 31)) true = .ok (demo.rf.setSlot 32 0x80000000#32) ∧
    demo.rf.writeValue 0 (-1) false = .error .registerError ∧ demo.rf.writeValue 0 (2 ^ 32) false = .error .registerError := by
  decide

theorem witness_ZeroRegisterNeverChanges :
    (∃ t, exec (.addi 0 6 1#32) demo = .next t) ∧ ∃ t, step demo = .next t := ⟨⟨_, rfl⟩, ⟨_, rfl⟩⟩

theorem witness_ByteOrderConversions :
    8 ∈ [1, 2, 4, 8] ∧ [1#8, 2#8, 3#8, 4#8, 5#8, 6#8, 7#8, 8#8].length = 8 ∧ 7 < 8 := by decide

theorem witness_ConstructionConstraints :
    (∃ k, 8 = 2 ^ k) ∧ 8 ≤ 8 ∧ 0 < 8 ∧ 8 ∣ 8 ∧ 8 ∣ 2 ^ 48 - 8 ∧ 2 ^ 48 - 8 + 8 ≤ 2 ^ 48 ∧
    Memory.construct (2 ^ 48 - 8) 16 8 = .error .memoryError := ⟨⟨3, rfl⟩, by decide⟩

theorem witness_FindRegionIsTheContainingRegion :
    demo.mem.wf ∧ 0 < 4 ∧ demo.mem.findRegion 0x17FC 4 = some demoRegion ∧
    (4 ∈ [1, 2, 4, 8] ∧ 0x1800 % 4 = 0 ∧ ∀ r ∈ demo.mem.regions, ¬ (r.start ≤ 0x1800 ∧ 0x1800 + 4 ≤ r.stop)) := by decide

theorem witness_UnbackedReadsFail :
    (8 ∈ [1, 2, 4, 8] ∧ 0x1800 % 8 = 0 ∧ demo.mem.findRegion 0x1800 8 = none) ∧
    ((demo.setPc 0x1800#32).pc.toNat % 4 = 0 ∧ (demo.setPc 0x1800#32).mem.findRegion 0x1800 4 = none) ∧
    ((effectiveAddr (demo.setX 6 0x1000#32) 6 0xFFFFFFFC#32).toNat % 4 = 0 ∧
      demo.mem.findRegion (effectiveAddr (demo.setX 6 0x1000#32) 6 0xFFFFFFFC#32).toNat 4 = none) := by decide

/-- The fetched load of the same statement's last clause: `lw x5, -4(x6)` with x6 = 0 at the PC. -/
theorem witness_UnbackedReadsFail_fetched :
    Fetches (holding 0xFFC32283#32) 0xFFC32283#32 (holding 0xFFC32283#32).mem ∧
    decodeWord 0xFFC32283#32 = .ok (.lw 5 6 0xFFFFFFFC#32) ∧
    (effectiveAddr (holding 0xFFC32283#32) 6 0xFFFFFFFC#32).toNat % 4 = 0 ∧
    (holding 0xFFC32283#32).mem.findRegion (effectiveAddr (holding 0xFFC32283#32) 6 0xFFFFFFFC#32).toNat 4 = none :=
  ⟨⟨by decide, [0x83#8, 0x22#8, 0xC3#8, 0xFF#8], by decide, by decide⟩, by decide, by decide, by decide⟩

theorem witness_HostAccessChecks :
    3 ∉ [1, 2, 4, 8] ∧ (8 ∈ [1, 2, 4, 8] ∧ 0x1004 % 8 ≠ 0) ∧
    (8 ∈ [1, 2, 4, 8] ∧ 0x1000 % 8 = 0 ∧ [1#8].length ≠ 8) := by decide

theorem witness_RegionLocalAccess :
    demo.mem.wf ∧ demoRegion ∈ demo.mem.regions ∧ demoDevice ∈ demo.mem.regions ∧ [1#8, 2#8].length = 2 ∧
    ¬ (demoRegion.start ≤ 0x17FF ∧ 0x17FF + 2 ≤ demoRegion.stop) ∧
    (demoRegion.start ≤ 0x17FE ∧ 0x17FE + 2 ≤ demoRegion.stop ∧ demoRegion.isNormal = true) ∧
    (demoDevice.start ≤ 0x400E ∧ 0x400E + 2 ≤ demoDevice.stop ∧ demoDevice.backing = .mmio "uart") := by decide

theorem witness_ReadReturnsTheBytes :
    demo.mem.wf ∧ 4 ∈ [1, 2, 4, 8] ∧ 0x17FC % 4 = 0 ∧ demo.mem.findRegion 0x17FC 4 = some demoRegion ∧
    demoRegion.isNormal = true := by decide

theorem witness_ReadAfterWrite :
    demo.mem.wf ∧ ∃ m1 m2, demo.mem.write 0x2000 4 [1#8, 2#8, 3#8, 4#8] = .ok m1 ∧ m1.calls = demo.mem.calls ∧
      m1.write 0x2000 4 [5#8, 6#8, 7#8, 8#8] = .ok m2 := ⟨demo_wf, _, _, rfl, rfl, rfl⟩

/-- A write below 0x2004 in a new granule: address 0x2004 had no byte and now reads zero. -/
theorem witness_WriteLeavesOtherBytes :
    demo.mem.wf ∧ (∃ m', demo.mem.write 0x2000 4 [1#8, 2#8, 3#8, 4#8] = .ok m' ∧ m'.byteAt 0x2004 = some 0#8) ∧
    0x2000 + 4 ≤ 0x2004 ∧ demo.mem.byteAt 0x2004 = none := ⟨demo_wf, ⟨_, rfl, rfl⟩, by decide, rfl⟩

theorem witness_WriteAllocationOnGranules :
    demo.mem.wf ∧ demo.mem.granular ∧ 4 ∈ [1, 2, 4, 8] ∧ [1#8, 2#8, 3#8, 4#8].length = 4 ∧
    (0x10000 % 4 = 0 ∧ demo.mem.findRegion 0x10000 4 = none ∧
      demo.mem.memoryStart + demo.mem.memorySize < 0x10000 / 0x800 * 0x800 + 0x800) ∧
    (0x4010 % 4 = 0 ∧ demo.mem.findRegion 0x4010 4 = none ∧
      ∃ r ∈ demo.mem.regions, r.start < 0x4010 / 0x800 * 0x800 + 0x800 ∧ 0x4010 / 0x800 * 0x800 < r.stop) ∧
    (0xFFFC % 4 = 0 ∧ demo.mem.findRegion 0xFFFC 4 = none ∧ 0xFFFC / 0x800 * 0x800 + 0x800 ≤ 0x10000 ∧
      ∀ r ∈ demo.mem.regions, ¬ (r.start < 0xFFFC / 0x800 * 0x800 + 0x800 ∧ 0xFFFC / 0x800 * 0x800 < r.stop)) := by
  decide

theorem witness_RegionFoundIffGranuleBacked :
    demo.mem.wf ∧ demo.mem.granular ∧ 8 ∈ [1, 2, 4, 8] ∧ 0x17F8 % 8 = 0 ∧
    demo.mem.findRegion 0x17F8 8 = some demoRegion ∧ demo.mem.findRegion 0x4008 8 = some demoDevice ∧
    demo.mem.findRegion 0x1800 8 = none := by decide

theorem witness_AddRegionEffect :
    demo.mem.wf ∧ CellsWf 0x1800 0x2000 (Region.fresh 0x1800 0x800).cells ∧
    ((demo.mem.addRegion (Region.fresh 0x1800 0x800)).map fun m => m.regions.length) = .ok 2 ∧
    demo.mem.addRegion (Region.fresh 0x1800 0) = .error .regionError ∧
    demo.mem.addRegion (Region.fresh 0x1804 0x800) = .error .regionError ∧
    demo.mem.addRegion (Region.fresh 0xF800 0x1000) = .error .regionError ∧
    demo.mem.addRegion (Region.fresh 0x3800 0x1000) = .error .regionError ∧
    (demoRegion ∈ demo.mem.regions ∧ demoRegion.isNormal = true ∧ demoRegion.stop = (Region.fresh 0x1800 0x800).start) ∧
    ((demo.mem.addRegion (Region.fresh 0x800 0x800)).map fun m => m.regions.length) = .ok 3 ∧
    (Region.fresh 0x800 0x800).stop = demoRegion.start ∧
    ∀ e ∈ demo.mem.regions, ¬ (e.isNormal = true ∧ e.stop = (Region.fresh 0x800 0x800).start) := by decide

theorem witness_RegionOperations :
    demoRegion.isNormal = true ∧ demoDevice.isNormal = false ∧ 0x7FF < demoRegion.size ∧
    demoRegion.stop = (Region.fresh 0x1800 0x800).start ∧ (Region.fresh 0x1800 0x800).isNormal = true ∧
    demoRegion.stop ≠ (Region.fresh 0x2000 0x800).start := by decide

theorem witness_RegionGeometry :
    0 < demoRegion.size ∧ 0 < (Region.fresh 0x1800 0x800).size ∧ demoRegion.isOverlap (Region.fresh 0x17FF 1) = true ∧
    demoRegion.isOverlap (Region.fresh 0x1800 0x800) = false ∧
    demoRegion.isAlignLower (Region.fresh 0x1800 0x800) = true := by decide

theorem witness_DecodeOfEncode : (Instr.jal 5 0xFFF00000#32).wellFormed = true := by decide

theorem witness_EncodeOfDecode : decodeWord 0x800002EF#32 = .ok (.jal 5 0xFFF00000#32) := by decide

theorem witness_LegalWordsAreTheTableRows :
    (0x0000000F#32, 0x0000707F#32) ∈ opcodeRows ∧ 0x8330000F#32 &&& 0x0000707F#32 = 0x0000000F#32 :=
  ⟨by simp [opcodeRows], by decide⟩

theorem witness_RecordFixedFields :
    decodeRecord .big 4#32 [0x00#8, 0x50#8, 0x00#8, 0x93#8] = .ok (recordOf 4#32 0x00500093#32) := by decide

theorem witness_ShiftRightImmediateSelection :
    ((0x00435293#32 : Word).extractLsb' 0 7 = 0x13#7 ∧ (0x00435293#32 : Word).extractLsb' 12 3 = 0b101#3) ∧
    ((0x40435293#32 : Word).extractLsb' 0 7 = 0x13#7 ∧ (0x40435293#32 : Word).extractLsb' 12 3 = 0b101#3) ∧
    ((0x02435293#32 : Word).extractLsb' 0 7 = 0x13#7 ∧ (0x02435293#32 : Word).extractLsb' 12 3 = 0b101#3) ∧
    (0x00435293#32 : Word).extractLsb' 25 7 = 0b0000000#7 ∧ (0x40435293#32 : Word).extractLsb' 25 7 = 0b0100000#7 ∧
    ((0x02435293#32 : Word).extractLsb' 25 7 ≠ 0b0000000#7 ∧ (0x02435293#32 : Word).extractLsb' 25 7 ≠ 0b0100000#7) ∧
    Fetches (holding 0x02435293#32) 0x02435293#32 (holding 0x02435293#32).mem :=
  ⟨by decide, by decide, by decide, by decide, by decide, by decide, by decide, [0x93#8, 0x52#8, 0x43#8, 0x02#8],
    by decide, by decide⟩

theorem witness_EightByteCodesAreIllegal :
    0x00537023#32 ∈ [0x00033283#32, 0x00037283#32, 0x00533023#32, 0x00537023#32] ∧
    Fetches (holding 0x00537023#32) 0x00537023#32 (holding 0x00537023#32).mem :=
  ⟨by decide, by decide, [0x23#8, 0x70#8, 0x53#8, 0x00#8], by decide, by decide⟩

theorem witness_StepRunsTheDecodedInstruction :
    Fetches demo 0x00500093#32 demo.mem ∧ decodeWord 0x00500093#32 = .ok (.addi 1 0 5#32) :=
  ⟨demo_fetches, by decide⟩

theorem witness_FetchReadsFourBytesAtThePc :
    ((demo.setPc 0x1800#32).pc.toNat % 4 = 0 ∧ demo.mem.findRegion (demo.setPc 0x1800#32).pc.toNat 4 = none) ∧
    ((demo.setPc 0x17FC#32).pc.toNat % 4 = 0 ∧
      demo.mem.findRegion (demo.setPc 0x17FC#32).pc.toNat 4 = some demoRegion ∧ demoRegion.isNormal = true) ∧
    (atDevice.pc.toNat % 4 = 0 ∧ demo.mem.findRegion atDevice.pc.toNat 4 = some demoDevice ∧
      demoDevice.backing = .mmio "uart") ∧
    (∃ bs t, fetch demo = .bytes bs t ∧ decodeWord (wordOf demo.endian bs) = .ok (.addi 1 0 5#32)) ∧
    ∃ bs t, fetch (demo.setPc 0x1004#32) = .bytes bs t ∧ decodeWord (wordOf demo.endian bs) = .error .lowBits :=
  ⟨by decide, by decide, by decide, ⟨_, _, rfl, by decide⟩, ⟨_, _, rfl, by decide⟩⟩

theorem witness_StepRunsTheEncodedInstruction :
    demo.mem.wf ∧ (Instr.addi 1 0 5#32).wellFormed = true ∧ demo.pc.toNat % 4 = 0 ∧
    demo.mem.findRegion demo.pc.toNat 4 = some demoRegion ∧ demoRegion.isNormal = true ∧
    ∀ k, k < 4 → demo.mem.byteAt (demo.pc.toNat + k) = (bytesOf demo.endian (encode (.addi 1 0 5#32)).toNat 4)[k]? := by
  decide

theorem witness_StepReportsIllegalWord :
    Fetches (demo.setPc 0x1004#32) 0x00000000#32 demo.mem ∧ decodeWord 0x00000000#32 = .error .lowBits :=
  ⟨⟨by decide, [0#8, 0#8, 0#8, 0#8], by decide, by decide⟩, by decide⟩

theorem witness_StepReportsMisalignedPc : (demo.setPc 0x1012#32).pc.toNat % 4 ≠ 0 := by decide

theorem witness_NonRetiringStepWritesNothing :
    (∃ t, step (demo.setPc 0x1004#32) = .next t ∧ t.outcome ≠ some .retired) ∧
    ∃ f, step (demo.setPc 0x1800#32) = .fault f := ⟨⟨_, rfl, by decide⟩, ⟨_, rfl⟩⟩

theorem witness_UnchangedStateRepeatsTheEvent :
    ∃ t, step (demo.setPc 0x1004#32) = .next t ∧ t.outcome ≠ some .retired ∧ t.mem = (demo.setPc 0x1004#32).mem :=
  ⟨_, rfl, by decide, rfl⟩

theorem witness_StepReportsOneOutcome : ∃ t, step demo = .next t ∧ t.outcome = some .retired := ⟨_, rfl, rfl⟩

theorem witness_StepMakesAtMostTwoDeviceCalls : ∃ t, step demo = .next t := ⟨_, rfl⟩

/-- A state without devices that steps. -/
theorem witness_StepWithoutDevicesIgnoresThem :
    (∀ r ∈ (State.reset.withFetchWord 32 0x00500093).mem.regions, r.isNormal = true) ∧
    (nextOf (step (State.reset.withFetchWord 32 0x00500093))).isSome = true := by decide

theorem witness_StoredWordIsFetchedAtOnce :
    ∃ t, demo.mem.wf ∧ exec (.sw 5 6 0#32) ((demo.setX 5 0x00500093#32).setX 6 0x2000#32) = .next t ∧
      t.outcome = some .retired ∧ t.mem.calls = demo.mem.calls ∧
      decodeWord (((demo.setX 5 0x00500093#32).setX 6 0x2000#32).x 5) = .ok (.addi 1 0 5#32) :=
  ⟨_, demo_wf, rfl, rfl, rfl, by decide⟩

/-- A launch with a device, a big-endian image word, and one image write to the device. -/
def demoLaunch : LaunchParams := { resetParams with
  endian := .big, memSize := 0x10000, devices := [{ start := 0x4000, size := 0x10, name := "uart" }],
  image := [{ addr := 0x100, size := 4, data := [0x00#8, 0x50#8, 0x00#8, 0x93#8] },
            { addr := 0x400C, size := 4, data := [1#8, 2#8, 3#8, 4#8] }], entryPc := 0x100#32 }

theorem witness_LaunchGivesTheLaunchState :
    (∃ s, launch demoLaunch = .ok s) ∧
    demoLaunch.image = [] ++ { addr := 0x100, size := 4, data := [0x00#8, 0x50#8, 0x00#8, 0x93#8] } ::
      [{ addr := 0x400C, size := 4, data := [1#8, 2#8, 3#8, 4#8] }] ∧
    demoLaunch.deviceOf { addr := 0x100, size := 4, data := [0x00#8, 0x50#8, 0x00#8, 0x93#8] } = none ∧
    (demoLaunch.deviceOf { addr := 0x400C, size := 4, data := [1#8, 2#8, 3#8, 4#8] }).isSome = true ∧
    ∀ w ∈ demoLaunch.image, 0x104 < w.addr ∨ w.addr + w.size ≤ 0x104 := ⟨⟨_, rfl⟩, rfl, by decide, by decide, by decide⟩

/-- R390: the image word runs, and the image's write to the device is its one call. -/
theorem test_launch_loads_devices_and_image :
    ((launch demoLaunch).map fun s => ([0xFF, 0x100, 0x103, 0x104, 0x7FF, 0x800, 0x4000].map s.mem.byteAt, s.mem.calls)) =
      .ok ([some 0#8, some 0x00#8, some 0x93#8, some 0#8, some 0#8, none, none],
        [{ device := "uart", kind := .write, addr := 0x400C, size := 4, bytes := [1#8, 2#8, 3#8, 4#8] }]) := by decide

theorem witness_StepKeepsTheInvariant : demo.Inv ∧ ∃ t, step demo = .next t := ⟨demo_inv, _, rfl⟩

/-- `jal x1, +6` from 0x1010 goes to 0x1016. -/
theorem witness_MisalignedTargetIsReportedByTheNextFetch :
    ∃ t, exec (.jal 1 6#32) demo = .next t ∧ t.pc.toNat % 4 ≠ 0 := ⟨_, rfl, by decide⟩

theorem witness_LoadsFromNormalRegions :
    ∀ f ∈ loadForms, (effectiveAddr (demo.setX 6 0x17FC#32) 6 0#32).toNat % f.1 = 0 ∧
      demo.mem.findRegion (effectiveAddr (demo.setX 6 0x17FC#32) 6 0#32).toNat f.1 = some demoRegion ∧
      demoRegion.isNormal = true := by
  intro f hf
  simp only [loadForms, List.mem_cons, List.not_mem_nil, or_false] at hf
  rcases hf with rfl | rfl | rfl | rfl | rfl | rfl <;> decide

theorem witness_LoadsFromDevices :
    ∀ f ∈ loadForms, (effectiveAddr (demo.setX 6 0x400C#32) 6 0#32).toNat % f.1 = 0 ∧
      demo.mem.findRegion (effectiveAddr (demo.setX 6 0x400C#32) 6 0#32).toNat f.1 = some demoDevice ∧
      demoDevice.backing = .mmio "uart" := by
  intro f hf
  simp only [loadForms, List.mem_cons, List.not_mem_nil, or_false] at hf
  rcases hf with rfl | rfl | rfl | rfl | rfl | rfl <;> decide

theorem witness_StoresToNormalRegions :
    demo.mem.wf ∧ ∀ f ∈ storeForms, (effectiveAddr (demo.setX 6 0x17FC#32) 6 0#32).toNat % f.1 = 0 ∧
      demo.mem.findRegion (effectiveAddr (demo.setX 6 0x17FC#32) 6 0#32).toNat f.1 = some demoRegion ∧
      demoRegion.isNormal = true := by
  refine ⟨demo_wf, fun f hf => ?_⟩
  simp only [storeForms, List.mem_cons, List.not_mem_nil, or_false] at hf
  rcases hf with rfl | rfl | rfl | rfl | rfl | rfl <;> decide

theorem witness_StoresAllocateAGranule :
    demo.mem.wf ∧ demo.mem.granular ∧ ∀ f ∈ storeForms,
      (effectiveAddr (demo.setX 6 0xFFFC#32) 6 0#32).toNat % f.1 = 0 ∧
      demo.mem.findRegion (effectiveAddr (demo.setX 6 0xFFFC#32) 6 0#32).toNat f.1 = none ∧
      (effectiveAddr (demo.setX 6 0xFFFC#32) 6 0#32).toNat / 0x800 * 0x800 + 0x800 ≤ 0x10000 ∧
      ∀ r ∈ demo.mem.regions, ¬ (r.start < 0xF800 + 0x800 ∧ 0xF800 < r.stop) := by
  refine ⟨demo_wf, demo_granular, fun f hf => ?_⟩
  simp only [storeForms, List.mem_cons, List.not_mem_nil, or_false] at hf
  rcases hf with rfl | rfl | rfl | rfl | rfl | rfl <;> decide

theorem witness_StoresToDevices :
    ∀ f ∈ storeForms, (effectiveAddr (demo.setX 6 0x400C#32) 6 0#32).toNat % f.1 = 0 ∧
      demo.mem.findRegion (effectiveAddr (demo.setX 6 0x400C#32) 6 0#32).toNat f.1 = some demoDevice ∧
      demoDevice.backing = .mmio "uart" := by
  intro f hf
  simp only [storeForms, List.mem_cons, List.not_mem_nil, or_false] at hf
  rcases hf with rfl | rfl | rfl | rfl | rfl | rfl <;> decide

theorem witness_MisalignedAccessesAreReported :
    (2, true, Instr.lh) ∈ loadForms ∧ (effectiveAddr (demo.setX 6 0x1001#32) 6 0#32).toNat % 2 ≠ 0 ∧
    (4, Instr.swF6) ∈ storeForms ∧ (effectiveAddr (demo.setX 6 0x1000#32) 6 2#32).toNat % 4 ≠ 0 :=
  ⟨by simp [loadForms], by decide, by simp [storeForms], by decide⟩

theorem witness_StoresThatCannotAllocateFail :
    (4, Instr.sw) ∈ storeForms ∧ demo.mem.wf ∧ demo.mem.granular ∧
    (0x10000 % 4 = 0 ∧ demo.mem.findRegion 0x10000 4 = none ∧ 0x10000 < 0x10000 / 0x800 * 0x800 + 0x800) ∧
    (0x4010 % 4 = 0 ∧ demo.mem.findRegion 0x4010 4 = none ∧
      ∃ r ∈ demo.mem.regions, r.start < 0x4000 + 0x800 ∧ 0x4000 < r.stop) :=
  ⟨by simp [storeForms], demo_wf, demo_granular, by decide, by decide⟩

theorem witness_TrapsComeFromTheTwoWords :
    (∃ t k rec, step (holding 0x00000073#32) = .next t ∧ t.outcome = some (.trap k rec)) ∧
    Fetches (holding 0x00100073#32) 0x00100073#32 (holding 0x00100073#32).mem :=
  ⟨⟨_, _, _, rfl, rfl⟩, by decide, [0x73#8, 0x00#8, 0x10#8, 0x00#8], by decide, by decide⟩

end Sys2Proof.Tests
end

section
/-! PROOFS. The register-file operations at a valid index (spec/10_state.md rules R22 to R29). The byte-view write's filling
with extension bytes (R23) is the sign or zero extension of the bytes' value, in either byte order. -/

namespace Sys2Proof.Machine

/-! ### The value of a buffer, least significant byte first (R100) -/

theorem leVal_eq_ofDigits (bs : List Byte) : leVal bs = Nat.ofDigits 256 (bs.map BitVec.toNat) := by
  induction bs with
  | nil => rfl
  | cons b bs ih => simp [leVal, Nat.ofDigits_cons, ih]

theorem leVal_append (as bs : List Byte) : leVal (as ++ bs) = leVal as + 256 ^ as.length * leVal bs := by
  simp [leVal_eq_ofDigits, Nat.ofDigits_append]

theorem leVal_lt (bs : List Byte) : leVal bs < 2 ^ (8 * bs.length) := by
  rw [leVal_eq_ofDigits, pow_mul]
  have hbyte : ∀ d ∈ bs.map BitVec.toNat, d < 256 := by
    intro d hd
    obtain ⟨b, -, rfl⟩ := List.mem_map.1 hd
    exact b.isLt
  simpa using Nat.ofDigits_lt_base_pow_length (by decide) hbyte

@[simp] theorem leVal_replicate_zero (k : Nat) : leVal (List.replicate k 0x00#8) = 0 := by
  simp [leVal_eq_ofDigits, Nat.ofDigits_replicate_zero]

@[simp] theorem leVal_replicate_ones (k : Nat) : leVal (List.replicate k 0xFF#8) = 256 ^ k - 1 := by
  induction k with
  | zero => rfl
  | succ k ih =>
    have hpos : 0 < 256 ^ k := by positivity
    simp only [List.replicate_succ, leVal, ih, pow_succ, BitVec.toNat_ofNat]
    omega

/-- The top bit of a buffer's value is bit 7 of its last byte. -/
theorem msb_ofNat_leVal {bs : List Byte} (h : bs ≠ []) :
    (BitVec.ofNat (8 * bs.length) (leVal bs)).msb = (bs.getLastD 0).getLsbD 7 := by
  obtain ⟨as, b, rfl⟩ := (List.eq_nil_or_concat bs).resolve_left h
  have hlow := leVal_lt as
  have hval : leVal (as ++ [b]) = leVal as + 2 ^ (8 * as.length) * b.toNat := by
    rw [leVal_append, pow_mul]; simp [leVal]
  have htop : 8 * (as ++ [b]).length - 1 = 8 * as.length + 7 := by simp; omega
  have hb : b.getLsbD 7 = decide (2 ^ 7 ≤ b.toNat) := by
    rw [← BitVec.msb_eq_decide b]; rfl
  rw [List.concat_eq_append, List.getLastD_concat, BitVec.msb_eq_decide, BitVec.toNat_ofNat,
    Nat.mod_eq_of_lt (leVal_lt _), htop, hb, hval, pow_add]
  have hpos : 0 < 2 ^ (8 * as.length) := by positivity
  rw [mul_comm (2 ^ _) (2 ^ 7), decide_eq_decide, ← Nat.le_div_iff_mul_le hpos, Nat.add_mul_div_left _ _ hpos,
    Nat.div_eq_of_lt hlow, zero_add]

namespace RegFile

variable {w n : Nat}

/-! ### The extension of a byte-view write (R23) -/

theorem msbByte_big (bs : List Byte) : msbByte .big bs = msbByte .little bs.reverse := by
  simp [msbByte, List.headD_eq_head?_getD, List.getLastD_eq_getLast?]

/-- Filling in big order is filling the reversed buffer in little order. -/
theorem valOf_extend_big (b : Nat) (bs : List Byte) (signed : Bool) :
    valOf .big (extend .big b bs signed) = leVal (extend .little b bs.reverse signed) := by
  simp [valOf, extend, extByte, msbByte_big]

/-- The filling adds nothing, or every bit above the buffer's own. -/
theorem leVal_extend_little {b : Nat} {bs : List Byte} (signed : Bool) (hle : bs.length ≤ b) :
    leVal (extend .little b bs signed) =
      leVal bs + if signed && (msbByte .little bs).getLsbD 7 then 2 ^ (8 * b) - 2 ^ (8 * bs.length) else 0 := by
  simp only [extend, extByte, leVal_append]
  split
  · rw [leVal_replicate_ones, Nat.mul_sub, ← pow_add, Nat.add_sub_cancel' hle, mul_one, pow_mul, pow_mul]
    norm_num
  · rw [leVal_replicate_zero, mul_zero]

theorem ofNat_leVal_extend_little {b : Nat} {bs : List Byte} (signed : Bool) (h0 : 0 < bs.length)
    (hle : bs.length ≤ b) :
    BitVec.ofNat (8 * b) (leVal (extend .little b bs signed)) =
      if signed then (BitVec.ofNat (8 * bs.length) (leVal bs)).signExtend (8 * b)
      else (BitVec.ofNat (8 * bs.length) (leVal bs)).setWidth (8 * b) := by
  have hlt := leVal_lt bs
  have hwide : 2 ^ (8 * bs.length) ≤ 2 ^ (8 * b) := Nat.pow_le_pow_right (by decide) (by omega)
  apply BitVec.eq_of_toNat_eq
  rw [leVal_extend_little signed hle]
  cases signed with
  | false => simp [Nat.mod_eq_of_lt hlt]
  | true =>
    have hmsb : (BitVec.ofNat (8 * bs.length) (leVal bs)).msb = (msbByte .little bs).getLsbD 7 :=
      msb_ofNat_leVal (List.ne_nil_of_length_pos h0)
    rw [← hmsb, if_pos rfl, BitVec.toNat_signExtend, BitVec.toNat_setWidth, BitVec.toNat_ofNat, BitVec.toNat_ofNat,
      Bool.true_and, Nat.mod_eq_of_lt hlt, Nat.mod_eq_of_lt (hlt.trans_le hwide)]
    apply Nat.mod_eq_of_lt
    split <;> omega

/-- A byte-view write's value is the sign- or zero-extended value of the bytes (R23). -/
theorem extendValue_eq (h8 : 8 ∣ w) (e : Endian) (bs : List Byte) (signed : Bool) (h0 : 0 < bs.length)
    (hle : bs.length ≤ w / 8) :
    extendValue w e bs signed =
      if signed then (BitVec.ofNat (8 * bs.length) (valOf e bs)).signExtend w
      else (BitVec.ofNat (8 * bs.length) (valOf e bs)).setWidth w := by
  obtain ⟨b, rfl⟩ := h8
  have hb : slotBytes (8 * b) = b := by simp [slotBytes]
  rw [Nat.mul_div_cancel_left b (by decide)] at hle
  unfold extendValue
  rw [hb]
  cases e with
  | little => exact ofNat_leVal_extend_little signed h0 hle
  | big =>
    have hrev := List.length_reverse (as := bs)
    have h := ofNat_leVal_extend_little (bs := bs.reverse) signed (hrev.symm ▸ h0) (hrev.symm ▸ hle)
    rw [hrev] at h
    rw [valOf_extend_big, h]
    rfl

/-! ### Each operation at a valid index (R22 to R25, R27) -/

variable (f : RegFile w n) (i j : Fin n)

theorem read_fin : f.read i.val = .ok (bytesOf f.endian (f.slot i).toNat (w / 8)) := by
  simp [read, slotBytes]

theorem readValue_fin (signed : Bool) :
    f.readValue i.val signed = .ok (if signed then (f.slot i).toInt else ((f.slot i).toNat : Int)) := by
  simp [readValue]

theorem writeValue_fin {v : Int} {signed : Bool} (h : inRange w v signed = true) :
    f.writeValue i.val v signed = .ok (f.setSlot i (BitVec.ofInt w v)) := by
  simp [writeValue, h]

theorem write_fin {bs : List Byte} (signed : Bool) (h0 : 0 < bs.length) (hle : bs.length ≤ w / 8) :
    f.write i.val bs signed = .ok (f.setSlot i (extendValue w f.endian bs signed)) := by
  simp [write, slotBytes, Nat.not_lt.2 hle, Nat.ne_of_gt h0]

theorem copyRegister_fin : f.copyRegister i.val j.val = .ok (f.setSlot i (f.slot j)) := by
  simp [copyRegister]

/-! ### A value-view write of a slot value's own integer (R25) -/

theorem inRange_toNat (v : BitVec w) : inRange w v.toNat false = true := by
  have h : (v.toNat : Int) < 2 ^ w := by exact_mod_cast v.isLt
  simp [inRange, h]

theorem inRange_toInt (v : BitVec w) : inRange w v.toInt true = true := by
  simp [inRange, BitVec.le_toInt, BitVec.toInt_lt]

theorem writeValue_toNat (v : BitVec w) : f.writeValue i.val v.toNat false = .ok (f.setSlot i v) := by
  rw [writeValue_fin f i (inRange_toNat v), BitVec.ofInt_natCast, BitVec.ofNat_toNat, BitVec.setWidth_eq]

theorem writeValue_toInt (v : BitVec w) : f.writeValue i.val v.toInt true = .ok (f.setSlot i v) := by
  rw [writeValue_fin f i (inRange_toInt v), BitVec.ofInt_toInt]

end RegFile

/-- A byte-view write to a 32-bit file gives the slot the word a load of the same bytes delivers (R23, R293 to R298). -/
theorem RegFile.extendValue_eq_loadedWord (e : Endian) {bs : List Byte} (signed : Bool) (h0 : 0 < bs.length)
    (hle : bs.length ≤ 4) : RegFile.extendValue 32 e bs signed = loadedWord e bs.length signed bs :=
  RegFile.extendValue_eq (by decide) e bs signed h0 hle

/-- Settles O3: no operation's result at a valid index depends on which index it is, and `setX` discards a write of x0. -/
theorem slotZeroIsOrdinaryInTheRegisterFile : Obligations.SlotZeroIsOrdinaryInTheRegisterFile := by
  unfold Obligations.SlotZeroIsOrdinaryInTheRegisterFile
  refine ⟨fun f i j v bs signed h0 hle => ?_, State.setX_zero⟩
  have hwrite : f.write i.val bs signed = .ok (f.setSlot i (loadedWord f.endian bs.length signed bs)) := by
    rw [f.write_fin i signed h0 hle, RegFile.extendValue_eq_loadedWord f.endian signed h0 hle]
  exact ⟨f.read_fin i, f.readValue_fin i false, f.readValue_fin i true, f.writeValue_toNat i v, f.writeValue_toInt i v,
    hwrite, f.copyRegister_fin i j⟩

end Sys2Proof.Machine
end

section
/-! PROOFS. The memory statements of one access (spec/20_memory.md): the byte-order conversions are inverse to each other
(R100), `findRegion` gives the one region that contains the access (R71), a read that finds none fails up to the step's
result (R72), and a region's own read and write act on exactly their bytes (R68). -/

namespace Sys2Proof.Machine

/-! ### Bytes and values (R100) -/

theorem two_pow_eight_mul_succ (n : Nat) : 2 ^ (8 * (n + 1)) = 256 * 2 ^ (8 * n) := by ring

/-- In little order the byte of weight `2^(8k)` is the one at offset `k`. -/
theorem leVal_div_mod (bs : List Byte) (k : Nat) (hk : k < bs.length) : leVal bs / 2 ^ (8 * k) % 256 = bs[k].toNat := by
  induction bs generalizing k with
  | nil => simp at hk
  | cons b bs ih =>
    have hb := b.isLt
    cases k with
    | zero =>
      simp only [leVal, Nat.mul_zero, pow_zero, Nat.div_one, List.getElem_cons_zero]
      omega
    | succ k =>
      have hrest : (b.toNat + 256 * leVal bs) / 256 = leVal bs := by omega
      rw [leVal, two_pow_eight_mul_succ, ← Nat.div_div_eq_div_mul, hrest, ih k (by simpa using hk),
        List.getElem_cons_succ]

theorem leBytes_leVal (bs : List Byte) : leBytes (leVal bs) bs.length = bs := by
  induction bs with
  | nil => rfl
  | cons b bs ih =>
    have hb := b.isLt
    have hhead : BitVec.ofNat 8 (b.toNat + 256 * leVal bs) = b :=
      BitVec.eq_of_toNat_eq (by rw [BitVec.toNat_ofNat]; omega)
    have htail : (b.toNat + 256 * leVal bs) / 256 = leVal bs := by omega
    rw [leVal, List.length_cons, leBytes, hhead, htail, ih]

theorem leVal_leBytes (v n : Nat) : leVal (leBytes v n) = v % 2 ^ (8 * n) := by
  induction n generalizing v with
  | zero => simp [leBytes, leVal, Nat.mod_one]
  | succ n ih =>
    rw [leBytes, leVal, ih, BitVec.toNat_ofNat, two_pow_eight_mul_succ, Nat.mod_mul]

theorem valOf_lt (e : Endian) (bs : List Byte) : valOf e bs < 2 ^ (8 * bs.length) := by
  cases e with
  | little => exact leVal_lt bs
  | big => simpa [valOf] using leVal_lt bs.reverse

theorem bytesOf_valOf (e : Endian) (bs : List Byte) : bytesOf e (valOf e bs) bs.length = bs := by
  cases e with
  | little => exact leBytes_leVal bs
  | big =>
    have h := leBytes_leVal bs.reverse
    rw [List.length_reverse] at h
    rw [bytesOf, valOf, h, List.reverse_reverse]

theorem valOf_bytesOf (e : Endian) (v n : Nat) : valOf e (bytesOf e v n) = v % 2 ^ (8 * n) := by
  cases e with
  | little => exact leVal_leBytes v n
  | big => rw [bytesOf, valOf, List.reverse_reverse, leVal_leBytes]

/-- Settles O6: both byte orders are the little-order conversion, in big order of the reversed buffer. -/
theorem byteOrderConversions : Obligations.ByteOrderConversions := by
  unfold Obligations.ByteOrderConversions
  refine fun n _ => ⟨?_, ?_, fun e v => ⟨bytesOf_length e v n, valOf_bytesOf e v n⟩⟩
  · rintro bs rfl k hk
    refine ⟨leVal_div_mod bs k hk, ?_⟩
    rw [valOf, leVal_div_mod bs.reverse k (by simpa using hk), List.getElem_reverse]
  · rintro e bs rfl
    exact ⟨valOf_lt e bs, bytesOf_valOf e bs⟩

/-! ### Lookup (R71) -/

namespace Memory

variable {m : Memory}

/-- Regions of a well-formed memory that share an address are one region (R65). -/
theorem wf.eq_of_common_address (h : m.wf) {r q : Region} (hr : r ∈ m.regions) (hq : q ∈ m.regions) {a : Nat}
    (hra : r.start ≤ a ∧ a < r.stop) (hqa : q.start ≤ a ∧ a < q.stop) : q = r := by
  by_contra hne
  have hpair : m.regions.Pairwise fun x y => x.stop ≤ y.start ∨ y.stop ≤ x.start := h.2.1.imp Or.inl
  have hsep := @List.Pairwise.forall _ _ _ ⟨fun _ _ => Or.symm⟩ hpair _ hq _ hr hne
  omega

theorem wf.cells_sorted (h : m.wf) {r : Region} (hr : r ∈ m.regions) : CellsSorted r.cells :=
  have ⟨_, _, _, _, hsorted, _⟩ := h.2.2 r hr
  hsorted

theorem wf.eq_of_contain (h : m.wf) {r q : Region} (hr : r ∈ m.regions) (hq : q ∈ m.regions) {addr size : Nat}
    (hs : 0 < size) (hrc : r.start ≤ addr ∧ addr + size ≤ r.stop) (hqc : q.start ≤ addr ∧ addr + size ≤ q.stop) :
    q = r :=
  h.eq_of_common_address hr hq (a := addr) (by omega) (by omega)

theorem findRegion_eq_none_iff {addr size : Nat} :
    m.findRegion addr size = none ↔ ∀ r ∈ m.regions, ¬ (r.start ≤ addr ∧ addr + size ≤ r.stop) := by
  simp [findRegion, Region.holds]

theorem wf.findRegion_eq_some_iff (h : m.wf) {addr size : Nat} (hs : 0 < size) {r : Region} :
    m.findRegion addr size = some r ↔ r ∈ m.regions ∧ r.start ≤ addr ∧ addr + size ≤ r.stop := by
  refine ⟨find_region_spec, fun ⟨hr, hrc⟩ => ?_⟩
  cases hf : m.findRegion addr size with
  | none => exact absurd hrc (findRegion_eq_none_iff.1 hf r hr)
  | some q =>
    obtain ⟨hq, hqc⟩ := find_region_spec hf
    rw [h.eq_of_contain hr hq hs hrc hqc]

theorem validSize_iff {size : Nat} : validSize size = true ↔ size ∈ [1, 2, 4, 8] := by
  simp [validSize, or_assoc]

/-- A read that passes its own checks and finds no region fails (R72). -/
theorem read_of_findRegion_none {addr size : Nat} (hv : size ∈ [1, 2, 4, 8]) (ha : addr % size = 0)
    (hf : m.findRegion addr size = none) : m.read addr size = .error .regionError := by
  simp [read, validSize_iff.2 hv, ha, hf]

end Memory

/-- Settles O8: two regions that contain one access would share an address, against R65, so the one found is the only one. -/
theorem findRegionIsTheContainingRegion : Obligations.FindRegionIsTheContainingRegion := by
  unfold Obligations.FindRegionIsTheContainingRegion
  refine fun m addr size h hs => ⟨fun r => h.findRegion_eq_some_iff hs,
    fun r hr q hq => h.eq_of_contain hr hq hs, fun hv ha hno => ?_⟩
  have hf := Memory.findRegion_eq_none_iff.2 hno
  exact ⟨hf, Memory.read_of_findRegion_none hv ha hf⟩

/-! ### Reads of unbacked bytes by the core (R72) -/

/-- A step whose PC no region covers ends with `RegionError`, the state unchanged. -/
theorem step_of_pc_unbacked {s : State} (hp : s.pc.toNat % 4 = 0) (hf : s.mem.findRegion s.pc.toNat 4 = none) :
    step s = .fault (.regionError s.pc.toNat 4 s) := by
  have ha : aligned s.pc 4 = true := by simp [aligned, hp]
  have hread := Memory.read_of_findRegion_none (by decide) hp hf
  obtain ⟨h, -⟩ | ⟨-, e, he, hs⟩ | ⟨-, bs, m, hr, -⟩ := step_cases s
  · rw [ha] at h; cases h
  · rw [hread] at he; cases he; exact hs
  · rw [hread] at hr; cases hr

/-- A step that fetched the word of an instruction runs that instruction on the state the fetch leaves (R180, R186). -/
theorem step_of_fetches {s : State} {w : Word} {m : Memory} {i : Instr} (hw : Fetches s w m)
    (hd : decodeWord w = .ok i) : step s = exec i (s.withMem m) := by
  obtain ⟨hp, bs, hread, rfl⟩ := hw
  have ha : aligned s.pc 4 = true := by simp [aligned, hp]
  have hdec := decodeInstr_eq_decodeWord s.endian s.pc (Memory.read_length hread)
  rw [hd] at hdec
  obtain ⟨h, -⟩ | ⟨-, e, he, -⟩ | ⟨-, bs', m', hr, ⟨d, he, -⟩ | ⟨j, hj, hs⟩⟩ := step_cases s
  · rw [ha] at h; cases h
  · rw [hread] at he; cases he
  · rw [hread] at hr; cases hr; rw [hdec] at he; cases he
  · rw [hread] at hr; cases hr; rw [hdec] at hj; cases hj; exact hs

/-- A load runs the shared load operation with its form's width and extension (R292). -/
theorem exec_loadForm {f : Nat × Bool × (Reg → Reg → Word → Instr)} (hf : f ∈ loadForms) (s : State) (rd rs1 : Reg)
    (imm : Word) : exec (f.2.2 rd rs1 imm) s = load s f.1 f.2.1 rd rs1 imm := by
  simp only [loadForms, List.mem_cons, List.not_mem_nil, or_false] at hf
  rcases hf with rfl | rfl | rfl | rfl | rfl | rfl <;> rfl

theorem validSize_of_mem_loadForms : ∀ f ∈ loadForms, f.1 ∈ [1, 2, 4, 8] := by simp [loadForms]

/-- An aligned load from an address no region covers ends with `RegionError`, the state unchanged. -/
theorem load_of_unbacked {s : State} {n : Nat} {signed : Bool} {rd rs1 : Reg} {imm : Word} (hv : n ∈ [1, 2, 4, 8])
    (ha : (effectiveAddr s rs1 imm).toNat % n = 0)
    (hf : s.mem.findRegion (effectiveAddr s rs1 imm).toNat n = none) :
    load s n signed rd rs1 imm = .fault (.regionError (effectiveAddr s rs1 imm).toNat n s) := by
  have hread := memRead_of_read_error (Memory.read_of_findRegion_none hv ha hf)
  simp [load, aligned, ha, hread, faultOf]

/-- Settles O9: the memory's `RegionError` reaches the core's result by the fetch and by the shared load operation. -/
theorem unbackedReadsFail : Obligations.UnbackedReadsFail := by
  unfold Obligations.UnbackedReadsFail
  refine ⟨fun m addr size => Memory.read_of_findRegion_none, fun s => step_of_pc_unbacked,
    fun f hmem s rd rs1 imm ha hf => ?_⟩
  have hexec : exec (f.2.2 rd rs1 imm) s = .fault (.regionError (effectiveAddr s rs1 imm).toNat f.1 s) := by
    rw [exec_loadForm hmem, load_of_unbacked (validSize_of_mem_loadForms f hmem) ha hf]
  refine ⟨hexec, fun u w m hw hd hs => ?_⟩
  rw [step_of_fetches hw hd, ← hs, hexec]

/-! ### Region-local access (R68) -/

theorem getElem?_cellsRead (cs : List Host.Cell) (a : Nat) {k n : Nat} (hk : k < n) :
    (cellsRead cs a n)[k]? = some (cellsGet cs (a + k)) := by
  simp [cellsRead, hk]

/-- The region is a NormalRegion that covers the address and holds the byte there (R66). -/
def Region.HoldsByte (r : Region) (a : Nat) (b : Byte) : Prop :=
  r.isNormal = true ∧ (r.start ≤ a ∧ a < r.stop) ∧ cellsGet r.cells a = b

namespace Memory

variable {m : Memory}

/-- The byte at an address is the one a region of the memory holds there. -/
theorem wf.byteAt_eq_some_iff (h : m.wf) {a : Nat} {b : Byte} :
    m.byteAt a = some b ↔ ∃ r ∈ m.regions, r.HoldsByte a b := by
  unfold byteAt
  constructor
  · intro hb
    split at hb
    · rename_i r hf
      split at hb
      · obtain ⟨hr, hlo, hhi⟩ := find_region_spec hf
        exact ⟨r, hr, ‹_›, ⟨hlo, hhi⟩, Option.some.inj hb⟩
      · cases hb
    · cases hb
  · rintro ⟨r, hr, hn, ⟨hlo, hhi⟩, hb⟩
    rw [(h.findRegion_eq_some_iff Nat.one_pos).2 ⟨hr, hlo, hhi⟩]
    simp [hn, hb]

/-! #### `putBytes` and the bytes of its region -/

theorem putBytes_cells {addr : Nat} {data : List Byte} {r : Region} (hn : r.isNormal = true) :
    (putBytes addr data r).cells = cellsSetMany r.cells addr data := by
  obtain ⟨start, size, cs | name⟩ := r
  · rfl
  · cases hn

/-- Outside the bytes put a region holds what it held. -/
theorem putBytes_holdsByte_out {addr a : Nat} {data : List Byte} {r : Region} {b : Byte} (hc : CellsSorted r.cells)
    (ha : a < addr ∨ addr + data.length ≤ a) : (putBytes addr data r).HoldsByte a b ↔ r.HoldsByte a b := by
  unfold Region.HoldsByte
  rw [putBytes_isNormal, putBytes_start, putBytes_stop]
  refine and_congr_right fun hn => ?_
  rw [putBytes_cells hn, cellsGet_cellsSetMany_out _ _ _ hc ha]

/-- Each byte put is the byte the region then holds. -/
theorem putBytes_holdsByte_in {addr k : Nat} {data : List Byte} {r : Region} (hc : CellsSorted r.cells)
    (hn : r.isNormal = true) (hr : r.start ≤ addr ∧ addr + data.length ≤ r.stop) (hk : k < data.length) :
    (putBytes addr data r).HoldsByte (addr + k) data[k] := by
  refine ⟨by rwa [putBytes_isNormal], ?_, ?_⟩
  · rw [putBytes_start, putBytes_stop]; omega
  · rw [putBytes_cells hn, cellsGet_cellsSetMany_in _ _ _ hc hk]

/-! #### Out of range, in a NormalRegion, on a device -/

section
variable {r : Region} {addr size : Nat} {data : List Byte}

theorem regionRead_out_of_range (h : ¬ (r.start ≤ addr ∧ addr + size ≤ r.stop)) :
    m.regionRead r addr size = .error .regionError := by
  simp [regionRead, Region.holds, h]

theorem regionWrite_out_of_range (h : ¬ (r.start ≤ addr ∧ addr + size ≤ r.stop)) :
    m.regionWrite r addr size data = .error .regionError := by
  simp [regionWrite, Region.holds, h]

theorem regionRead_normal (hr : r.start ≤ addr ∧ addr + size ≤ r.stop) (hn : r.isNormal = true) :
    m.regionRead r addr size = .ok (cellsRead r.cells addr size, m) := by
  obtain ⟨start, len, cs | name⟩ := r
  · simp [regionRead, Region.holds, hr, Region.cells]
  · cases hn

theorem regionWrite_normal (hr : r.start ≤ addr ∧ addr + size ≤ r.stop) (hn : r.isNormal = true) :
    m.regionWrite r addr size data =
      .ok { m with regions := updateFirst (fun q => q.holds addr size) (putBytes addr data) m.regions } := by
  obtain ⟨start, len, cs | name⟩ := r
  · simp [regionWrite, Region.holds, hr]
  · cases hn

theorem regionRead_device {name : String} (hr : r.start ≤ addr ∧ addr + size ≤ r.stop) (hb : r.backing = .mmio name) :
    m.regionRead r addr size = .ok (m.deviceRead name addr size) := by
  simp [regionRead, Region.holds, hr, hb]

theorem regionWrite_device {name : String} (hr : r.start ≤ addr ∧ addr + size ≤ r.stop)
    (hb : r.backing = .mmio name) :
    m.regionWrite r addr size data = .ok (m.deviceWrite name addr size data) := by
  simp [regionWrite, Region.holds, hr, hb]

end

/-! #### The bytes of the memory around a region's own access -/

section
variable {r : Region} (h : m.wf) (hr : r ∈ m.regions) (hn : r.isNormal = true)
include h hr hn

theorem wf.byteAt_of_mem {a : Nat} (ha : r.start ≤ a ∧ a < r.stop) : m.byteAt a = some (cellsGet r.cells a) :=
  h.byteAt_eq_some_iff.2 ⟨r, hr, hn, ha, rfl⟩

/-- A region's own write puts the data in the region named and leaves every other region as it is. -/
theorem wf.mem_regions_regionWrite {addr : Nat} {data : List Byte} (hd : 0 < data.length)
    (hrc : r.start ≤ addr ∧ addr + data.length ≤ r.stop) {m' : Memory}
    (hm : m.regionWrite r addr data.length data = .ok m') (q : Region) :
    q ∈ m'.regions ↔ q = putBytes addr data r ∨ (q ∈ m.regions ∧ q ≠ r) := by
  rw [regionWrite_normal hrc hn] at hm
  cases hm
  exact mem_updateFirst_iff h.nodup hr (by simpa [Region.holds] using hrc)
    (fun a ha hac => h.eq_of_contain hr ha hd hrc (by simpa [Region.holds] using hac)) q

theorem wf.byteAt_regionWrite_in {addr : Nat} {data : List Byte}
    (hrc : r.start ≤ addr ∧ addr + data.length ≤ r.stop) {m' : Memory}
    (hm : m.regionWrite r addr data.length data = .ok m') {k : Nat} (hk : k < data.length) :
    m'.byteAt (addr + k) = data[k]? := by
  have hc := h.cells_sorted hr
  rw [List.getElem?_eq_getElem hk]
  refine (regionWrite_wf h rfl hm).1.byteAt_eq_some_iff.2 ⟨putBytes addr data r, ?_, ?_⟩
  · exact (h.mem_regions_regionWrite hr hn (by omega) hrc hm _).2 (.inl rfl)
  · exact putBytes_holdsByte_in hc hn hrc hk

theorem wf.byteAt_regionWrite_out {addr : Nat} {data : List Byte} (hd : 0 < data.length)
    (hrc : r.start ≤ addr ∧ addr + data.length ≤ r.stop) {m' : Memory}
    (hm : m.regionWrite r addr data.length data = .ok m') {a : Nat} (ha : a < addr ∨ addr + data.length ≤ a) :
    m'.byteAt a = m.byteAt a := by
  have hc := h.cells_sorted hr
  have hmem := h.mem_regions_regionWrite hr hn hd hrc hm
  ext b
  rw [(regionWrite_wf h rfl hm).1.byteAt_eq_some_iff, h.byteAt_eq_some_iff]
  constructor
  · rintro ⟨q, hq, hb⟩
    rcases (hmem q).1 hq with rfl | ⟨hq, -⟩
    · exact ⟨r, hr, (putBytes_holdsByte_out hc ha).1 hb⟩
    · exact ⟨q, hq, hb⟩
  · rintro ⟨q, hq, hb⟩
    by_cases hqr : q = r
    · subst hqr
      exact ⟨_, (hmem _).2 (.inl rfl), (putBytes_holdsByte_out hc ha).2 hb⟩
    · exact ⟨q, (hmem q).2 (.inr ⟨hq, hqr⟩), hb⟩

end

end Memory

/-- Settles O11: by the variant of the region; a NormalRegion's write puts the bytes in the one region that contains them. -/
theorem regionLocalAccess : Obligations.RegionLocalAccess := by
  unfold Obligations.RegionLocalAccess
  rintro m r addr size data h hr hs rfl
  refine ⟨fun hout => ⟨Memory.regionRead_out_of_range hout, Memory.regionWrite_out_of_range hout⟩,
    fun hlo hhi hn => ⟨?_, ?_⟩, fun name hlo hhi hb => ⟨?_, ?_⟩⟩
  · refine ⟨_, Memory.regionRead_normal ⟨hlo, hhi⟩ hn, cellsRead_length _ _ _, fun k hk => ?_⟩
    rw [getElem?_cellsRead _ _ hk, h.byteAt_of_mem hr hn (by omega)]
  · have hw := Memory.regionWrite_normal (m := m) (data := data) ⟨hlo, hhi⟩ hn
    exact ⟨_, hw, fun k => h.byteAt_regionWrite_in hr hn ⟨hlo, hhi⟩ hw,
      fun a => h.byteAt_regionWrite_out hr hn hs ⟨hlo, hhi⟩ hw, rfl⟩
  · exact ⟨_, _, Memory.regionRead_device ⟨hlo, hhi⟩ hb, by simp [Memory.deviceAnswer], rfl, _, rfl, rfl, rfl, rfl, rfl,
      rfl⟩
  · exact ⟨_, Memory.regionWrite_device ⟨hlo, hhi⟩ hb, rfl, _, rfl, rfl, rfl, rfl, rfl, rfl⟩

end Sys2Proof.Machine
end

section
/-! PROOFS. The decoder's record (spec/30_encoding.md rules R141, R142): what `decodeRecord` accepts, and its fixed fields as
bits of the buffer's value (R100). -/

namespace Sys2Proof.Machine

/-! ### The word of a buffer (R141) -/

theorem wordOf_toNat (e : Endian) {buf : List Byte} (h : buf.length = 4) : (wordOf e buf).toNat = valOf e buf := by
  have hlt := valOf_lt e buf
  rw [h] at hlt
  rw [wordOf, BitVec.toNat_ofNat, Nat.mod_eq_of_lt hlt]

theorem toNat_extractLsb'_wordOf (e : Endian) {buf : List Byte} (h : buf.length = 4) (lo len : Nat) :
    ((wordOf e buf).extractLsb' lo len).toNat = valOf e buf / 2 ^ lo % 2 ^ len := by
  rw [BitVec.extractLsb'_toNat, wordOf_toNat e h, Nat.shiftRight_eq_div_pow]

theorem regOf_val (b : BitVec 5) : (regOf b).val = b.toNat := rfl

/-! ### What the decoder accepts (R141, R142) -/

/-- The decoder accepts exactly the 4-byte buffers whose word ends in `0b11`, with that word's record (R141). -/
theorem decodeRecord_eq_ok_iff {e : Endian} {pc : Word} {buf : List Byte} {r : InstRecord} :
    decodeRecord e pc buf = .ok r ↔
      buf.length = 4 ∧ (wordOf e buf).extractLsb' 0 2 = 0b11#2 ∧ r = recordOf pc (wordOf e buf) := by
  unfold decodeRecord
  by_cases hlen : buf.length = 4
  · by_cases hlow : (wordOf e buf).extractLsb' 0 2 = 0b11#2
    · simp [hlen, hlow, eq_comm]
    · simp [hlen, hlow]
  · simp [hlen]

/-- Settles O23: an accepted record is the one of the buffer's word, whose fields are bits of the buffer's value. -/
theorem recordFixedFields : Obligations.RecordFixedFields := by
  unfold Obligations.RecordFixedFields
  intro e pc buf r h
  obtain ⟨hlen, -, rfl⟩ := decodeRecord_eq_ok_iff.1 h
  have hfield := toNat_extractLsb'_wordOf e hlen
  exact ⟨hfield 2 5, (regOf_val _).trans (hfield 7 5), hfield 12 3, (regOf_val _).trans (hfield 15 5),
    (regOf_val _).trans (hfield 20 5), hfield 25 7⟩

end Sys2Proof.Machine
end

section
/-! PROOFS. The fetch of a step (spec/40_core_step.md rules R180 to R186): at an aligned PC it is one 4-byte read, which the
region found decides, and the step works on the word and the state it leaves. -/

namespace Sys2Proof.Machine

/-! ### The fetch is a read (R180, R182) -/

section
variable {s t : State} {bs : List Byte} {m : Memory}

theorem aligned_eq_true_iff {ea : Word} {n : Nat} : aligned ea n = true ↔ ea.toNat % n = 0 := by simp [aligned]

theorem fetch_of_read_ok (hp : s.pc.toNat % 4 = 0) (hr : s.mem.read s.pc.toNat 4 = .ok (bs, m)) :
    fetch s = .bytes bs (s.withMem m) := by
  simp [fetch, aligned_eq_true_iff.2 hp, memRead_of_read_ok hr]

theorem fetch_of_read_error {e : MemError} (hp : s.pc.toNat % 4 = 0) (hr : s.mem.read s.pc.toNat 4 = .error e) :
    fetch s = .ended (.fault (faultOf e s.pc.toNat 4 s)) := by
  simp [fetch, aligned_eq_true_iff.2 hp, memRead_of_read_error hr]

/-- A fetch that gives bytes has read them at an aligned PC, and leaves the state but for the memory the read leaves. -/
theorem fetch_eq_bytes_iff : fetch s = .bytes bs t ↔
    s.pc.toNat % 4 = 0 ∧ ∃ m, s.mem.read s.pc.toNat 4 = .ok (bs, m) ∧ t = s.withMem m := by
  constructor
  · intro h
    by_cases hp : s.pc.toNat % 4 = 0
    · cases hr : s.mem.read s.pc.toNat 4 with
      | error e => rw [fetch_of_read_error hp hr] at h; cases h
      | ok p => rw [fetch_of_read_ok hp hr] at h; cases h; exact ⟨hp, p.2, rfl, rfl⟩
    · have ha : aligned s.pc 4 = false := Bool.eq_false_iff.2 (mt aligned_eq_true_iff.1 hp)
      simp [fetch, ha] at h
  · rintro ⟨hp, m, hr, rfl⟩
    exact fetch_of_read_ok hp hr

theorem fetches_of_fetch_eq_bytes (h : fetch s = .bytes bs t) :
    ∃ m, t = s.withMem m ∧ Fetches s (wordOf s.endian bs) m := by
  obtain ⟨hp, m, hr, ht⟩ := fetch_eq_bytes_iff.1 h
  exact ⟨m, ht, hp, bs, hr, rfl⟩

end

/-- A step that fetched a word that is no instruction reports it (R183, R185, R186, R354). -/
theorem step_of_fetches_illegal {s : State} {w : Word} {m : Memory} {d : DecodeRefusal} (hw : Fetches s w m)
    (hd : decodeWord w = .error d) : step s = .next ((s.withMem m).report (.illegalInst s.pc w)) := by
  obtain ⟨hp, bs, hr, rfl⟩ := hw
  have hdec := decodeInstr_eq_decodeWord s.endian s.pc (Memory.read_length hr)
  simp [step, fetch_of_read_ok hp hr, hdec, hd, raiseIllegal, raise]

/-! ### What a read of the region found gives (R68, R70) -/

namespace Memory

variable {m : Memory} {addr size : Nat} {r : Region}

theorem read_of_findRegion_some (hv : size ∈ [1, 2, 4, 8]) (ha : addr % size = 0)
    (hf : m.findRegion addr size = some r) : m.read addr size = m.regionRead r addr size := by
  simp [read, validSize_iff.2 hv, ha, hf]

theorem read_of_findRegion_normal (hv : size ∈ [1, 2, 4, 8]) (ha : addr % size = 0)
    (hf : m.findRegion addr size = some r) (hn : r.isNormal = true) :
    m.read addr size = .ok (cellsRead r.cells addr size, m) := by
  rw [read_of_findRegion_some hv ha hf, regionRead_normal (find_region_spec hf).2 hn]

theorem read_of_findRegion_device {name : String} (hv : size ∈ [1, 2, 4, 8]) (ha : addr % size = 0)
    (hf : m.findRegion addr size = some r) (hb : r.backing = .mmio name) :
    m.read addr size = .ok (m.deviceRead name addr size) := by
  rw [read_of_findRegion_some hv ha hf, regionRead_device (find_region_spec hf).2 hb]

end Memory

/-- Settles O29: the fetch gives what the read of the region found gives, and the step decodes the word of those bytes. -/
theorem fetchReadsFourBytesAtThePc : Obligations.FetchReadsFourBytesAtThePc := by
  unfold Obligations.FetchReadsFourBytesAtThePc
  intro s hp
  refine ⟨fun hf => ?unbacked, fun r hf hn => ?normal, fun r name hf hb => ?device, fun bs t h => ?step⟩
  case unbacked =>
    exact ⟨fetch_of_read_error hp (Memory.read_of_findRegion_none (by decide) hp hf), step_of_pc_unbacked hp hf⟩
  case normal => exact fetch_of_read_ok hp (Memory.read_of_findRegion_normal (by decide) hp hf hn)
  case device =>
    have hr := Memory.read_of_findRegion_device (by decide) hp hf hb
    exact ⟨_, _, fetch_of_read_ok hp hr, Memory.read_length hr, rfl, ⟨rfl, rfl, rfl⟩, _, rfl, rfl, rfl, rfl, rfl, rfl⟩
  case step =>
    obtain ⟨m, rfl, hw⟩ := fetches_of_fetch_eq_bytes h
    exact ⟨fun i => step_of_fetches hw, fun d => step_of_fetches_illegal hw⟩

end Sys2Proof.Machine
end

section
/-! PROOFS. The right shifts of OP_IMM (spec/30_encoding.md rules R140 to R154; R210): what the 7-bit opcode says of the
record, where it sends the selection, and what `imm[11:5]` selects there. -/

namespace Sys2Proof.Machine

/-! ### The opcode of a word (R140, R144, R151) -/

theorem extractLsb'_extractLsb'_zero {v lo len : Nat} (w : BitVec v) (n : Nat) (h : lo + len ≤ n) :
    (w.extractLsb' 0 n).extractLsb' lo len = w.extractLsb' lo len := by
  ext i hi
  have hn : lo + i < n := by omega
  simp [hn]

section
variable {w : Word} {opc : BitVec 5}

theorem extractLsb'_low_of_opcode (h : w.extractLsb' 0 7 = opcode opc) : w.extractLsb' 0 2 = 0b11#2 := by
  rw [← extractLsb'_extractLsb'_zero w 7 (by decide), h, opcode, BitVec.extractLsb'_append_eq_right]

theorem extractLsb'_base_of_opcode (h : w.extractLsb' 0 7 = opcode opc) : w.extractLsb' 2 5 = opc := by
  rw [← extractLsb'_extractLsb'_zero w 7 (by decide), h, opcode, BitVec.extractLsb'_append_eq_left]

theorem decodeWord_of_opcode (h : w.extractLsb' 0 7 = opcode opc) : decodeWord w = selectInstr (recordOf 0 w) := by
  simp [decodeWord, extractLsb'_low_of_opcode h]

end

/-- A word's register field, as a number of the word (R142). -/
theorem regOf_extractLsb'_val (w : Word) (lo : Nat) : (regOf (w.extractLsb' lo 5)).val = w.toNat / 2 ^ lo % 32 := by
  rw [regOf_val, BitVec.extractLsb'_toNat, Nat.shiftRight_eq_div_pow]

/-! ### The selection of the right shifts (R152, R210) -/

theorem selectInstr_opImm {r : InstRecord} (h : r.baseOpcode = opcOpImm) : selectInstr r = selectOpImm r := by
  rw [selectInstr, h]
  rfl

theorem selectOpImm_shiftRight {r : InstRecord} (h : r.funct3 = 0b101#3) :
    selectOpImm r =
      if r.funct7 = 0b0000000#7 then .ok (.srli r.rd r.rs1 r.rs2)
      else if r.funct7 = 0b0100000#7 then .ok (.srai r.rd r.rs1 r.rs2)
      else .error .shiftEncoding := by
  rw [selectOpImm, h]
  rfl

/-- A word of OP_IMM with funct3 `101` decodes as its `imm[11:5]` says. -/
theorem decodeWord_shiftRightImm {w : Word} (ho : w.extractLsb' 0 7 = opcode opcOpImm)
    (h3 : w.extractLsb' 12 3 = 0b101#3) :
    decodeWord w =
      if w.extractLsb' 25 7 = 0b0000000#7 then
        .ok (.srli (regOf (w.extractLsb' 7 5)) (regOf (w.extractLsb' 15 5)) (regOf (w.extractLsb' 20 5)))
      else if w.extractLsb' 25 7 = 0b0100000#7 then
        .ok (.srai (regOf (w.extractLsb' 7 5)) (regOf (w.extractLsb' 15 5)) (regOf (w.extractLsb' 20 5)))
      else .error .shiftEncoding :=
  calc decodeWord w
    _ = selectInstr (recordOf 0 w) := decodeWord_of_opcode ho
    _ = selectOpImm (recordOf 0 w) := selectInstr_opImm (extractLsb'_base_of_opcode ho)
    _ = _ := selectOpImm_shiftRight h3

/-- Settles O26: `imm[11:5]` selects SRLI or SRAI with the word's fields, and any other value makes the word illegal. -/
theorem shiftRightImmediateSelection : Obligations.ShiftRightImmediateSelection := by
  unfold Obligations.ShiftRightImmediateSelection
  intro w ho h3
  have hd := decodeWord_shiftRightImm ho h3
  have hfield := regOf_extractLsb'_val w
  refine ⟨fun h0 => ?srli, fun h32 => ?srai, fun h0 h32 s m hw => ?illegal⟩
  case srli =>
    rw [if_pos h0] at hd
    exact ⟨_, _, _, hd, hfield 7, hfield 15, hfield 20⟩
  case srai =>
    rw [if_neg (by rw [h32]; decide), if_pos h32] at hd
    exact ⟨_, _, _, hd, hfield 7, hfield 15, hfield 20⟩
  case illegal =>
    rw [if_neg h0, if_neg h32] at hd
    exact step_of_fetches_illegal hw hd

end Sys2Proof.Machine
end

section
/-! PROOFS. The words the spec prints (spec/30_encoding.md §7, R140; R232): each one is a closed word, so its decoding is
evaluated by the kernel. -/

namespace Sys2Proof.Machine

/-- Settles O25: the decoder evaluates each printed word to its instruction, and the zero word to the refusal of its low
bits. -/
theorem specWordsDecode : Obligations.SpecWordsDecode := by
  unfold Obligations.SpecWordsDecode
  refine ⟨?addi, ?jal, ?ecall, ?zeroWord, ?sw, ?bne, ?srai, ?sub, ?lui, ?fenceTso⟩ <;> decide

end Sys2Proof.Machine
end

section
/-! PROOFS. Width code 3, the 8-byte codes of LOAD and STORE (spec/44_load_store.md rules R292, R306): a word of either
opcode whose `funct3 & 0b11` is 3 selects no instruction, so the step reports it before any address is formed. -/

namespace Sys2Proof.Machine

/-! ### The selection of width code 3 (R152, R292) -/

section
variable {r : InstRecord}

theorem selectInstr_load (h : r.baseOpcode = opcLoad) : selectInstr r = selectLoad r := by
  rw [selectInstr, h]
  rfl

theorem selectInstr_store (h : r.baseOpcode = opcStore) : selectInstr r = selectStore r := by
  rw [selectInstr, h]
  rfl

/-- The two funct3 values of width code 3: the sign bit `funct3[2]` is free. -/
theorem funct3_of_widthCode_three {f : BitVec 3} (h : f.toNat % 4 = 3) : f.toNat = 3 ∨ f.toNat = 7 := by
  have hlt := f.isLt
  omega

theorem selectLoad_widthCode_three (h : r.funct3.toNat % 4 = 3) : selectLoad r = .error .widthCode := by
  obtain h3 | h7 := funct3_of_widthCode_three h
  · simp [selectLoad, h3]
  · simp [selectLoad, h7]

theorem selectStore_widthCode_three (h : r.funct3.toNat % 4 = 3) : selectStore r = .error .widthCode := by
  obtain h3 | h7 := funct3_of_widthCode_three h
  · simp [selectStore, h3]
  · simp [selectStore, h7]

end

/-- A word of LOAD or STORE with width code 3 is no instruction, whatever its registers and immediate are. -/
theorem decodeWord_widthCode_three {w : Word}
    (ho : w.extractLsb' 0 7 = opcode opcLoad ∨ w.extractLsb' 0 7 = opcode opcStore)
    (h3 : (w.extractLsb' 12 3).toNat % 4 = 3) : decodeWord w = .error .widthCode := by
  obtain hload | hstore := ho
  · calc decodeWord w
      _ = selectInstr (recordOf 0 w) := decodeWord_of_opcode hload
      _ = selectLoad (recordOf 0 w) := selectInstr_load (extractLsb'_base_of_opcode hload)
      _ = _ := selectLoad_widthCode_three h3
  · calc decodeWord w
      _ = selectInstr (recordOf 0 w) := decodeWord_of_opcode hstore
      _ = selectStore (recordOf 0 w) := selectInstr_store (extractLsb'_base_of_opcode hstore)
      _ = _ := selectStore_widthCode_three h3

/-- R306's four words are words of LOAD or STORE with width code 3. -/
theorem eightByteCodes_widthCode_three : ∀ w ∈ [0x00033283#32, 0x00037283#32, 0x00533023#32, 0x00537023#32],
    (w.extractLsb' 0 7 = opcode opcLoad ∨ w.extractLsb' 0 7 = opcode opcStore) ∧
      (w.extractLsb' 12 3).toNat % 4 = 3 := by
  simp only [List.forall_mem_cons, List.not_mem_nil, false_imp_iff, implies_true, and_true]
  refine ⟨?load3, ?load7, ?store3, ?store7⟩ <;> decide

/-- Settles O27: the four words have width code 3, which decodes to nothing, so the step ends at the decoder. -/
theorem eightByteCodesAreIllegal : Obligations.EightByteCodesAreIllegal := by
  unfold Obligations.EightByteCodesAreIllegal
  intro w hw s m hf
  obtain ⟨ho, h3⟩ := eightByteCodes_widthCode_three w hw
  exact step_of_fetches_illegal hf (decodeWord_widthCode_three ho h3)

end Sys2Proof.Machine
end

section
/-! PROOFS. The two traps (spec/60_exceptions.md rule R357): which trap an answer reports, that of all instructions only
ECALL and EBREAK report one, and that only their two words decode to them. -/

namespace Sys2Proof.Machine

/-! ### The traps' words and instructions (R332, R333) -/

/-- The word a trap comes from. -/
def trapWord : TrapKind → Word
  | .ecall => ecallWord
  | .ebreak => ebreakWord

/-- The trap an instruction raises, if it is one of the two that do. -/
def trapKindOf : Instr → Option TrapKind
  | .ecall => some .ecall
  | .ebreak => some .ebreak
  | _ => none

/-- The trap an answer reports to the host, with its record. -/
def trapOf : Result → Option (TrapKind × InstRecord)
  | .next t =>
    match t.outcome with
    | some (.trap k rec) => some (k, rec)
    | _ => none
  | _ => none

theorem trapOf_next {t : State} {k : TrapKind} {rec : InstRecord} (h : t.outcome = some (.trap k rec)) :
    trapOf (.next t) = some (k, rec) := by simp [trapOf, h]

/-! ### Which answers report a trap (R189, R191) -/

theorem trapOf_load (s : State) (n : Nat) (signed : Bool) (rd rs1 : Reg) (imm : Word) :
    trapOf (load s n signed rd rs1 imm) = none := by
  unfold load
  dsimp only
  split
  · rfl
  · split <;> rfl

theorem trapOf_store (s : State) (n : Nat) (rs2 rs1 : Reg) (imm : Word) : trapOf (store s n rs2 rs1 imm) = none := by
  unfold store
  dsimp only
  split
  · rfl
  · split <;> rfl

/-- An instruction reports the trap it stands for, with the record of that trap's word at the PC, and no other. -/
theorem trapOf_exec (i : Instr) (s : State) :
    trapOf (exec i s) = (trapKindOf i).map fun k => (k, recordOf s.pc (trapWord k)) := by
  cases i with
  | lb | lh | lw | lbu | lhu | lwu => exact trapOf_load s _ _ _ _ _
  | sb | sh | sw | sbF4 | shF5 | swF6 => exact trapOf_store s _ _ _ _
  | _ => rfl

/-! ### Which words decode to a trapping instruction (R152, R332 to R334) -/

section
variable {r : InstRecord} {i : Instr}

theorem trapKindOf_selectLoad (h : selectLoad r = .ok i) : trapKindOf i = none := by
  unfold selectLoad at h
  split at h <;> cases h <;> rfl

theorem trapKindOf_selectStore (h : selectStore r = .ok i) : trapKindOf i = none := by
  unfold selectStore at h
  split at h <;> cases h <;> rfl

theorem trapKindOf_selectOpImm (h : selectOpImm r = .ok i) : trapKindOf i = none := by
  unfold selectOpImm at h
  split at h
  case h_7 | h_8 => split_ifs at h <;> cases h <;> rfl
  all_goals cases h; rfl

theorem trapKindOf_selectOp (h : selectOp r = .ok i) : trapKindOf i = none := by
  unfold selectOp at h
  split_ifs at h
  · split at h <;> cases h <;> rfl
  · split at h <;> cases h <;> rfl

theorem trapKindOf_selectBranch (h : selectBranch r = .ok i) : trapKindOf i = none := by
  unfold selectBranch at h
  split at h <;> cases h <;> rfl

theorem trapKindOf_selectMiscMem (h : selectMiscMem r = .ok i) : trapKindOf i = none := by
  unfold selectMiscMem at h
  split_ifs at h
  cases h
  rfl

theorem word_of_selectSystem {k : TrapKind} (h : selectSystem r = .ok i) (hk : trapKindOf i = some k) :
    r.word = trapWord k := by
  unfold selectSystem at h
  split_ifs at h with hcall hbreak
  · cases h; cases hk; exact hcall
  · cases h; cases hk; exact hbreak

/-! #### The selection of a major opcode (R151, R186) -/

theorem selectInstr_miscMem (h : r.baseOpcode = opcMiscMem) : selectInstr r = selectMiscMem r := by
  rw [selectInstr, h]
  rfl

theorem selectInstr_auipc (h : r.baseOpcode = opcAuipc) : selectInstr r = .ok (.auipc r.rd r.immU) := by
  rw [selectInstr, h]
  rfl

theorem selectInstr_op (h : r.baseOpcode = opcOp) : selectInstr r = selectOp r := by
  rw [selectInstr, h]
  rfl

theorem selectInstr_lui (h : r.baseOpcode = opcLui) : selectInstr r = .ok (.lui r.rd r.immU) := by
  rw [selectInstr, h]
  rfl

theorem selectInstr_branch (h : r.baseOpcode = opcBranch) : selectInstr r = selectBranch r := by
  rw [selectInstr, h]
  rfl

theorem selectInstr_jalr (h : r.baseOpcode = opcJalr) :
    selectInstr r = if r.funct3 = 0b000#3 then .ok (.jalr r.rd r.rs1 r.immI) else .error .jalrFunct3 := by
  rw [selectInstr, h]
  rfl

theorem selectInstr_jal (h : r.baseOpcode = opcJal) : selectInstr r = .ok (.jal r.rd r.immJ) := by
  rw [selectInstr, h]
  rfl

theorem selectInstr_system (h : r.baseOpcode = opcSystem) : selectInstr r = selectSystem r := by
  rw [selectInstr, h]
  rfl

/-- The unit selects nothing outside the eleven major opcodes it claims (R185). -/
theorem claims_of_selectInstr (h : selectInstr r = .ok i) : claims r.baseOpcode = true := by
  by_contra hc
  rw [selectInstr, if_pos (Bool.eq_false_iff.2 hc)] at h
  cases h

/-- Only SYSTEM's selection gives a trapping instruction, and only for that trap's word. -/
theorem word_of_selectInstr {k : TrapKind} (h : selectInstr r = .ok i) (hk : trapKindOf i = some k) :
    r.word = trapWord k := by
  have hsome : trapKindOf i ≠ none := by simp [hk]
  have hclaim := claims_of_selectInstr h
  simp only [claims, List.contains_iff_mem, List.mem_cons, List.not_mem_nil, or_false] at hclaim
  obtain hop | hop | hop | hop | hop | hop | hop | hop | hop | hop | hop := hclaim
  · exact absurd (trapKindOf_selectLoad (selectInstr_load hop ▸ h)) hsome
  · exact absurd (trapKindOf_selectMiscMem (selectInstr_miscMem hop ▸ h)) hsome
  · exact absurd (trapKindOf_selectOpImm (selectInstr_opImm hop ▸ h)) hsome
  · rw [selectInstr_auipc hop] at h; cases h; cases hk
  · exact absurd (trapKindOf_selectStore (selectInstr_store hop ▸ h)) hsome
  · exact absurd (trapKindOf_selectOp (selectInstr_op hop ▸ h)) hsome
  · rw [selectInstr_lui hop] at h; cases h; cases hk
  · exact absurd (trapKindOf_selectBranch (selectInstr_branch hop ▸ h)) hsome
  · rw [selectInstr_jalr hop] at h; split_ifs at h; cases h; cases hk
  · rw [selectInstr_jal hop] at h; cases h; cases hk
  · exact word_of_selectSystem (selectInstr_system hop ▸ h) hk

end

theorem word_of_decodeWord {w : Word} {i : Instr} {k : TrapKind} (h : decodeWord w = .ok i)
    (hk : trapKindOf i = some k) : w = trapWord k := by
  unfold decodeWord at h
  split_ifs at h
  exact word_of_selectInstr h hk

/-! ### The record and the step (R141, R357) -/

theorem wordOf_bytesOf (e : Endian) (w : Word) : wordOf e (bytesOf e w.toNat 4) = w := by
  apply BitVec.eq_of_toNat_eq
  rw [wordOf_toNat e (bytesOf_length e _ 4), valOf_bytesOf]
  exact Nat.mod_eq_of_lt w.isLt

theorem decodeRecord_trapWord (e : Endian) (pc : Word) (k : TrapKind) :
    decodeRecord e pc (bytesOf e (trapWord k).toNat 4) = .ok (recordOf pc (trapWord k)) := by
  rw [decodeRecord_eq_ok_iff, wordOf_bytesOf]
  exact ⟨bytesOf_length e _ 4, by cases k <;> decide, rfl⟩

/-- A step that reports a trap has fetched that trap's word, and the trap carries the word's record at the PC. -/
theorem fetches_of_trapOf_step {s : State} {k : TrapKind} {rec : InstRecord} (h : trapOf (step s) = some (k, rec)) :
    rec = recordOf s.pc (trapWord k) ∧ ∃ m, Fetches s (trapWord k) m := by
  obtain ⟨-, hs⟩ | ⟨-, e, -, hs⟩ | ⟨hp, bs, m, hr, ⟨d, -, hs⟩ | ⟨i, hi, hs⟩⟩ := step_cases s <;> rw [hs] at h
  case inl => cases h
  case inr.inl => cases h
  case inr.inr.inl => cases h
  case inr.inr.inr =>
    rw [trapOf_exec, Option.map_eq_some_iff] at h
    obtain ⟨k', hk, heq⟩ := h
    cases heq
    rw [decodeInstr_eq_decodeWord _ _ (Memory.read_length hr)] at hi
    exact ⟨rfl, m, aligned_eq_true_iff.1 hp, bs, hr, word_of_decodeWord hi hk⟩

/-- Settles O60: of all answers of a step only ECALL's and EBREAK's report a trap, and only the two words decode to them. -/
theorem trapsComeFromTheTwoWords : Obligations.TrapsComeFromTheTwoWords := by
  unfold Obligations.TrapsComeFromTheTwoWords
  refine ⟨fun s t k rec hs ho => ?reported, fun s m => ⟨fun hw => ?ecall, fun hw => ?ebreak⟩⟩
  case reported =>
    have htrap : trapOf (step s) = some (k, rec) := by rw [hs, trapOf_next ho]
    obtain ⟨rfl, hm⟩ := fetches_of_trapOf_step htrap
    exact ⟨by cases k <;> rfl, decodeRecord_trapWord _ _ k, hm⟩
  case ecall => exact ⟨_, step_of_fetches (i := .ecall) hw (by decide)⟩
  case ebreak => exact ⟨_, step_of_fetches (i := .ebreak) hw (by decide)⟩

end Sys2Proof.Machine
end

section
/-! PROOFS. The decoder and the encoder are inverse to each other (spec/30_encoding.md rules R142 to R154): the fields of each
format's word, each format's word from its fields, the opcode table's rows by the fields they fix, and the immediates as
integers. -/

namespace Sys2Proof.Machine

/-! ### Bit fields of sign extensions and appended fields -/

theorem extractLsb'_signExtend_of_le {n v lo len : Nat} (x : BitVec n) (h : lo + len ≤ n) (hv : n ≤ v) :
    (x.signExtend v).extractLsb' lo len = x.extractLsb' lo len := by
  apply BitVec.eq_of_getLsbD_eq
  intro i hi
  have hn : lo + i < n := by omega
  have hw : lo + i < v := by omega
  simp only [BitVec.getLsbD_extractLsb', BitVec.getLsbD_signExtend, hn, hw, decide_true, Bool.true_and, if_true]

@[simp] theorem regOf_regBits (r : Reg) : regOf (regBits r) = r := rfl

@[simp] theorem regBits_regOf (b : BitVec 5) : regBits (regOf b) = b := rfl

theorem getLsbD_zero_signExtend_append_zero {n v : Nat} (x : BitVec n) :
    ((x ++ 0#1).signExtend v).getLsbD 0 = false := by
  simp only [BitVec.getLsbD_signExtend, BitVec.getLsbD_append]
  simp

theorem extractLsb'_zero_one_of_even {imm : Word} (h : imm.getLsbD 0 = false) : imm.extractLsb' 0 1 = 0#1 := by
  apply BitVec.eq_of_getLsbD_eq
  intro i hi
  obtain rfl : i = 0 := by omega
  simpa using h

section
variable (imm w : Word) (f7 : BitVec 7) (rs2 rs1 : Reg) (f3 : BitVec 3) (rd : Reg) (opc : BitVec 5)
  (fm pred succ : BitVec 4)

/-! ### The fields of each format's word are what it was built from (R142, R144) -/

theorem fields_encR : (encR f7 rs2 rs1 f3 rd opc).extractLsb' 0 7 = opcode opc ∧
    (encR f7 rs2 rs1 f3 rd opc).extractLsb' 7 5 = regBits rd ∧ (encR f7 rs2 rs1 f3 rd opc).extractLsb' 12 3 = f3 ∧
    (encR f7 rs2 rs1 f3 rd opc).extractLsb' 15 5 = regBits rs1 ∧
    (encR f7 rs2 rs1 f3 rd opc).extractLsb' 20 5 = regBits rs2 ∧ (encR f7 rs2 rs1 f3 rd opc).extractLsb' 25 7 = f7 := by
  simp (disch := omega) only [encR, BitVec.extractLsb'_append_eq_of_add_le, BitVec.extractLsb'_append_eq_of_le,
    BitVec.extractLsb'_eq_self, Nat.sub_self, and_self]

theorem fields_encI : (encI imm rs1 f3 rd opc).extractLsb' 0 7 = opcode opc ∧
    (encI imm rs1 f3 rd opc).extractLsb' 7 5 = regBits rd ∧ (encI imm rs1 f3 rd opc).extractLsb' 12 3 = f3 ∧
    (encI imm rs1 f3 rd opc).extractLsb' 15 5 = regBits rs1 ∧
    (encI imm rs1 f3 rd opc).extractLsb' 20 12 = imm.extractLsb' 0 12 := by
  simp (disch := omega) only [encI, BitVec.extractLsb'_append_eq_of_add_le, BitVec.extractLsb'_append_eq_of_le,
    BitVec.extractLsb'_eq_self, Nat.sub_self, and_self]

theorem fields_encS : (encS imm rs2 rs1 f3 opc).extractLsb' 0 7 = opcode opc ∧
    (encS imm rs2 rs1 f3 opc).extractLsb' 7 5 = imm.extractLsb' 0 5 ∧ (encS imm rs2 rs1 f3 opc).extractLsb' 12 3 = f3 ∧
    (encS imm rs2 rs1 f3 opc).extractLsb' 15 5 = regBits rs1 ∧
    (encS imm rs2 rs1 f3 opc).extractLsb' 20 5 = regBits rs2 ∧
    (encS imm rs2 rs1 f3 opc).extractLsb' 25 7 = imm.extractLsb' 5 7 := by
  simp (disch := omega) only [encS, BitVec.extractLsb'_append_eq_of_add_le, BitVec.extractLsb'_append_eq_of_le,
    BitVec.extractLsb'_eq_self, Nat.sub_self, and_self]

theorem fields_encB : (encB imm rs2 rs1 f3 opc).extractLsb' 0 7 = opcode opc ∧
    (encB imm rs2 rs1 f3 opc).extractLsb' 7 1 = imm.extractLsb' 11 1 ∧
    (encB imm rs2 rs1 f3 opc).extractLsb' 8 4 = imm.extractLsb' 1 4 ∧
    (encB imm rs2 rs1 f3 opc).extractLsb' 12 3 = f3 ∧ (encB imm rs2 rs1 f3 opc).extractLsb' 15 5 = regBits rs1 ∧
    (encB imm rs2 rs1 f3 opc).extractLsb' 20 5 = regBits rs2 ∧
    (encB imm rs2 rs1 f3 opc).extractLsb' 25 6 = imm.extractLsb' 5 6 ∧
    (encB imm rs2 rs1 f3 opc).extractLsb' 31 1 = imm.extractLsb' 12 1 := by
  simp (disch := omega) only [encB, BitVec.extractLsb'_append_eq_of_add_le, BitVec.extractLsb'_append_eq_of_le,
    BitVec.extractLsb'_eq_self, Nat.sub_self, and_self]

theorem fields_encU : (encU imm rd opc).extractLsb' 0 7 = opcode opc ∧
    (encU imm rd opc).extractLsb' 7 5 = regBits rd ∧ (encU imm rd opc).extractLsb' 12 20 = imm.extractLsb' 12 20 := by
  simp (disch := omega) only [encU, BitVec.extractLsb'_append_eq_of_add_le, BitVec.extractLsb'_append_eq_of_le,
    BitVec.extractLsb'_eq_self, Nat.sub_self, and_self]

theorem fields_encJ : (encJ imm rd opc).extractLsb' 0 7 = opcode opc ∧
    (encJ imm rd opc).extractLsb' 7 5 = regBits rd ∧ (encJ imm rd opc).extractLsb' 12 8 = imm.extractLsb' 12 8 ∧
    (encJ imm rd opc).extractLsb' 20 1 = imm.extractLsb' 11 1 ∧
    (encJ imm rd opc).extractLsb' 21 10 = imm.extractLsb' 1 10 ∧
    (encJ imm rd opc).extractLsb' 31 1 = imm.extractLsb' 20 1 := by
  simp (disch := omega) only [encJ, BitVec.extractLsb'_append_eq_of_add_le, BitVec.extractLsb'_append_eq_of_le,
    BitVec.extractLsb'_eq_self, Nat.sub_self, and_self]

theorem fields_encFence : (encFence fm pred succ rs1 rd).extractLsb' 0 7 = opcode opcMiscMem ∧
    (encFence fm pred succ rs1 rd).extractLsb' 7 5 = regBits rd ∧
    (encFence fm pred succ rs1 rd).extractLsb' 12 3 = 0b000#3 ∧
    (encFence fm pred succ rs1 rd).extractLsb' 15 5 = regBits rs1 ∧
    (encFence fm pred succ rs1 rd).extractLsb' 20 4 = succ ∧ (encFence fm pred succ rs1 rd).extractLsb' 24 4 = pred ∧
    (encFence fm pred succ rs1 rd).extractLsb' 28 4 = fm := by
  simp (disch := omega) only [encFence, BitVec.extractLsb'_append_eq_of_add_le, BitVec.extractLsb'_append_eq_of_le,
    BitVec.extractLsb'_eq_self, Nat.sub_self, and_self]


/-! ### The immediates of each format's word (R145 to R149) -/

variable {imm}

theorem immI_encI (h : fitsImm12 imm = true) : immI (encI imm rs1 f3 rd opc) = imm := by
  obtain ⟨-, -, -, -, h20⟩ := fields_encI imm rs1 f3 rd opc
  rw [immI, h20]
  exact (beq_iff_eq.1 h).symm

theorem immS_encS (h : fitsImm12 imm = true) : immS (encS imm rs2 rs1 f3 opc) = imm := by
  obtain ⟨-, h7, -, -, -, h25⟩ := fields_encS imm rs2 rs1 f3 opc
  rw [immS, h25, h7, BitVec.extractLsb'_append_extractLsb'_eq_extractLsb' (by decide)]
  exact (beq_iff_eq.1 h).symm

theorem immB_encB (h : fitsImmB imm = true) : immB (encB imm rs2 rs1 f3 opc) = imm := by
  obtain ⟨-, h7, h8, -, -, -, h25, h31⟩ := fields_encB imm rs2 rs1 f3 opc
  simp only [fitsImmB, Bool.and_eq_true, beq_iff_eq, Bool.not_eq_true'] at h
  rw [immB, h31, h7, h25, h8, ← extractLsb'_zero_one_of_even h.2]
  simp (disch := omega) only [BitVec.extractLsb'_append_extractLsb'_eq_extractLsb']
  exact h.1.symm

theorem immU_encU (h : fitsImmU imm = true) : immU (encU imm rd opc) = imm := by
  obtain ⟨-, -, h12⟩ := fields_encU imm rd opc
  rw [immU, h12, ← beq_iff_eq.1 h, BitVec.extractLsb'_append_extractLsb'_eq_extractLsb' (by decide)]
  exact BitVec.extractLsb'_eq_self

theorem immJ_encJ (h : fitsImmJ imm = true) : immJ (encJ imm rd opc) = imm := by
  obtain ⟨-, -, h12, h20, h21, h31⟩ := fields_encJ imm rd opc
  simp only [fitsImmJ, Bool.and_eq_true, beq_iff_eq, Bool.not_eq_true'] at h
  rw [immJ, h31, h12, h20, h21, ← extractLsb'_zero_one_of_even h.2]
  simp (disch := omega) only [BitVec.extractLsb'_append_extractLsb'_eq_extractLsb']
  exact h.1.symm

/-! ### The record of each format's word -/

variable (pc : Word)

theorem record_encR :
    (recordOf pc (encR f7 rs2 rs1 f3 rd opc)).funct3 = f3 ∧ (recordOf pc (encR f7 rs2 rs1 f3 rd opc)).funct7 = f7 ∧
    (recordOf pc (encR f7 rs2 rs1 f3 rd opc)).rd = rd ∧ (recordOf pc (encR f7 rs2 rs1 f3 rd opc)).rs1 = rs1 ∧
    (recordOf pc (encR f7 rs2 rs1 f3 rd opc)).rs2 = rs2 := by
  simp [recordOf, fields_encR]

theorem record_encI (h : fitsImm12 imm = true) :
    (recordOf pc (encI imm rs1 f3 rd opc)).funct3 = f3 ∧ (recordOf pc (encI imm rs1 f3 rd opc)).rd = rd ∧
    (recordOf pc (encI imm rs1 f3 rd opc)).rs1 = rs1 ∧ (recordOf pc (encI imm rs1 f3 rd opc)).immI = imm := by
  simp [recordOf, fields_encI, immI_encI _ _ _ _ h]

theorem record_encS (h : fitsImm12 imm = true) :
    (recordOf pc (encS imm rs2 rs1 f3 opc)).funct3 = f3 ∧ (recordOf pc (encS imm rs2 rs1 f3 opc)).rs1 = rs1 ∧
    (recordOf pc (encS imm rs2 rs1 f3 opc)).rs2 = rs2 ∧ (recordOf pc (encS imm rs2 rs1 f3 opc)).immS = imm := by
  simp [recordOf, fields_encS, immS_encS _ _ _ _ h]

theorem record_encB (h : fitsImmB imm = true) :
    (recordOf pc (encB imm rs2 rs1 f3 opc)).funct3 = f3 ∧ (recordOf pc (encB imm rs2 rs1 f3 opc)).rs1 = rs1 ∧
    (recordOf pc (encB imm rs2 rs1 f3 opc)).rs2 = rs2 ∧ (recordOf pc (encB imm rs2 rs1 f3 opc)).immB = imm := by
  simp [recordOf, fields_encB, immB_encB _ _ _ _ h]

theorem record_encU (h : fitsImmU imm = true) :
    (recordOf pc (encU imm rd opc)).rd = rd ∧ (recordOf pc (encU imm rd opc)).immU = imm := by
  simp [recordOf, fields_encU, immU_encU _ _ h]

theorem record_encJ (h : fitsImmJ imm = true) :
    (recordOf pc (encJ imm rd opc)).rd = rd ∧ (recordOf pc (encJ imm rd opc)).immJ = imm := by
  simp [recordOf, fields_encJ, immJ_encJ _ _ h]

theorem record_encFence :
    (recordOf pc (encFence fm pred succ rs1 rd)).funct3 = 0b000#3 ∧ (recordOf pc (encFence fm pred succ rs1 rd)).rd = rd ∧
    (recordOf pc (encFence fm pred succ rs1 rd)).rs1 = rs1 ∧
    (recordOf pc (encFence fm pred succ rs1 rd)).word = encFence fm pred succ rs1 rd := by
  simp [recordOf, fields_encFence]

end

/-! ### The selection within each major opcode (R151, R186) -/

section
variable {w : Word}

theorem decodeWord_load (h : w.extractLsb' 0 7 = opcode opcLoad) : decodeWord w = selectLoad (recordOf 0 w) :=
  (decodeWord_of_opcode h).trans (selectInstr_load (extractLsb'_base_of_opcode h))

theorem decodeWord_store (h : w.extractLsb' 0 7 = opcode opcStore) : decodeWord w = selectStore (recordOf 0 w) :=
  (decodeWord_of_opcode h).trans (selectInstr_store (extractLsb'_base_of_opcode h))

theorem decodeWord_opImm (h : w.extractLsb' 0 7 = opcode opcOpImm) : decodeWord w = selectOpImm (recordOf 0 w) :=
  (decodeWord_of_opcode h).trans (selectInstr_opImm (extractLsb'_base_of_opcode h))

theorem decodeWord_op (h : w.extractLsb' 0 7 = opcode opcOp) : decodeWord w = selectOp (recordOf 0 w) :=
  (decodeWord_of_opcode h).trans (selectInstr_op (extractLsb'_base_of_opcode h))

theorem decodeWord_branch (h : w.extractLsb' 0 7 = opcode opcBranch) : decodeWord w = selectBranch (recordOf 0 w) :=
  (decodeWord_of_opcode h).trans (selectInstr_branch (extractLsb'_base_of_opcode h))

theorem decodeWord_miscMem (h : w.extractLsb' 0 7 = opcode opcMiscMem) : decodeWord w = selectMiscMem (recordOf 0 w) :=
  (decodeWord_of_opcode h).trans (selectInstr_miscMem (extractLsb'_base_of_opcode h))

theorem decodeWord_lui (h : w.extractLsb' 0 7 = opcode opcLui) :
    decodeWord w = .ok (.lui (recordOf 0 w).rd (recordOf 0 w).immU) :=
  (decodeWord_of_opcode h).trans (selectInstr_lui (extractLsb'_base_of_opcode h))

theorem decodeWord_auipc (h : w.extractLsb' 0 7 = opcode opcAuipc) :
    decodeWord w = .ok (.auipc (recordOf 0 w).rd (recordOf 0 w).immU) :=
  (decodeWord_of_opcode h).trans (selectInstr_auipc (extractLsb'_base_of_opcode h))

theorem decodeWord_jal (h : w.extractLsb' 0 7 = opcode opcJal) :
    decodeWord w = .ok (.jal (recordOf 0 w).rd (recordOf 0 w).immJ) :=
  (decodeWord_of_opcode h).trans (selectInstr_jal (extractLsb'_base_of_opcode h))

theorem decodeWord_jalr (h : w.extractLsb' 0 7 = opcode opcJalr) :
    decodeWord w = if (recordOf 0 w).funct3 = 0b000#3 then
        .ok (.jalr (recordOf 0 w).rd (recordOf 0 w).rs1 (recordOf 0 w).immI)
      else .error .jalrFunct3 :=
  (decodeWord_of_opcode h).trans (selectInstr_jalr (extractLsb'_base_of_opcode h))

end

/-- Settles O20: the word's opcode sends the decoder to the instruction's selection, where the fields the word was built
from select it and give its operands back. -/
theorem decodeOfEncode : Obligations.DecodeOfEncode := by
  unfold Obligations.DecodeOfEncode
  intro i h
  cases i with
  | lui rd imm => simp [encode, decodeWord_lui, fields_encU, record_encU _ _ _ h]
  | auipc rd imm => simp [encode, decodeWord_auipc, fields_encU, record_encU _ _ _ h]
  | jal rd imm => simp [encode, decodeWord_jal, fields_encJ, record_encJ _ _ _ h]
  | jalr rd rs1 imm => simp [encode, decodeWord_jalr, fields_encI, record_encI _ _ _ _ _ h]
  | beq | bne | blt | bge | bltu | bgeu =>
    simp [encode, decodeWord_branch, fields_encB, selectBranch, record_encB _ _ _ _ _ h]
  | lb | lh | lw | lbu | lhu | lwu => simp [encode, decodeWord_load, fields_encI, selectLoad, record_encI _ _ _ _ _ h]
  | sb | sh | sw | sbF4 | shF5 | swF6 =>
    simp [encode, decodeWord_store, fields_encS, selectStore, record_encS _ _ _ _ _ h]
  | addi | slti | sltiu | xori | ori | andi =>
    simp [encode, decodeWord_opImm, fields_encI, selectOpImm, record_encI _ _ _ _ _ h]
  | slli | srli | srai => simp [encode, decodeWord_opImm, fields_encR, selectOpImm, record_encR]
  | add | sub | sll | slt | sltu | xor | srl | sra | or | and =>
    simp [encode, decodeWord_op, fields_encR, selectOp, record_encR]
  | fence => simp [encode, decodeWord_miscMem, fields_encFence, selectMiscMem, record_encFence]
  | ecall => decide
  | ebreak => decide


/-! ### A word is built of its own fields (R144 to R149) -/

section
variable (w : Word)

theorem fitsImm12_immI : fitsImm12 (immI w) = true := by
  rw [fitsImm12, immI, beq_iff_eq, extractLsb'_signExtend_of_le _ (by decide) (by decide), BitVec.extractLsb'_eq_self]

theorem fitsImm12_immS : fitsImm12 (immS w) = true := by
  rw [fitsImm12, immS, beq_iff_eq, extractLsb'_signExtend_of_le _ (by decide) (by decide), BitVec.extractLsb'_eq_self]

theorem fitsImmB_immB : fitsImmB (immB w) = true := by
  rw [fitsImmB, immB, extractLsb'_signExtend_of_le _ (by decide) (by decide), BitVec.extractLsb'_eq_self,
    getLsbD_zero_signExtend_append_zero, beq_self_eq_true]
  rfl

theorem fitsImmU_immU : fitsImmU (immU w) = true := by
  rw [fitsImmU, immU, beq_iff_eq, BitVec.extractLsb'_append_eq_right]

theorem fitsImmJ_immJ : fitsImmJ (immJ w) = true := by
  rw [fitsImmJ, immJ, extractLsb'_signExtend_of_le _ (by decide) (by decide), BitVec.extractLsb'_eq_self,
    getLsbD_zero_signExtend_append_zero, beq_self_eq_true]
  rfl

variable {w} {opc : BitVec 5} {f3 : BitVec 3} {f7 : BitVec 7}

theorem encR_fields (ho : w.extractLsb' 0 7 = opcode opc) (h3 : w.extractLsb' 12 3 = f3) (h7 : w.extractLsb' 25 7 = f7) :
    encR f7 (recordOf 0 w).rs2 (recordOf 0 w).rs1 f3 (recordOf 0 w).rd opc = w := by
  subst h3 h7
  simp (disch := omega) only [encR, recordOf, regBits_regOf, ← ho, BitVec.extractLsb'_append_extractLsb'_eq_extractLsb']
  exact BitVec.extractLsb'_eq_self

theorem encI_fields (ho : w.extractLsb' 0 7 = opcode opc) (h3 : w.extractLsb' 12 3 = f3) :
    encI (recordOf 0 w).immI (recordOf 0 w).rs1 f3 (recordOf 0 w).rd opc = w := by
  subst h3
  simp (disch := omega) only [encI, recordOf, immI, regBits_regOf, ← ho, extractLsb'_signExtend_of_le,
    BitVec.extractLsb'_eq_self, BitVec.extractLsb'_append_extractLsb'_eq_extractLsb']

theorem encS_fields (ho : w.extractLsb' 0 7 = opcode opc) (h3 : w.extractLsb' 12 3 = f3) :
    encS (recordOf 0 w).immS (recordOf 0 w).rs2 (recordOf 0 w).rs1 f3 opc = w := by
  subst h3
  simp (disch := omega) only [encS, recordOf, immS, regBits_regOf, ← ho, extractLsb'_signExtend_of_le,
    BitVec.extractLsb'_append_eq_of_add_le, BitVec.extractLsb'_append_eq_of_le, Nat.sub_self,
    BitVec.extractLsb'_eq_self, BitVec.extractLsb'_append_extractLsb'_eq_extractLsb']

theorem encB_fields (ho : w.extractLsb' 0 7 = opcode opc) (h3 : w.extractLsb' 12 3 = f3) :
    encB (recordOf 0 w).immB (recordOf 0 w).rs2 (recordOf 0 w).rs1 f3 opc = w := by
  subst h3
  simp (disch := omega) only [encB, recordOf, immB, regBits_regOf, ← ho, extractLsb'_signExtend_of_le,
    BitVec.extractLsb'_append_eq_of_add_le, BitVec.extractLsb'_append_eq_of_le, Nat.sub_self,
    BitVec.extractLsb'_eq_self, BitVec.extractLsb'_append_extractLsb'_eq_extractLsb']

theorem encU_fields (ho : w.extractLsb' 0 7 = opcode opc) :
    encU (recordOf 0 w).immU (recordOf 0 w).rd opc = w := by
  simp (disch := omega) only [encU, recordOf, immU, regBits_regOf, ← ho, BitVec.extractLsb'_append_eq_left,
    BitVec.extractLsb'_eq_self, BitVec.extractLsb'_append_extractLsb'_eq_extractLsb']

theorem encJ_fields (ho : w.extractLsb' 0 7 = opcode opc) :
    encJ (recordOf 0 w).immJ (recordOf 0 w).rd opc = w := by
  simp (disch := omega) only [encJ, recordOf, immJ, regBits_regOf, ← ho, extractLsb'_signExtend_of_le,
    BitVec.extractLsb'_append_eq_of_add_le, BitVec.extractLsb'_append_eq_of_le, Nat.sub_self,
    BitVec.extractLsb'_eq_self, BitVec.extractLsb'_append_extractLsb'_eq_extractLsb']

theorem encFence_fields (ho : w.extractLsb' 0 7 = opcode opcMiscMem) (h3 : w.extractLsb' 12 3 = 0b000#3) :
    encFence (w.extractLsb' 28 4) (w.extractLsb' 24 4) (w.extractLsb' 20 4) (recordOf 0 w).rs1 (recordOf 0 w).rd = w := by
  simp (disch := omega) only [encFence, recordOf, regBits_regOf, ← ho, ← h3,
    BitVec.extractLsb'_eq_self, BitVec.extractLsb'_append_extractLsb'_eq_extractLsb']

end


/-! ### A word the decoder accepts is its instruction's encoding (R154) -/

section
variable {w : Word} {i : Instr}

/-- The instruction is well formed and encoded by the word. -/
def EncodedBy (i : Instr) (w : Word) : Prop := i.wellFormed = true ∧ encode i = w

theorem opcode_of_fields {opc : BitVec 5} (hlow : w.extractLsb' 0 2 = 0b11#2) (hop : w.extractLsb' 2 5 = opc) :
    w.extractLsb' 0 7 = opcode opc := by
  rw [opcode, ← hop, ← hlow, BitVec.extractLsb'_append_extractLsb'_eq_extractLsb' (by decide)]

theorem funct3_eq {n : Nat} (h : (recordOf 0 w).funct3.toNat = n) : w.extractLsb' 12 3 = BitVec.ofNat 3 n := by
  rw [← h, BitVec.ofNat_toNat, BitVec.setWidth_eq, recordOf]

theorem encodedBy_selectLoad (ho : w.extractLsb' 0 7 = opcode opcLoad) (h : selectLoad (recordOf 0 w) = .ok i) :
    EncodedBy i w := by
  unfold selectLoad at h
  split at h <;> cases h <;> exact ⟨fitsImm12_immI w, encI_fields ho (funct3_eq ‹_›)⟩

theorem encodedBy_selectStore (ho : w.extractLsb' 0 7 = opcode opcStore) (h : selectStore (recordOf 0 w) = .ok i) :
    EncodedBy i w := by
  unfold selectStore at h
  split at h <;> cases h <;> exact ⟨fitsImm12_immS w, encS_fields ho (funct3_eq ‹_›)⟩

theorem encodedBy_selectBranch (ho : w.extractLsb' 0 7 = opcode opcBranch) (h : selectBranch (recordOf 0 w) = .ok i) :
    EncodedBy i w := by
  unfold selectBranch at h
  split at h <;> cases h <;> exact ⟨fitsImmB_immB w, encB_fields ho (funct3_eq ‹_›)⟩

theorem encodedBy_selectOpImm (ho : w.extractLsb' 0 7 = opcode opcOpImm) (h : selectOpImm (recordOf 0 w) = .ok i) :
    EncodedBy i w := by
  unfold selectOpImm at h
  split at h
  case h_7 h1 =>
    split_ifs at h with h7
    cases h
    exact ⟨rfl, encR_fields ho (funct3_eq h1) h7⟩
  case h_8 =>
    have hlt := (recordOf 0 w).funct3.isLt
    have h5 : w.extractLsb' 12 3 = 0b101#3 := funct3_eq (n := 5) (by grind)
    split_ifs at h with h0 h32
    · cases h; exact ⟨rfl, encR_fields ho h5 h0⟩
    · cases h; exact ⟨rfl, encR_fields ho h5 h32⟩
  all_goals cases h; exact ⟨fitsImm12_immI w, encI_fields ho (funct3_eq ‹_›)⟩

theorem encodedBy_selectOp (ho : w.extractLsb' 0 7 = opcode opcOp) (h : selectOp (recordOf 0 w) = .ok i) :
    EncodedBy i w := by
  unfold selectOp at h
  split_ifs at h with h0 h32
  · split at h
    case h_8 =>
      have hlt := (recordOf 0 w).funct3.isLt
      have h7 : w.extractLsb' 12 3 = 0b111#3 := funct3_eq (n := 7) (by grind)
      cases h
      exact ⟨rfl, encR_fields ho h7 h0⟩
    all_goals cases h; exact ⟨rfl, encR_fields ho (funct3_eq ‹_›) h0⟩
  · split at h <;> cases h <;> exact ⟨rfl, encR_fields ho (funct3_eq ‹_›) h32⟩

theorem encodedBy_selectMiscMem (ho : w.extractLsb' 0 7 = opcode opcMiscMem)
    (h : selectMiscMem (recordOf 0 w) = .ok i) : EncodedBy i w := by
  unfold selectMiscMem at h
  split_ifs at h with h3
  cases h
  exact ⟨rfl, encFence_fields ho h3⟩

theorem encodedBy_selectSystem (h : selectSystem (recordOf 0 w) = .ok i) : EncodedBy i w := by
  unfold selectSystem at h
  split_ifs at h with hcall hbreak
  · cases h; exact ⟨rfl, hcall.symm⟩
  · cases h; exact ⟨rfl, hbreak.symm⟩


theorem encodedBy_selectInstr (hlow : w.extractLsb' 0 2 = 0b11#2) (h : selectInstr (recordOf 0 w) = .ok i) :
    EncodedBy i w := by
  have hclaim := claims_of_selectInstr h
  simp only [claims, List.contains_iff_mem, List.mem_cons, List.not_mem_nil, or_false] at hclaim
  obtain hop | hop | hop | hop | hop | hop | hop | hop | hop | hop | hop := hclaim <;>
    have ho := opcode_of_fields hlow hop
  · exact encodedBy_selectLoad ho (selectInstr_load hop ▸ h)
  · exact encodedBy_selectMiscMem ho (selectInstr_miscMem hop ▸ h)
  · exact encodedBy_selectOpImm ho (selectInstr_opImm hop ▸ h)
  · rw [selectInstr_auipc hop] at h; cases h; exact ⟨fitsImmU_immU w, encU_fields ho⟩
  · exact encodedBy_selectStore ho (selectInstr_store hop ▸ h)
  · exact encodedBy_selectOp ho (selectInstr_op hop ▸ h)
  · rw [selectInstr_lui hop] at h; cases h; exact ⟨fitsImmU_immU w, encU_fields ho⟩
  · exact encodedBy_selectBranch ho (selectInstr_branch hop ▸ h)
  · rw [selectInstr_jalr hop] at h
    split_ifs at h with h3
    cases h
    exact ⟨fitsImm12_immI w, encI_fields ho h3⟩
  · rw [selectInstr_jal hop] at h; cases h; exact ⟨fitsImmJ_immJ w, encJ_fields ho⟩
  · exact encodedBy_selectSystem (selectInstr_system hop ▸ h)

/-- Settles O21: by the major opcode and the selection within it; each selection names the fields that make up the word. -/
theorem encodeOfDecode : Obligations.EncodeOfDecode := by
  unfold Obligations.EncodeOfDecode
  intro w i h
  unfold decodeWord at h
  split_ifs at h with hlow
  exact encodedBy_selectInstr (not_not.1 hlow) h

end

/-! ### The opcode table (R152) -/

open Laws (maskOpc maskF3 maskF7 maskAll tableRow)

/-- The row that fixes the opcode alone. -/
def rowOpc (opc : BitVec 5) : Word × Word := (0#25 ++ opcode opc, maskOpc)

/-- A row that fixes the opcode and funct3. -/
def rowF3 (opc : BitVec 5) (f3 : BitVec 3) : Word × Word := (0#17 ++ f3 ++ 0#5 ++ opcode opc, maskF3)

/-- A row that fixes the opcode, funct7 and funct3. -/
def rowF7 (opc : BitVec 5) (f7 : BitVec 7) (f3 : BitVec 3) : Word × Word :=
  (f7 ++ 0#10 ++ f3 ++ 0#5 ++ opcode opc, maskF7)

/-- The table's rows, by the fields they fix. -/
theorem opcodeRows_eq : opcodeRows =
    [opcLui, opcAuipc, opcJal].map rowOpc ++ [0b000#3].map (rowF3 opcJalr) ++
    [0b000#3, 0b001#3, 0b100#3, 0b101#3, 0b110#3, 0b111#3].map (rowF3 opcBranch) ++
    [0b000#3, 0b001#3, 0b010#3, 0b100#3, 0b101#3, 0b110#3].map (rowF3 opcLoad) ++
    [0b000#3, 0b001#3, 0b010#3, 0b100#3, 0b101#3, 0b110#3].map (rowF3 opcStore) ++
    [0b000#3, 0b010#3, 0b011#3, 0b100#3, 0b110#3, 0b111#3].map (rowF3 opcOpImm) ++
    [(0b0000000#7, 0b001#3), (0b0000000#7, 0b101#3), (0b0100000#7, 0b101#3)].map (rowF7 opcOpImm).uncurry ++
    [(0b0000000#7, 0b000#3), (0b0100000#7, 0b000#3), (0b0000000#7, 0b001#3), (0b0000000#7, 0b010#3),
      (0b0000000#7, 0b011#3), (0b0000000#7, 0b100#3), (0b0000000#7, 0b101#3), (0b0100000#7, 0b101#3),
      (0b0000000#7, 0b110#3), (0b0000000#7, 0b111#3)].map (rowF7 opcOp).uncurry ++
    [0b000#3].map (rowF3 opcMiscMem) ++ [(ecallWord, maskAll), (ebreakWord, maskAll)] := by decide

/-- The word of a well-formed instruction matches the instruction's row. -/
theorem encode_and_tableRow (i : Instr) : encode i &&& (tableRow i).2 = (tableRow i).1 := by
  cases i with
  | lui | auipc => exact (Laws.encU_and_maskOpc _ _ _).trans rfl
  | jal => exact (Laws.encJ_and_maskOpc _ _ _).trans rfl
  | beq | bne | blt | bge | bltu | bgeu => exact (Laws.encB_and_maskF3 _ _ _ _ _).trans rfl
  | sb | sh | sw | sbF4 | shF5 | swF6 => exact (Laws.encS_and_maskF3 _ _ _ _ _).trans rfl
  | fence => exact (Laws.encFence_and_maskF3 _ _ _ _ _).trans rfl
  | ecall | ebreak => rfl
  | slli | srli | srai | add | sub | sll | slt | sltu | xor | srl | sra | or | and =>
    exact (Laws.encR_and_maskF7 _ _ _ _ _ _).trans rfl
  | _ => exact (Laws.encI_and_maskF3 _ _ _ _ _).trans rfl

theorem tableRow_mem (i : Instr) : tableRow i ∈ opcodeRows := by
  cases i <;> simp [opcodeRows, tableRow, maskOpc, maskF3, maskF7, maskAll]

section
variable {w : Word} {opc : BitVec 5} {f3 : BitVec 3} {f7 : BitVec 7}

/-- A field that a row's mask covers is the row's. -/
theorem extractLsb'_of_and_eq {mask mat : Word} (h : w &&& mask = mat) {lo len : Nat}
    (hm : mask.extractLsb' lo len = BitVec.allOnes len) : w.extractLsb' lo len = mat.extractLsb' lo len := by
  rw [← h, BitVec.extractLsb'_and, hm, BitVec.and_allOnes]

theorem opcode_of_rowOpc (h : w &&& (rowOpc opc).2 = (rowOpc opc).1) : w.extractLsb' 0 7 = opcode opc := by
  rw [extractLsb'_of_and_eq (mask := maskOpc) h (by decide), rowOpc, BitVec.extractLsb'_append_eq_right]

theorem fields_of_rowF3 (h : w &&& (rowF3 opc f3).2 = (rowF3 opc f3).1) :
    w.extractLsb' 0 7 = opcode opc ∧ (recordOf 0 w).funct3 = f3 := by
  have hfield (lo len : Nat) := extractLsb'_of_and_eq (mask := maskF3) h (lo := lo) (len := len)
  rw [recordOf, hfield 0 7 (by decide), hfield 12 3 (by decide), rowF3]
  simp (disch := omega) only [BitVec.extractLsb'_append_eq_of_add_le, BitVec.extractLsb'_append_eq_of_le, Nat.sub_self,
    BitVec.extractLsb'_eq_self, and_self]

theorem fields_of_rowF7 (h : w &&& (rowF7 opc f7 f3).2 = (rowF7 opc f7 f3).1) :
    w.extractLsb' 0 7 = opcode opc ∧ (recordOf 0 w).funct3 = f3 ∧ (recordOf 0 w).funct7 = f7 := by
  have hfield (lo len : Nat) := extractLsb'_of_and_eq (mask := maskF7) h (lo := lo) (len := len)
  rw [recordOf, hfield 0 7 (by decide), hfield 12 3 (by decide), hfield 25 7 (by decide), rowF7]
  simp (disch := omega) only [BitVec.extractLsb'_append_eq_of_add_le, BitVec.extractLsb'_append_eq_of_le, Nat.sub_self,
    BitVec.extractLsb'_eq_self, and_self]

end

section
variable {r : InstRecord} {f3 : BitVec 3}

theorem selectBranch_ok (hf : f3 ∈ [0b000#3, 0b001#3, 0b100#3, 0b101#3, 0b110#3, 0b111#3]) (h : r.funct3 = f3) :
    ∃ i, selectBranch r = .ok i ∧ tableRow i = rowF3 opcBranch f3 := by
  rw [selectBranch, h]
  fin_cases hf <;> exact ⟨_, rfl, rfl⟩

theorem selectLoad_ok (hf : f3 ∈ [0b000#3, 0b001#3, 0b010#3, 0b100#3, 0b101#3, 0b110#3]) (h : r.funct3 = f3) :
    ∃ i, selectLoad r = .ok i ∧ tableRow i = rowF3 opcLoad f3 := by
  rw [selectLoad, h]
  fin_cases hf <;> exact ⟨_, rfl, rfl⟩

theorem selectStore_ok (hf : f3 ∈ [0b000#3, 0b001#3, 0b010#3, 0b100#3, 0b101#3, 0b110#3]) (h : r.funct3 = f3) :
    ∃ i, selectStore r = .ok i ∧ tableRow i = rowF3 opcStore f3 := by
  rw [selectStore, h]
  fin_cases hf <;> exact ⟨_, rfl, rfl⟩

theorem selectOpImm_ok (hf : f3 ∈ [0b000#3, 0b010#3, 0b011#3, 0b100#3, 0b110#3, 0b111#3]) (h : r.funct3 = f3) :
    ∃ i, selectOpImm r = .ok i ∧ tableRow i = rowF3 opcOpImm f3 := by
  rw [selectOpImm, h]
  fin_cases hf <;> exact ⟨_, rfl, rfl⟩

theorem selectOpImm_shift_ok {p : BitVec 7 × BitVec 3}
    (hf : p ∈ [(0b0000000#7, 0b001#3), (0b0000000#7, 0b101#3), (0b0100000#7, 0b101#3)]) (h3 : r.funct3 = p.2)
    (h7 : r.funct7 = p.1) : ∃ i, selectOpImm r = .ok i ∧ tableRow i = rowF7 opcOpImm p.1 p.2 := by
  rw [selectOpImm, h3, h7]
  fin_cases hf <;> exact ⟨_, rfl, rfl⟩

theorem selectOp_ok {p : BitVec 7 × BitVec 3}
    (hf : p ∈ [(0b0000000#7, 0b000#3), (0b0100000#7, 0b000#3), (0b0000000#7, 0b001#3), (0b0000000#7, 0b010#3),
      (0b0000000#7, 0b011#3), (0b0000000#7, 0b100#3), (0b0000000#7, 0b101#3), (0b0100000#7, 0b101#3),
      (0b0000000#7, 0b110#3), (0b0000000#7, 0b111#3)]) (h3 : r.funct3 = p.2) (h7 : r.funct7 = p.1) :
    ∃ i, selectOp r = .ok i ∧ tableRow i = rowF7 opcOp p.1 p.2 := by
  rw [selectOp, h3, h7]
  fin_cases hf <;> exact ⟨_, rfl, rfl⟩

end

/-- Each row's words are instructions of that row: by the fields the row fixes, within the selection of its major opcode. -/
theorem decodeWord_of_mem_opcodeRows {w : Word} :
    ∀ row ∈ opcodeRows, w &&& row.2 = row.1 → ∃ i, decodeWord w = .ok i ∧ tableRow i = row := by
  rw [opcodeRows_eq]
  simp only [List.forall_mem_append, List.forall_mem_map]
  refine ⟨⟨⟨⟨⟨⟨⟨⟨⟨?opc, ?jalr⟩, ?branch⟩, ?load⟩, ?store⟩, ?opImm⟩, ?shift⟩, ?op⟩, ?fence⟩, ?system⟩
  case opc =>
    simp only [List.forall_mem_cons, List.not_mem_nil, false_imp_iff, implies_true, and_true]
    exact ⟨fun h => ⟨_, decodeWord_lui (opcode_of_rowOpc h), rfl⟩,
      fun h => ⟨_, decodeWord_auipc (opcode_of_rowOpc h), rfl⟩, fun h => ⟨_, decodeWord_jal (opcode_of_rowOpc h), rfl⟩⟩
  case jalr =>
    intro f3 hf h
    obtain ⟨ho, h3⟩ := fields_of_rowF3 h
    obtain rfl := List.mem_singleton.1 hf
    exact ⟨_, (decodeWord_jalr ho).trans (if_pos h3), rfl⟩
  case branch =>
    intro f3 hf h
    obtain ⟨ho, h3⟩ := fields_of_rowF3 h
    exact decodeWord_branch ho ▸ selectBranch_ok hf h3
  case load =>
    intro f3 hf h
    obtain ⟨ho, h3⟩ := fields_of_rowF3 h
    exact decodeWord_load ho ▸ selectLoad_ok hf h3
  case store =>
    intro f3 hf h
    obtain ⟨ho, h3⟩ := fields_of_rowF3 h
    exact decodeWord_store ho ▸ selectStore_ok hf h3
  case opImm =>
    intro f3 hf h
    obtain ⟨ho, h3⟩ := fields_of_rowF3 h
    exact decodeWord_opImm ho ▸ selectOpImm_ok hf h3
  case shift =>
    intro p hf h
    obtain ⟨ho, h3, h7⟩ := fields_of_rowF7 h
    exact decodeWord_opImm ho ▸ selectOpImm_shift_ok hf h3 h7
  case op =>
    intro p hf h
    obtain ⟨ho, h3, h7⟩ := fields_of_rowF7 h
    exact decodeWord_op ho ▸ selectOp_ok hf h3 h7
  case fence =>
    intro f3 hf h
    obtain ⟨ho, h3⟩ := fields_of_rowF3 h
    obtain rfl := List.mem_singleton.1 hf
    exact ⟨_, (decodeWord_miscMem ho).trans (if_pos h3), rfl⟩
  case system =>
    simp only [List.forall_mem_cons, List.not_mem_nil, false_imp_iff, implies_true, and_true]
    refine ⟨fun h => ⟨.ecall, ?_, rfl⟩, fun h => ⟨.ebreak, ?_, rfl⟩⟩ <;>
      obtain rfl := (BitVec.and_allOnes (x := w)).symm.trans h <;> decide

/-- Settles O22: a decoded word is its instruction's encoding, which matches the instruction's row; a row's words decode to
instructions of that row, so a word's instruction tells its row. -/
theorem legalWordsAreTheTableRows : Obligations.LegalWordsAreTheTableRows := by
  unfold Obligations.LegalWordsAreTheTableRows
  refine fun w => ⟨⟨?legal, ?row⟩, fun p hp q hq hwp hwq => ?unique⟩
  case legal =>
    rintro ⟨i, hi⟩
    obtain ⟨-, rfl⟩ := encodeOfDecode w i hi
    exact ⟨_, tableRow_mem i, encode_and_tableRow i⟩
  case row =>
    rintro ⟨row, hrow, h⟩
    obtain ⟨i, hi, -⟩ := decodeWord_of_mem_opcodeRows row hrow h
    exact ⟨i, hi⟩
  case unique =>
    obtain ⟨i, hi, rfl⟩ := decodeWord_of_mem_opcodeRows p hp hwp
    obtain ⟨j, hj, rfl⟩ := decodeWord_of_mem_opcodeRows q hq hwq
    rw [hi] at hj
    cases hj
    rfl

/-! ### The immediates as integers (R145 to R149) -/

theorem toNat_field (w : Word) (lo len : Nat) : (w.extractLsb' lo len).toNat = w.toNat / 2 ^ lo % 2 ^ len := by
  rw [BitVec.extractLsb'_toNat, Nat.shiftRight_eq_div_pow]

theorem toInt_field_one (w : Word) (lo : Nat) : (w.extractLsb' lo 1).toInt = -((w.toNat / 2 ^ lo % 2 ^ 1 : Nat) : Int) := by
  rw [BitVec.toInt_eq_toNat_bmod, toNat_field]
  obtain h | h := Nat.mod_two_eq_zero_or_one (w.toNat / 2 ^ lo) <;> simp [h]

/-- Settles O24: the value of appended fields is the lower plus the upper at its weight, and the uppermost field is the
sign bit alone. -/
theorem immediateValues : Obligations.ImmediateValues := by
  unfold Obligations.ImmediateValues
  intro w f
  have hsign (lo len : Nat) : w.extractLsb' lo (1 + len) = w.extractLsb' (lo + len) 1 ++ w.extractLsb' lo len :=
    (BitVec.extractLsb'_append_extractLsb'_eq_extractLsb' rfl).symm
  have hext {n : Nat} (x : BitVec n) (hn : n ≤ 32) : (x.signExtend 32).toInt = x.toInt :=
    BitVec.toInt_signExtend_of_le hn
  refine ⟨?immI, ?immS, ?immB, ?immU, ?immJ⟩
  case immU =>
    rw [immU, BitVec.toNat_append, toNat_field]
    simp [Nat.shiftLeft_eq, f]
  case immI =>
    rw [immI, hsign 20 11, hext _ (by decide)]
    simp only [BitVec.toInt_append, toInt_field_one, toNat_field]
    simp [f]; ring
  case immS =>
    rw [immS, hsign 25 6, hext _ (by decide)]
    simp only [BitVec.toInt_append, toInt_field_one, toNat_field]
    simp [f]; ring
  case immB =>
    rw [immB, hext _ (by decide)]
    simp only [BitVec.toInt_append, toInt_field_one, toNat_field]
    simp [f]; ring
  case immJ =>
    rw [immJ, hext _ (by decide)]
    simp only [BitVec.toInt_append, toInt_field_one, toNat_field]
    simp [f]; ring

end Sys2Proof.Machine
end

section
/-! PROOFS. Adding a region and write allocation (spec/20_memory.md rules R77 to R88): which bytes they back, what they leave
unchanged, and when they fail. -/

namespace Sys2Proof.Machine

/-! ### Lists of regions: what replacing or inserting one leaves unchanged -/

theorem filter_insertSorted {p : Region → Bool} {r : Region} (hr : p r = false) (rs : List Region) :
    (insertSorted r rs).filter p = rs.filter p := by
  induction rs with
  | nil => simp [insertSorted, hr]
  | cons q qs ih =>
    unfold insertSorted
    split
    · simp [hr]
    · simp [List.filter_cons, ih]

theorem map_updateFirst {α : Type} {p : Region → Bool} {f : Region → Region} {g : Region → α} {rs : List Region}
    (h : ∀ r ∈ rs, p r = true → g (f r) = g r) : (updateFirst p f rs).map g = rs.map g := by
  induction rs with
  | nil => rfl
  | cons r rs ih =>
    unfold updateFirst
    split
    · rw [List.map_cons, List.map_cons, h r (by simp) ‹_›]
    · rw [List.map_cons, List.map_cons, ih fun q hq => h q (by simp [hq])]

theorem filter_updateFirst {p c : Region → Bool} {f : Region → Region} {rs : List Region}
    (h : ∀ r ∈ rs, p r = true → c r = false ∧ c (f r) = false) : (updateFirst p f rs).filter c = rs.filter c := by
  induction rs with
  | nil => rfl
  | cons r rs ih =>
    unfold updateFirst
    split
    · obtain ⟨hr, hfr⟩ := h r (by simp) ‹_›
      simp [hr, hfr]
    · simp [List.filter_cons, ih fun q hq => h q (by simp [hq])]

/-! ### The bytes of regions put together (R75, R85) -/

theorem cellsGet_append_left {cs ds : List Host.Cell} {a : Nat} (h : ∀ d ∈ ds, d.1 ≠ a) :
    cellsGet (cs ++ ds) a = cellsGet cs a := by
  induction cs with
  | nil => exact cellsGet_eq_unlisted h
  | cons c cs ih => simp [cellsGet, ih]

theorem cellsGet_append_right {cs ds : List Host.Cell} {a : Nat} (h : ∀ c ∈ cs, c.1 ≠ a) :
    cellsGet (cs ++ ds) a = cellsGet ds a := by
  induction cs with
  | nil => rfl
  | cons c cs ih =>
    rw [List.cons_append, cellsGet, if_neg (h c (by simp)), ih fun d hd => h d (by simp [hd])]

/-- A merged region holds the bytes of its two parts. -/
theorem Memory.mergedWith_holdsByte {r e : Region} (hr : CellsWf r.start r.stop r.cells)
    (he : CellsWf e.start e.stop e.cells) (ha : absorbs r e = true) {a : Nat} {b : Byte} :
    (mergedWith r e).HoldsByte a b ↔ e.HoldsByte a b ∨ r.HoldsByte a b := by
  obtain ⟨hrn, hen, hadj⟩ := absorbs_iff.1 ha
  obtain ⟨hmerged, -⟩ := mergedWith_eq ha
  have hstop : (mergedWith r e).stop = r.stop := by
    simp only [hmerged, Region.stop] at *
    omega
  have hle : e.start ≤ e.stop := Nat.le_add_right _ _
  have hle' : r.start ≤ r.stop := Nat.le_add_right _ _
  have hcells : (mergedWith r e).cells = e.cells ++ r.cells := by rw [hmerged]; rfl
  have hnormal : (mergedWith r e).isNormal = true := by rw [hmerged]; rfl
  have hstart : (mergedWith r e).start = e.start := by rw [hmerged]
  simp only [Region.HoldsByte, hstop, hcells, hnormal, hstart, hrn, hen, true_and]
  by_cases hlow : a < r.start
  · rw [cellsGet_append_left fun d hd => by have := (hr.2 d hd).1; omega]
    grind
  · rw [cellsGet_append_right fun c hc => by have := (he.2 c hc).1; omega]
    grind

/-! ### Adding a region (R84, R85) -/

namespace Memory

variable {m m' : Memory} {r : Region}

theorem overlapsAny_eq_false_iff {lo hi : Nat} :
    m.overlapsAny lo hi = false ↔ ∀ q ∈ m.regions, ¬ (q.start < hi ∧ lo < q.stop) := by
  simp [overlapsAny, Region.overlapsRange]

/-- `addRegion` refuses a region exactly for one of the causes of R84, or because it is empty (log entry 12). -/
theorem addRegion_refused_iff : m.addRegion r = .error .regionError ↔
    r.size = 0 ∨ r.start < m.memoryStart ∨ m.memoryEnd < r.stop ∨ r.start % m.regionSize ≠ 0 ∨
      ∃ q ∈ m.regions, q.start < r.stop ∧ r.start < q.stop := by
  have hok := addRegion_ok_iff m r { m with regions := insertRegion m.regions r }
  simp only [overlapsAny_eq_false_iff, and_true] at hok
  cases hadd : m.addRegion r with
  | ok m1 =>
    obtain ⟨⟨h0, hlo, hhi, hal, hov⟩, -⟩ := (addRegion_ok_iff m r m1).1 hadd
    rw [overlapsAny_eq_false_iff] at hov
    simp only [reduceCtorEq, false_iff, not_or, not_exists, not_and, not_not]
    exact ⟨h0, by omega, by omega, hal, fun q hq h1 h2 => hov q hq ⟨h1, h2⟩⟩
  | error e =>
    obtain rfl := addRegion_error hadd
    rw [hadd] at hok
    simp only [reduceCtorEq, false_iff] at hok
    refine iff_of_true rfl ?_
    by_contra hno
    simp only [not_or, not_exists, not_and, not_not] at hno
    obtain ⟨h0, hlo, hhi, hal, hov⟩ := hno
    exact hok ⟨h0, by omega, by omega, hal, fun q hq hqr => hov q hq hqr.1 hqr.2⟩

theorem addRegion_eq_ok (h : m.addRegion r ≠ .error .regionError) :
    m.addRegion r = .ok { m with regions := insertRegion m.regions r } := by
  cases hadd : m.addRegion r with
  | ok m1 => rw [((addRegion_ok_iff m r m1).1 hadd).2]
  | error e => obtain rfl := addRegion_error hadd; exact absurd hadd h

/-- The memory a region was added to has the bytes of the region and those it had. -/
theorem wf.byteAt_addRegion (h : m.wf) (hc : CellsWf r.start r.stop r.cells) (hm : m.addRegion r = .ok m') {a : Nat}
    {b : Byte} : m'.byteAt a = some b ↔ r.HoldsByte a b ∨ m.byteAt a = some b := by
  obtain ⟨-, rfl⟩ := (addRegion_ok_iff m r m').1 hm
  rw [(addRegion_wf h hc hm).1.byteAt_eq_some_iff, h.byteAt_eq_some_iff]
  by_cases hab : ∃ e ∈ m.regions, absorbs r e = true
  · obtain ⟨e, he, hre⟩ := hab
    obtain ⟨-, -, -, -, hecells⟩ := h.2.2 e he
    have hmerged := mergedWith_holdsByte hc hecells hre (a := a) (b := b)
    simp only [mem_insertRegion_absorbed h he hre]
    constructor
    · rintro ⟨q, rfl | ⟨hq, -⟩, hqb⟩
      · exact (hmerged.1 hqb).symm.imp_right fun heb => ⟨e, he, heb⟩
      · exact .inr ⟨q, hq, hqb⟩
    · rintro (hrb | ⟨q, hq, hqb⟩)
      · exact ⟨_, .inl rfl, hmerged.2 (.inr hrb)⟩
      · by_cases hqe : q = e
        · exact ⟨_, .inl rfl, hmerged.2 (.inl (hqe ▸ hqb))⟩
        · exact ⟨q, .inr ⟨hq, hqe⟩, hqb⟩
  · simp only [insertRegion_separate (by simpa using hab), mem_insertSorted_iff]
    constructor
    · rintro ⟨q, rfl | hq, hqb⟩
      · exact .inl hqb
      · exact .inr ⟨q, hq, hqb⟩
    · rintro (hrb | ⟨q, hq, hqb⟩)
      · exact ⟨r, .inl rfl, hrb⟩
      · exact ⟨q, .inr hq, hqb⟩

/-- An address no NormalRegion covers has no byte. -/
theorem wf.byteAt_eq_none_iff (h : m.wf) {a : Nat} :
    m.byteAt a = none ↔ ∀ q ∈ m.regions, q.isNormal = true → a < q.start ∨ q.stop ≤ a := by
  rw [Option.eq_none_iff_forall_ne_some]
  constructor
  · intro hno q hq hn
    by_contra hin
    exact hno _ (h.byteAt_of_mem hq hn (a := a) (by omega))
  · intro hout b hb
    obtain ⟨q, hq, hn, hin, -⟩ := h.byteAt_eq_some_iff.1 hb
    have := hout q hq hn
    omega

end Memory

/-- Settles O17: a refusal by its causes; otherwise the region's bytes join those of the memory, in the region that absorbs
it or in a region of their own. -/
theorem addRegionEffect : Obligations.AddRegionEffect := by
  unfold Obligations.AddRegionEffect
  intro m r h hc refused
  refine ⟨Memory.addRegion_refused_iff.2, fun hok => ?_⟩
  have hadd := Memory.addRegion_eq_ok (mt Memory.addRegion_refused_iff.1 hok)
  have hbytes {a : Nat} {b : Byte} := h.byteAt_addRegion hc hadd (a := a) (b := b)
  refine ⟨_, hadd, (Memory.addRegion_wf h hc hadd).1, fun a hlo hhi => ?inside, fun a hout => ?outside, ⟨rfl, rfl, rfl⟩,
    rfl, rfl, fun e he hrn hen hadj => ?absorbed, fun hno => ?separate⟩
  case inside =>
    have hnone : m.byteAt a = none := by
      rw [h.byteAt_eq_none_iff]
      intro q hq hn
      by_contra hin
      exact hok (.inr (.inr (.inr (.inr ⟨q, hq, by omega, by omega⟩))))
    ext b
    rw [hbytes, hnone]
    split <;> simp_all [Region.HoldsByte]
  case outside =>
    ext b
    rw [hbytes]
    refine or_iff_right fun hrb => ?_
    obtain ⟨-, hin, -⟩ := hrb
    omega
  case absorbed =>
    have hre := Memory.absorbs_iff.2 ⟨hrn, hen, hadj⟩
    refine ⟨Memory.insertRegion_length_absorbed he hre, Memory.mergedWith r e, ?_, Memory.mem_insertRegion_absorbed h he hre⟩
    simp [Region.merge, Region.mergeable, hen, hrn, hadj, (Memory.mergedWith_eq hre).1]
  case separate =>
    have hnone : ∀ e ∈ m.regions, Memory.absorbs r e = false := fun e he =>
      Bool.eq_false_iff.2 fun hre => hno (by
        obtain ⟨hrn, hen, hadj⟩ := Memory.absorbs_iff.1 hre
        exact ⟨hrn, e, he, hen, hadj⟩)
    simp only [Memory.insertRegion_separate hnone, insertSorted_length, mem_insertSorted_iff, implies_true, and_self]

end Sys2Proof.Machine
end

section
/-! PROOFS. Write allocation and the write (spec/20_memory.md rules R76 to R88): the granule an allocation backs, which bytes
a completed write leaves where, and when a write fails. -/

namespace Sys2Proof.Machine

namespace Memory

variable {m m' m1 : Memory}

/-! ### Construction (R62) and the granule as a number -/

theorem isPow2_iff {g : Nat} : isPow2 g = true ↔ ∃ k, g = 2 ^ k := by
  rw [isPow2, beq_iff_eq]
  refine ⟨fun h => ⟨_, h⟩, ?_⟩
  rintro ⟨k, rfl⟩
  rw [Nat.log2_two_pow]

theorem configOk_iff {ms mz g : Nat} : configOk ms mz g = true ↔
    (∃ k, g = 2 ^ k) ∧ 8 ≤ g ∧ 0 < mz ∧ g ∣ mz ∧ g ∣ ms ∧ ms + mz ≤ 2 ^ 48 := by
  simp only [configOk, Bool.and_eq_true, decide_eq_true_eq, isPow2_iff, Nat.dvd_iff_mod_eq_zero, and_assoc]

end Memory

/-- Settles O7: the configuration check is the conjunction of R62's constraints, and `construct` does nothing else. -/
theorem constructionConstraints : Obligations.ConstructionConstraints := by
  unfold Obligations.ConstructionConstraints
  intro ms mz g valid
  refine ⟨fun hv => ?_, fun hv => ?_⟩
  · exact ⟨_, if_pos (Memory.configOk_iff.2 hv), rfl, rfl, rfl, rfl⟩
  · exact if_neg (mt Memory.configOk_iff.1 hv)

namespace Memory

variable {m m' m1 : Memory}

theorem granuleStart_eq (m : Memory) (addr : Nat) : m.granuleStart addr = addr / m.regionSize * m.regionSize := by
  rw [granuleStart, mul_comm, Nat.sub_eq_iff_eq_add (Nat.mod_le _ _), Nat.div_add_mod]

theorem granule_dvd_granuleStart (m : Memory) (addr : Nat) : m.regionSize ∣ m.granuleStart addr :=
  Nat.dvd_of_mod_eq_zero (granuleStart_mod addr)

theorem wf.size_dvd_granule (h : m.wf) {size : Nat} (hv : size ∈ [1, 2, 4, 8]) : size ∣ m.regionSize := by
  obtain ⟨⟨k, hk⟩, h8, -⟩ := configOk_iff.1 h.1
  have h3 : 3 ≤ k := (Nat.pow_le_pow_iff_right (a := 2) (by decide)).1 (hk ▸ h8)
  have hdvd : 8 ∣ m.regionSize := hk ▸ Nat.pow_dvd_pow 2 h3
  refine Nat.dvd_trans ?_ hdvd
  simp only [List.mem_cons, List.not_mem_nil, or_false] at hv
  obtain rfl | rfl | rfl | rfl := hv <;> decide

/-- An aligned access lies in one granule. -/
theorem wf.access_le_granuleEnd (h : m.wf) {addr size : Nat} (hv : size ∈ [1, 2, 4, 8]) (ha : addr % size = 0) :
    addr + size ≤ m.granuleStart addr + m.regionSize := by
  have hdvd := h.size_dvd_granule hv
  have hlt := lt_granuleEnd h.granule_pos addr
  exact Nat.le_of_lt_add_of_dvd (by omega) (Nat.dvd_add (Nat.dvd_of_mod_eq_zero ha) (Nat.dvd_refl size))
    (Nat.dvd_add (hdvd.trans (granule_dvd_granuleStart m addr)) hdvd)

section
variable {r : Region} (h : m.wf) (hr : r ∈ m.regions) {a : Nat}
include h hr

theorem wf.granule_dvd_start : m.regionSize ∣ r.start :=
  have ⟨_, _, _, hal, _⟩ := h.2.2 r hr
  Nat.dvd_of_mod_eq_zero hal

theorem wf.start_le_granuleStart (ha : r.start ≤ a) : r.start ≤ m.granuleStart a := by
  have hlt := lt_granuleEnd h.granule_pos a
  exact Nat.le_of_lt_add_of_dvd (by omega) (h.granule_dvd_start hr) (granule_dvd_granuleStart m a)

variable (hg : m.granular) (hn : r.isNormal = true)
include hg hn

theorem granular.granule_dvd_stop : m.regionSize ∣ r.stop :=
  Nat.dvd_add (h.granule_dvd_start hr) (Nat.dvd_of_mod_eq_zero (hg r hr hn))

/-- On granules, a NormalRegion that ends past a granule's start ends at or past the granule's end. -/
theorem granular.granuleEnd_le_stop (ha : m.granuleStart a < r.stop) : m.granuleStart a + m.regionSize ≤ r.stop :=
  Nat.le_of_lt_add_of_dvd (by omega) (Nat.dvd_add (granule_dvd_granuleStart m a) (Nat.dvd_refl _))
    (hg.granule_dvd_stop h hr hn)

end

end Memory

/-- Settles O16: a NormalRegion of whole granules that holds one address of a granule holds the granule, and an aligned
access does not leave its granule. -/
theorem regionFoundIffGranuleBacked : Obligations.RegionFoundIffGranuleBacked := by
  unfold Obligations.RegionFoundIffGranuleBacked
  intro m addr size h hg hv hal
  have hpos : 0 < size := Nat.pos_of_ne_zero fun h0 => by simp [h0] at hv
  have hend := h.access_le_granuleEnd hv hal
  have hle := m.granuleStart_le addr
  simp only [h.findRegion_eq_some_iff hpos, ← m.granuleStart_eq]
  constructor
  · rintro ⟨r, hr, hlo, hhi⟩
    by_cases hn : r.isNormal = true
    · exact .inl ⟨r, hr, hn, h.start_le_granuleStart hr hlo, hg.granuleEnd_le_stop h hr hn (by omega)⟩
    · exact .inr ⟨r, hr, Bool.eq_false_iff.2 hn, hlo, hhi⟩
  · rintro (⟨r, hr, -, hlo, hhi⟩ | ⟨r, hr, -, hlo, hhi⟩)
    · exact ⟨r, hr, by omega, by omega⟩
    · exact ⟨r, hr, hlo, hhi⟩

/-! ### What an allocation backs (R78 to R81) -/

/-- The memory `m'` is `m` with the addresses `[lo, hi)`, which no region of `m` touched, backed by zero bytes, in one region
that is new or one that ended at `lo`. -/
structure Memory.Backs (m m' : Memory) (lo hi : Nat) : Prop where
  wf      : m'.wf
  config  : SameConfig m m'
  apart   : ∀ q ∈ m.regions, hi ≤ q.start ∨ q.stop ≤ lo
  bytes   : ∀ (a : Nat) (b : Byte), m'.byteAt a = some b ↔ ((lo ≤ a ∧ a < hi) ∧ b = 0#8) ∨ m.byteAt a = some b
  devices : m'.regions.filter (fun r => !r.isNormal) = m.regions.filter (fun r => !r.isNormal)
  count   : m'.regions.length ≤ m.regions.length + 1
  calls   : m'.calls = m.calls
  draws   : m'.draws = m.draws

namespace Memory

variable {m m' : Memory}

theorem Backs.byteAt_in {lo hi a : Nat} (hb : m.Backs m' lo hi) (ha : lo ≤ a ∧ a < hi) : m'.byteAt a = some 0#8 :=
  (hb.bytes a _).2 (.inl ⟨ha, rfl⟩)

theorem Backs.byteAt_out {lo hi a : Nat} (hb : m.Backs m' lo hi) (ha : ¬ (lo ≤ a ∧ a < hi)) :
    m'.byteAt a = m.byteAt a := by
  ext b
  rw [hb.bytes]
  exact or_iff_right fun hin => ha hin.1

theorem wf.byteAt_of_backs (h : m.wf) {lo hi a : Nat} (hb : m.Backs m' lo hi) (ha : lo ≤ a ∧ a < hi) :
    m.byteAt a = none := by
  rw [h.byteAt_eq_none_iff]
  intro q hq _
  have := hb.apart q hq
  omega

theorem fresh_holdsByte {start size a : Nat} {b : Byte} :
    (Region.fresh start size).HoldsByte a b ↔ (start ≤ a ∧ a < start + size) ∧ b = 0#8 :=
  (and_iff_right rfl).trans (and_congr Iff.rfl eq_comm)

theorem insertRegion_length_le (rs : List Region) (r : Region) : (insertRegion rs r).length ≤ rs.length + 1 := by
  unfold insertRegion
  split <;> simp

/-- Adding a NormalRegion changes no MMIORegion. -/
theorem insertRegion_devices {r : Region} (hn : r.isNormal = true) (rs : List Region) :
    (insertRegion rs r).filter (fun q => !q.isNormal) = rs.filter (fun q => !q.isNormal) := by
  unfold insertRegion
  split
  · refine filter_updateFirst fun e _ he => ?_
    obtain ⟨-, hen, -⟩ := absorbs_iff.1 he
    have hmerged : (mergedWith r e).isNormal = true := by rw [(mergedWith_eq he).1]; rfl
    simp [hen, hmerged]
  · exact filter_insertSorted (by simp [hn]) rs

theorem wf.backs_addRegion_fresh (h : m.wf) {a : Nat} (hm : m.addRegion (Region.fresh a m.regionSize) = .ok m') :
    m.Backs m' a (a + m.regionSize) := by
  have hbytes {x : Nat} {b : Byte} := h.byteAt_addRegion (fresh_cellsWf a m.regionSize) hm (a := x) (b := b)
  obtain ⟨hwf, hconf⟩ := addRegion_wf h (fresh_cellsWf a m.regionSize) hm
  obtain ⟨⟨-, -, -, -, hov⟩, rfl⟩ := (addRegion_ok_iff m _ m').1 hm
  exact {
    wf := hwf
    config := hconf
    apart := not_overlapsAny hov
    bytes := fun x b => by rw [hbytes, fresh_holdsByte]
    devices := insertRegion_devices rfl _
    count := insertRegion_length_le _ _
    calls := rfl
    draws := rfl }

/-- A region extended to `hi` holds its bytes and zeros from its old end on (R74, R79). -/
theorem extendTo_holdsByte {hi : Nat} {p : Region} (hn : p.isNormal = true) (hle : p.stop ≤ hi)
    (hc : CellsWf p.start p.stop p.cells) {a : Nat} {b : Byte} :
    (extendTo hi p).HoldsByte a b ↔ ((p.stop ≤ a ∧ a < hi) ∧ b = 0#8) ∨ p.HoldsByte a b := by
  have hps : p.stop = p.start + p.size := rfl
  have hstop : (extendTo hi p).stop = hi := by
    rw [extendTo_eq hn hle]
    show p.start + (hi - p.start) = hi
    omega
  have hstart : (extendTo hi p).start = p.start := by rw [extendTo_eq hn hle]
  have hcells : (extendTo hi p).cells = p.cells := by rw [extendTo_eq hn hle]; rfl
  have hnormal : (extendTo hi p).isNormal = true := by rw [extendTo_eq hn hle]; exact hn
  simp only [Region.HoldsByte, hstop, hstart, hcells, hnormal, hn, true_and]
  by_cases hlow : a < p.stop
  · grind
  · have hzero : cellsGet p.cells a = 0#8 := hc.get_out (by omega)
    grind

theorem wf.backs_extend (h : m.wf) {hi : Nat} {p : Region} (hp : p ∈ m.regions) (hn : p.isNormal = true)
    (hle : p.stop < hi) (hov : m.overlapsAny p.stop hi = false)
    (hwf : ({ m with regions := updateFirst (fun q => q == p) (extendTo hi) m.regions } : Memory).wf) :
    m.Backs { m with regions := updateFirst (fun q => q == p) (extendTo hi) m.regions } p.stop hi := by
  obtain ⟨-, -, -, -, hc⟩ := h.2.2 p hp
  have hmem := mem_updateFirst_iff (p := fun q => q == p) (f := extendTo hi) h.nodup hp (beq_self_eq_true p)
    fun q _ hqp => beq_iff_eq.1 hqp
  refine {
    wf := hwf
    config := ⟨rfl, rfl, rfl⟩
    apart := not_overlapsAny hov
    bytes := fun a b => ?bytes
    devices := filter_updateFirst fun q _ hqp => ?devices
    count := by simp
    calls := rfl
    draws := rfl }
  case bytes =>
    have hext := extendTo_holdsByte hn hle.le hc (a := a) (b := b)
    rw [hwf.byteAt_eq_some_iff, h.byteAt_eq_some_iff]
    simp only [hmem]
    constructor
    · rintro ⟨q, rfl | ⟨hq, -⟩, hqb⟩
      · exact (hext.1 hqb).imp_right fun hpb => ⟨p, hp, hpb⟩
      · exact .inr ⟨q, hq, hqb⟩
    · rintro (hz | ⟨q, hq, hqb⟩)
      · exact ⟨_, .inl rfl, hext.2 (.inl hz)⟩
      · by_cases hqp : q = p
        · exact ⟨_, .inl rfl, hext.2 (.inr (hqp ▸ hqb))⟩
        · exact ⟨q, .inr ⟨hq, hqp⟩, hqb⟩
  case devices =>
    obtain rfl := beq_iff_eq.1 hqp
    have hnormal : (extendTo hi q).isNormal = true := by rw [extendTo_eq hn hle.le]; exact hn
    simp [hn, hnormal]

/-- On granules, the region an allocation extends ends at the granule's start. -/
theorem granular.stop_eq_granuleStart (hg : m.granular) (h : m.wf) {p : Region} (hp : p ∈ m.regions)
    (hn : p.isNormal = true) {addr : Nat} (hle : p.stop ≤ addr) (hnear : addr - p.stop < m.regionSize) :
    p.stop = m.granuleStart addr := by
  have hlt := lt_granuleEnd h.granule_pos addr
  have hdvd := hg.granule_dvd_stop h hp hn
  have hstart := m.granuleStart_le addr
  apply le_antisymm
  · exact Nat.le_of_lt_add_of_dvd (by omega) hdvd (granule_dvd_granuleStart m addr)
  · exact Nat.le_of_lt_add_of_dvd (by omega) (granule_dvd_granuleStart m addr) hdvd

/-- An allocation that succeeds backs the addresses up to the granule's end from some place less than a granule below the
access; on granules, from the granule's start. -/
theorem wf.backs_allocate (h : m.wf) {addr : Nat} (hm : m.allocate addr = .ok m') :
    ∃ lo, lo ≤ addr ∧ addr < lo + m.regionSize ∧ m.Backs m' lo (m.granuleStart addr + m.regionSize) ∧
      (m.granular → lo = m.granuleStart addr) := by
  have hlt := lt_granuleEnd h.granule_pos addr
  have hwf := (allocate_wf h hm).1
  obtain ⟨-, hadd | ⟨p, hp, hnear, hn, hov, rfl⟩⟩ := allocate_cases h hm
  · exact ⟨_, m.granuleStart_le addr, hlt, h.backs_addRegion_fresh hadd, fun _ => rfl⟩
  · obtain ⟨hpm, hps⟩ := closestBelow_spec hp
    exact ⟨p.stop, hps, by omega, h.backs_extend hpm hn (by omega) hov hwf,
      fun hg => hg.stop_eq_granuleStart h hpm hn hps hnear⟩

/-! ### Whole granules are kept (R87, D28) -/

theorem granular.addRegion (hg : m.granular) {r : Region} (hr : r.size % m.regionSize = 0)
    (hm : m.addRegion r = .ok m') : m'.granular := by
  obtain ⟨-, rfl⟩ := (addRegion_ok_iff m r m').1 hm
  intro q hq hn
  simp only [insertRegion] at hq
  split at hq
  · rcases mem_updateFirst hq with hq | ⟨e, he, hre, rfl⟩
    · exact hg q hq hn
    · obtain ⟨-, hen, -⟩ := absorbs_iff.1 hre
      rw [(mergedWith_eq hre).1]
      exact Nat.mod_eq_zero_of_dvd
        (Nat.dvd_add (Nat.dvd_of_mod_eq_zero (hg e he hen)) (Nat.dvd_of_mod_eq_zero hr))
  · rcases mem_insertSorted hq with rfl | hq
    · exact hr
    · exact hg q hq hn

theorem granular.allocate (hg : m.granular) (h : m.wf) {addr : Nat} (hm : m.allocate addr = .ok m') : m'.granular := by
  obtain ⟨-, hadd | ⟨p, hp, -, hpn, -, rfl⟩⟩ := allocate_cases h hm
  · exact hg.addRegion (Nat.mod_self _) hadd
  · obtain ⟨hpm, hps⟩ := closestBelow_spec hp
    have hlt := lt_granuleEnd h.granule_pos addr
    intro q hq hn
    rcases mem_updateFirst hq with hq | ⟨r, hr, hrp, rfl⟩
    · exact hg q hq hn
    · obtain rfl := beq_iff_eq.1 hrp
      rw [extendTo_eq hpn (by omega)]
      have hhi := Nat.dvd_add (granule_dvd_granuleStart m addr) (Nat.dvd_refl m.regionSize)
      exact Nat.mod_eq_zero_of_dvd (Nat.dvd_sub hhi (h.granule_dvd_start hr))

end Memory

/-! ### What a write to a NormalRegion puts (R68, R76) -/

/-- The memory `m'` is `m` with the bytes `data` put from `addr` on, inside one NormalRegion. -/
structure Memory.Puts (m m' : Memory) (addr : Nat) (data : List Byte) : Prop where
  wf      : m'.wf
  config  : SameConfig m m'
  inside  : ∀ k, k < data.length → m'.byteAt (addr + k) = data[k]?
  outside : ∀ a, (a < addr ∨ addr + data.length ≤ a) → m'.byteAt a = m.byteAt a
  found   : ∃ r, m'.findRegion addr data.length = some r ∧ r.isNormal = true
  shape   : m'.regions.map (fun q => (q.start, q.size, q.isNormal)) =
    m.regions.map (fun q => (q.start, q.size, q.isNormal))
  devices : m'.regions.filter (fun r => !r.isNormal) = m.regions.filter (fun r => !r.isNormal)
  calls   : m'.calls = m.calls
  draws   : m'.draws = m.draws

namespace Memory

variable {m m' : Memory} {addr size : Nat} {data : List Byte} {r : Region}

theorem Puts.length_regions (hp : m.Puts m' addr data) : m'.regions.length = m.regions.length := by
  simpa using congrArg List.length hp.shape

theorem Puts.granular (hp : m.Puts m' addr data) (hg : m.granular) : m'.granular := by
  intro q hq hn
  have hmem : (q.start, q.size, q.isNormal) ∈ m.regions.map fun q => (q.start, q.size, q.isNormal) :=
    hp.shape ▸ List.mem_map_of_mem hq
  obtain ⟨r, hr, heq⟩ := List.mem_map.1 hmem
  simp only [Prod.mk.injEq] at heq
  obtain ⟨-, hsize, hnormal⟩ := heq
  rw [← hsize, hp.config.2.2]
  exact hg r hr (hnormal.trans hn)

/-- A write that finds a NormalRegion succeeds and puts its bytes there. -/
theorem wf.puts_regionWrite (h : m.wf) (hd : 0 < data.length) (hf : m.findRegion addr data.length = some r)
    (hn : r.isNormal = true) : ∃ m', m.regionWrite r addr data.length data = .ok m' ∧ m.Puts m' addr data := by
  obtain ⟨hr, hrc⟩ := find_region_spec hf
  have hw := regionWrite_normal (m := m) (data := data) hrc hn
  have hmem := h.mem_regions_regionWrite hr hn hd hrc hw
  obtain ⟨hwf, hconf⟩ := regionWrite_wf h rfl hw
  have hkeeps : ∀ q ∈ m.regions, q.holds addr data.length = true → q.isNormal = true := fun q hq hqc => by
    rw [h.eq_of_contain hr hq hd hrc (by simpa [Region.holds] using hqc)]
    exact hn
  refine ⟨_, hw, {
    wf := hwf
    config := hconf
    inside := fun k => h.byteAt_regionWrite_in hr hn hrc hw
    outside := fun a => h.byteAt_regionWrite_out hr hn hd hrc hw
    found := ⟨putBytes addr data r, ?_, by rwa [putBytes_isNormal]⟩
    shape := map_updateFirst fun q _ _ => by rw [putBytes_start, putBytes_size, putBytes_isNormal]
    devices := filter_updateFirst fun q hq hqc => by simp [putBytes_isNormal, hkeeps q hq hqc]
    calls := rfl
    draws := rfl }⟩
  rw [hwf.findRegion_eq_some_iff hd, hmem, putBytes_start, putBytes_stop]
  exact ⟨.inl rfl, hrc⟩

/-- The same NormalRegion, found by a valid write of the memory. -/
theorem wf.puts_write (h : m.wf) (hv : data.length ∈ [1, 2, 4, 8]) (ha : addr % data.length = 0)
    (hf : m.findRegion addr data.length = some r) (hn : r.isNormal = true) :
    ∃ m', m.write addr data.length data = .ok m' ∧ m.Puts m' addr data := by
  have hd : 0 < data.length := Nat.pos_of_ne_zero fun h0 => by simp [h0] at hv
  obtain ⟨m', hw, hp⟩ := h.puts_regionWrite hd hf hn
  exact ⟨m', by simp [write, validSize_iff.2 hv, ha, hf, hw], hp⟩

theorem write_of_findRegion_device {name : String} (hv : data.length ∈ [1, 2, 4, 8]) (ha : addr % data.length = 0)
    (hf : m.findRegion addr data.length = some r) (hb : r.backing = .mmio name) :
    m.write addr data.length data = .ok (m.deviceWrite name addr data.length data) := by
  simp [write, validSize_iff.2 hv, ha, hf, regionWrite_device (find_region_spec hf).2 hb]

theorem isNormal_of_backing_mmio {name : String} (hb : r.backing = .mmio name) : r.isNormal = false := by
  simp [Region.isNormal, hb]

/-- What a completed write does: one device call, or its bytes put in a NormalRegion of the memory, or of the memory with
the granule allocated. -/
theorem wf.write_effect (h : m.wf) (hm : m.write addr size data = .ok m') : data.length = size ∧
    ((∃ r name, m.findRegion addr size = some r ∧ r.backing = .mmio name ∧
        m' = m.deviceWrite name addr size data) ∨
      ((∃ r, m.findRegion addr size = some r ∧ r.isNormal = true) ∧ m.Puts m' addr data) ∨
      (m.findRegion addr size = none ∧ ∃ m1, m.allocate addr = .ok m1 ∧ m1.Puts m' addr data)) := by
  obtain ⟨hv, -, hl, ⟨r, hf, hw⟩ | ⟨hnone, m1, r, hal, hf, hw⟩⟩ := write_cases hm
  all_goals
    subst hl
    have hd : 0 < data.length := Nat.pos_of_ne_zero fun h0 => by rw [h0] at hv; cases hv
  · refine ⟨rfl, ?_⟩
    obtain ⟨name, hb, rfl⟩ | ⟨hn, -⟩ := regionWrite_cases hw
    · exact .inl ⟨r, name, hf, hb, rfl⟩
    · obtain ⟨m2, hw2, hp⟩ := h.puts_regionWrite hd hf hn
      cases hw.symm.trans hw2
      exact .inr (.inl ⟨⟨r, hf, hn⟩, hp⟩)
  · refine ⟨rfl, .inr (.inr ⟨hnone, m1, hal, ?_⟩)⟩
    obtain ⟨lo, -, -, hb, -⟩ := h.backs_allocate hal
    obtain ⟨hr, hrc⟩ := find_region_spec hf
    have hn : r.isNormal = true := by
      by_contra hdev
      have hmem : r ∈ m1.regions.filter fun q => !q.isNormal := by simpa [hr] using hdev
      rw [hb.devices] at hmem
      exact findRegion_eq_none_iff.1 hnone r (List.mem_filter.1 hmem).1 hrc
    obtain ⟨m2, hw2, hp⟩ := hb.wf.puts_regionWrite hd hf hn
    cases hw.symm.trans hw2
    exact hp

/-- A write keeps NormalRegions of whole granules. -/
theorem granular.write (hg : m.granular) (h : m.wf) (hm : m.write addr size data = .ok m') : m'.granular := by
  obtain ⟨-, ⟨r, name, -, -, rfl⟩ | ⟨-, hp⟩ | ⟨-, m1, hal, hp⟩⟩ := h.write_effect hm
  · exact hg
  · exact hp.granular hg
  · exact hp.granular (hg.allocate h hal)

end Memory

/-! ### Reading what memory holds (R68, R86, R103) -/

namespace Memory

variable {m m' : Memory} {addr size : Nat} {data : List Byte} {r : Region}

/-- A read that finds a NormalRegion gives the bytes of its addresses and leaves the memory. -/
theorem wf.read_normal (h : m.wf) (hv : size ∈ [1, 2, 4, 8]) (ha : addr % size = 0)
    (hf : m.findRegion addr size = some r) (hn : r.isNormal = true) :
    ∃ bs, m.read addr size = .ok (bs, m) ∧ bs.length = size ∧ ∀ k, k < size → m.byteAt (addr + k) = bs[k]? := by
  obtain ⟨hr, hrc⟩ := find_region_spec hf
  refine ⟨_, read_of_findRegion_normal hv ha hf hn, cellsRead_length _ _ _, fun k hk => ?_⟩
  rw [getElem?_cellsRead _ _ hk, h.byteAt_of_mem hr hn (by omega)]

/-- The bytes a NormalRegion holds are the ones read. -/
theorem wf.read_eq (h : m.wf) (hv : data.length ∈ [1, 2, 4, 8]) (ha : addr % data.length = 0)
    (hf : m.findRegion addr data.length = some r) (hn : r.isNormal = true)
    (hb : ∀ k, k < data.length → m.byteAt (addr + k) = data[k]?) : m.read addr data.length = .ok (data, m) := by
  obtain ⟨bs, hread, hlen, hbs⟩ := h.read_normal hv ha hf hn
  suffices bs = data by rwa [this] at hread
  refine List.ext_getElem? fun k => ?_
  by_cases hk : k < data.length
  · rw [← hbs k hk, hb k hk]
  · rw [List.getElem?_eq_none (by omega), List.getElem?_eq_none (by omega)]

/-- Bytes put are read back. -/
theorem Puts.read_eq (hp : m.Puts m' addr data) (hv : data.length ∈ [1, 2, 4, 8]) (ha : addr % data.length = 0) :
    m'.read addr data.length = .ok (data, m') := by
  obtain ⟨r, hf, hn⟩ := hp.found
  exact hp.wf.read_eq hv ha hf hn hp.inside

theorem calls_deviceWrite_ne {name : String} : (m.deviceWrite name addr size data).calls ≠ m.calls := by
  simp [deviceWrite]

/-- A completed write that made no device call put its bytes: its access finds a NormalRegion and reads them. -/
theorem wf.read_after_write (h : m.wf) (hm : m.write addr size data = .ok m') (hc : m'.calls = m.calls) :
    m'.wf ∧ (∃ r, m'.findRegion addr size = some r ∧ r.isNormal = true) ∧ m'.read addr size = .ok (data, m') := by
  obtain ⟨hv, ha, -⟩ := write_cases hm
  obtain ⟨hl, ⟨r, name, -, -, rfl⟩ | ⟨-, hp⟩ | ⟨-, m1, -, hp⟩⟩ := h.write_effect hm
  · exact absurd hc calls_deviceWrite_ne
  all_goals
    subst hl
    exact ⟨hp.wf, hp.found, hp.read_eq (validSize_iff.1 hv) ha⟩

/-- A write that finds a NormalRegion makes no device call. -/
theorem wf.calls_write_normal (h : m.wf) (hf : m.findRegion addr size = some r) (hn : r.isNormal = true)
    (hm : m.write addr size data = .ok m') : m'.calls = m.calls := by
  obtain ⟨-, ⟨q, name, hq, hb, -⟩ | ⟨-, hp⟩ | ⟨hnone, -⟩⟩ := h.write_effect hm
  · cases hf.symm.trans hq
    rw [isNormal_of_backing_mmio hb] at hn
    cases hn
  · exact hp.calls
  · rw [hf] at hnone
    cases hnone

end Memory

/-- Settles O12: the region found holds every address of the access. -/
theorem readReturnsTheBytes : Obligations.ReadReturnsTheBytes := by
  unfold Obligations.ReadReturnsTheBytes
  exact fun m addr size r h hv ha hf hn => h.read_normal hv ha hf hn

/-- Settles O13: a write that called no device put its bytes in a NormalRegion, which the second write finds again. -/
theorem readAfterWrite : Obligations.ReadAfterWrite := by
  unfold Obligations.ReadAfterWrite
  intro m m1 addr size p h hw hc
  obtain ⟨h1, ⟨r, hf, hn⟩, hread⟩ := h.read_after_write hw hc
  refine ⟨hread, fun q m2 hw2 => ?_⟩
  obtain ⟨-, -, hread2⟩ := h1.read_after_write hw2 (h1.calls_write_normal hf hn hw2)
  exact hread2

/-- Settles O14: outside its bytes a write changes only what its allocation backs. -/
theorem writeLeavesOtherBytes : Obligations.WriteLeavesOtherBytes := by
  unfold Obligations.WriteLeavesOtherBytes
  intro m m' addr size data h hm a ha
  obtain ⟨rfl, ⟨r, name, -, -, rfl⟩ | ⟨-, hp⟩ | ⟨hnone, m1, hal, hp⟩⟩ := h.write_effect hm
  · exact .inl rfl
  · exact .inl (hp.outside a ha)
  · obtain ⟨lo, hlo, hnear, hb, hgran⟩ := h.backs_allocate hal
    rw [hp.outside a ha, ← m.granuleStart_eq]
    by_cases hin : lo ≤ a ∧ a < m.granuleStart addr + m.regionSize
    · exact .inr ⟨h.byteAt_of_backs hb hin, hb.byteAt_in hin, hnone, by omega, hin.2, fun hg => hgran hg ▸ hin.1⟩
    · exact .inl (hb.byteAt_out hin)

/-! ### When allocation succeeds (R78 to R81, R87) -/

namespace Memory

variable {m m' : Memory} {addr size : Nat} {data : List Byte}

/-- A valid write that finds no region is decided by its allocation. -/
theorem write_of_findRegion_none (hv : data.length ∈ [1, 2, 4, 8]) (ha : addr % data.length = 0)
    (hf : m.findRegion addr data.length = none) :
    m.write addr data.length data = m.allocateAndWrite addr data.length data := by
  simp [write, validSize_iff.2 hv, ha, hf]

theorem allocate_out_of_bounds
    (hb : m.granuleStart addr < m.memoryStart ∨ m.memoryEnd < m.granuleStart addr + m.regionSize) :
    m.allocate addr = .error .regionError := by
  simp only [allocate, if_pos hb]

theorem granuleStart_congr (hc : SameConfig m m') (addr : Nat) : m'.granuleStart addr = m.granuleStart addr := by
  rw [granuleStart, granuleStart, hc.2.2]

section
variable (h : m.wf) (hlo : m.memoryStart ≤ m.granuleStart addr)
  (hhi : m.granuleStart addr + m.regionSize ≤ m.memoryEnd)
include h hlo hhi

/-- The granule is added unless a region overlaps it. -/
theorem wf.addOrBlock_granule : ∃ m', m.addOrBlock (Region.fresh (m.granuleStart addr) m.regionSize) =
    if m.overlapsAny (m.granuleStart addr) (m.granuleStart addr + m.regionSize) then .error .memoryError else .ok m' := by
  refine ⟨{ m with regions := insertRegion m.regions (Region.fresh (m.granuleStart addr) m.regionSize) }, ?_⟩
  split
  · rename_i hov
    have hbad : ∀ m1, m.addRegion (Region.fresh (m.granuleStart addr) m.regionSize) ≠ .ok m1 := fun m1 hm1 => by
      obtain ⟨⟨-, -, -, -, hno⟩, -⟩ := (addRegion_ok_iff _ _ _).1 hm1
      exact Bool.eq_false_iff.1 hno hov
    unfold addOrBlock
    split
    · exact absurd ‹_› (hbad _)
    · rfl
  · rename_i hov
    have hadd := (addRegion_ok_iff m (Region.fresh (m.granuleStart addr) m.regionSize) _).2
      ⟨⟨h.granule_pos.ne', hlo, hhi, granuleStart_mod addr, Bool.eq_false_iff.2 hov⟩, rfl⟩
    simp [addOrBlock, hadd]

/-- On granules, an allocation in the bounds succeeds unless a region overlaps the granule. -/
theorem granular.allocate_eq (hg : m.granular) : ∃ m', m.allocate addr =
    if m.overlapsAny (m.granuleStart addr) (m.granuleStart addr + m.regionSize) then .error .memoryError else .ok m' := by
  have hadd := h.addOrBlock_granule hlo hhi
  unfold Memory.allocate
  simp only [createGranule_eq h (granuleStart_mod addr)]
  rw [if_neg (by omega)]
  split
  · exact hadd
  · split
    · rename_i p hp
      split
      · rename_i hnear
        obtain ⟨hpm, hps⟩ := closestBelow_spec hp
        rw [hg.stop_eq_granuleStart h hpm hnear.2 hps hnear.1]
        exact ⟨_, rfl⟩
      · exact hadd
    · exact hadd

end

/-- A valid write that finds no region fails as its allocation does. -/
theorem write_of_allocate_error {e : MemError} (hv : data.length ∈ [1, 2, 4, 8]) (ha : addr % data.length = 0)
    (hf : m.findRegion addr data.length = none) (hal : m.allocate addr = .error e) :
    m.write addr data.length data = .error e := by
  simp [write_of_findRegion_none hv ha hf, allocateAndWrite, hal]

/-- On granules, a write whose allocation succeeds finds the backed granule and puts its bytes. -/
theorem wf.puts_of_allocate (h : m.wf) (hg : m.granular) (hv : data.length ∈ [1, 2, 4, 8])
    (ha : addr % data.length = 0) (hf : m.findRegion addr data.length = none) {m1 : Memory}
    (hal : m.allocate addr = .ok m1) : ∃ m', m.write addr data.length data = .ok m' ∧ m1.Puts m' addr data := by
  obtain ⟨lo, hlo, -, hb, -⟩ := h.backs_allocate hal
  have hd : 0 < data.length := Nat.pos_of_ne_zero fun h0 => by simp [h0] at hv
  have hend := h.access_le_granuleEnd hv ha
  obtain ⟨r, hr, hn, hin, -⟩ := hb.wf.byteAt_eq_some_iff.1 (hb.byteAt_in (a := addr) ⟨hlo, by omega⟩)
  have hgr := (hg.allocate h hal).granuleEnd_le_stop hb.wf hr hn (a := addr)
  rw [granuleStart_congr hb.config, hb.config.2.2] at hgr
  have hstart := m.granuleStart_le addr
  have hf1 := (hb.wf.findRegion_eq_some_iff hd).2 ⟨hr, hin.1, hend.trans (hgr (by omega))⟩
  obtain ⟨m', hw, hp⟩ := hb.wf.puts_regionWrite hd hf1 hn
  exact ⟨m', by simp [write_of_findRegion_none hv ha hf, allocateAndWrite, hal, hf1, hw], hp⟩

end Memory

/-- Settles O15: the allocation's outcome is decided by the bounds and by overlap with the granule, which on granules is
exactly what it backs. -/
theorem writeAllocationOnGranules : Obligations.WriteAllocationOnGranules := by
  unfold Obligations.WriteAllocationOnGranules
  rintro m addr size data h hg hv hal rfl hf
  simp only [← m.granuleStart_eq]
  refine ⟨fun hout => ?bounds, fun hlo hhi hov => ?overlap, fun hlo hhi hno => ?backed⟩
  case bounds => exact Memory.write_of_allocate_error hv hal hf (Memory.allocate_out_of_bounds hout)
  case overlap =>
    obtain ⟨m1, halloc⟩ := hg.allocate_eq h hlo hhi
    rw [if_pos (by simpa [Memory.overlapsAny, Region.overlapsRange] using hov)] at halloc
    exact Memory.write_of_allocate_error hv hal hf halloc
  case backed =>
    obtain ⟨m1, halloc⟩ := hg.allocate_eq h hlo hhi
    rw [if_neg (by simp [Memory.overlapsAny_eq_false_iff.2 hno])] at halloc
    obtain ⟨lo, -, -, hb, hgran⟩ := h.backs_allocate halloc
    obtain rfl := hgran hg
    obtain ⟨m', hw, hp⟩ := h.puts_of_allocate hg hv hal hf halloc
    have hend := h.access_le_granuleEnd hv hal
    have hstart := m.granuleStart_le addr
    exact ⟨m', hw, hp.wf, hp.granular (hg.allocate h halloc), hp.inside,
      fun b hb1 hb2 hout => (hp.outside b hout).trans (hb.byteAt_in ⟨hb1, hb2⟩),
      fun b hout => (hp.outside b (by omega)).trans (hb.byteAt_out (by omega)),
      hp.calls.trans hb.calls, hp.draws.trans hb.draws, hp.devices.trans hb.devices,
      hp.length_regions ▸ hb.count⟩

end Sys2Proof.Machine
end

section
/-! PROOFS. What every instruction and every step keeps (spec/40_core_step.md rules R180 to R195): by the shapes of their
answers, and of the fetch. -/

namespace Sys2Proof.Machine

/-! ### The answers of an instruction (R187 to R189) -/

section
variable {s t : State} {r : Result}

/-- Whatever an instruction answers, slot 0 is as it was. -/
theorem Answer.slot_zero (h : Answer s (.next t)) : t.rf.slot 0 = s.rf.slot 0 := by
  cases h with
  | register rd v npc => rw [State.slot_zero_retire, State.slot_zero_setX]
  | loaded a n bs m rd v hm => rw [State.slot_zero_retire, State.slot_zero_setX, State.withMem_rf]
  | stored a n bs m hm => rw [State.slot_zero_retire, State.withMem_rf]
  | event o ho => rfl

/-- An instruction that goes on leaves the memory, or reads it once, or writes it once. -/
theorem Answer.memory (h : Answer s (.next t)) : t.mem = s.mem ∨
    (∃ a n bs, s.mem.read a n = .ok (bs, t.mem)) ∨ ∃ a n bs, s.mem.write a n bs = .ok t.mem := by
  cases h with
  | register rd v npc => exact .inl (by simp)
  | loaded a n bs m rd v hm => exact .inr (.inl ⟨a, n, bs, by simpa using hm⟩)
  | stored a n bs m hm => exact .inr (.inr ⟨a, n, bs, by simpa using hm⟩)
  | event o ho => exact .inl rfl

/-- An instruction that does not retire leaves the state but for the outcome. -/
theorem Answer.event_of_ne_retired (h : Answer s (.next t)) (ho : t.outcome ≠ some .retired) :
    ∃ o, o ≠ .retired ∧ t = s.report o := by
  cases h with
  | register rd v npc => exact absurd rfl ho
  | loaded a n bs m rd v hm => exact absurd rfl ho
  | stored a n bs m hm => exact absurd rfl ho
  | event o hne => exact ⟨o, hne, rfl⟩

theorem Answer.fault_inv {f : Fault} (h : Answer s (.fault f)) : ∃ e a n, f = faultOf e a n s := by
  cases h with
  | error e a n => exact ⟨e, a, n, rfl⟩

end

/-! ### The step's cases (R180 to R192) -/

/-- What a step that goes on did: it reported a misaligned PC, or it fetched a word and reported it as illegal or ran its
instruction. -/
theorem step_next_cases {s t : State} (h : step s = .next t) :
    (s.pc.toNat % 4 ≠ 0 ∧ t = s.report (.memMisaligned .fetch s.pc s.pc.toNat 4)) ∨
    ∃ w m, Fetches s w m ∧
      ((∃ d, decodeWord w = .error d ∧ t = (s.withMem m).report (.illegalInst s.pc w)) ∨
        ∃ i, decodeWord w = .ok i ∧ exec i (s.withMem m) = .next t) := by
  obtain ⟨ha, hs⟩ | ⟨-, e, -, hs⟩ | ⟨ha, bs, m, hr, ⟨d, hd, hs⟩ | ⟨i, hi, hs⟩⟩ := step_cases s <;> rw [hs] at h
  case inl =>
    cases h
    refine .inl ⟨fun hp => ?_, by rw [addrOf_eq]⟩
    rw [aligned_eq_true_iff.2 hp] at ha
    cases ha
  case inr.inl => cases h
  all_goals
    have hw : Fetches s (wordOf s.endian bs) m := ⟨aligned_eq_true_iff.1 ha, bs, hr, rfl⟩
  case inr.inr.inl =>
    rw [decodeInstr_eq_decodeWord _ _ (Memory.read_length hr)] at hd
    cases h
    exact .inr ⟨_, m, hw, .inl ⟨d, hd, rfl⟩⟩
  case inr.inr.inr =>
    rw [decodeInstr_eq_decodeWord _ _ (Memory.read_length hr)] at hi
    exact .inr ⟨_, m, hw, .inr ⟨i, hi, h⟩⟩

/-- What a step that ends in an emulator error did: its fetch failed, or its instruction's access. -/
theorem step_fault_cases {s : State} {f : Fault} (h : step s = .fault f) :
    (∃ e, f = faultOf e s.pc.toNat 4 s) ∨ ∃ w m, Fetches s w m ∧ ∃ e a n, f = faultOf e a n (s.withMem m) := by
  obtain ⟨ha, hs⟩ | ⟨-, e, -, hs⟩ | ⟨ha, bs, m, hr, ⟨d, hd, hs⟩ | ⟨i, hi, hs⟩⟩ := step_cases s <;> rw [hs] at h
  case inl => cases h
  case inr.inl => cases h; exact .inl ⟨e, rfl⟩
  case inr.inr.inl => cases h
  case inr.inr.inr =>
    exact .inr ⟨_, m, ⟨aligned_eq_true_iff.1 ha, bs, hr, rfl⟩, (h ▸ exec_answer i (s.withMem m)).fault_inv⟩

/-- No step lacks a meaning. -/
theorem step_ne_refused (s : State) (r : Refusal) : step s ≠ .refused r := by
  obtain ⟨-, hs⟩ | ⟨-, e, -, hs⟩ | ⟨-, bs, m, -, ⟨d, -, hs⟩ | ⟨i, -, hs⟩⟩ := step_cases s <;> rw [hs]
  case inr.inr.inr =>
    intro h
    have ha := exec_answer i (s.withMem m)
    rw [h] at ha
    cases ha
  all_goals intro h; cases h

/-- A fetch leaves the memory, or makes one 4-byte device read at the PC. -/
theorem Fetches.memory {s : State} {w : Word} {m : Memory} (h : Fetches s w m) :
    m = s.mem ∨ ∃ name, m = (s.mem.deviceRead name s.pc.toNat 4).2 := by
  obtain ⟨-, bs, hr, -⟩ := h
  obtain ⟨-, -, r, -, ⟨-, -, rfl⟩ | ⟨name, -, -, rfl⟩⟩ := Memory.read_cases hr
  · exact .inl rfl
  · exact .inr ⟨name, rfl⟩

/-- Settles O5: no shape of an instruction's answer writes slot 0, and a step's other answers keep the register file. -/
theorem zeroRegisterNeverChanges : Obligations.ZeroRegisterNeverChanges := by
  unfold Obligations.ZeroRegisterNeverChanges
  refine ⟨fun i s t h => ⟨t.x_zero, (h ▸ exec_answer i s).slot_zero⟩, fun s t h => ⟨t.x_zero, ?_⟩⟩
  obtain ⟨-, rfl⟩ | ⟨w, m, -, ⟨d, -, rfl⟩ | ⟨i, -, hs⟩⟩ := step_next_cases h
  · rfl
  · rfl
  · exact (hs ▸ exec_answer i (s.withMem m)).slot_zero

/-! ### The step's own reports (R181, R183, R189, R191) -/

theorem step_of_pc_misaligned {s : State} (hp : s.pc.toNat % 4 ≠ 0) :
    step s = .next (s.report (.memMisaligned .fetch s.pc s.pc.toNat 4)) := by
  have ha : aligned s.pc 4 = false := Bool.eq_false_iff.2 (mt aligned_eq_true_iff.1 hp)
  simp [step, fetch, ha, raiseMisaligned, raise]

/-- Settles O28. -/
theorem stepRunsTheDecodedInstruction : Obligations.StepRunsTheDecodedInstruction := by
  unfold Obligations.StepRunsTheDecodedInstruction
  exact fun s w m i => step_of_fetches

/-- Settles O31. -/
theorem stepReportsIllegalWord : Obligations.StepReportsIllegalWord := by
  unfold Obligations.StepReportsIllegalWord
  exact fun s w m d => step_of_fetches_illegal

/-- Settles O32. -/
theorem stepReportsMisalignedPc : Obligations.StepReportsMisalignedPc := by
  unfold Obligations.StepReportsMisalignedPc
  exact fun s => step_of_pc_misaligned

/-- What a fetch leaves of the memory: all of it, but for one more device call, the 4-byte read at the PC (R182). -/
theorem Fetches.leaves {s : State} {w : Word} {m : Memory} (h : Fetches s w m) :
    m.regions = s.mem.regions ∧ SameConfig s.mem m ∧
      (m = s.mem ∨ ∃ c, m.calls = s.mem.calls ++ [c] ∧ c.kind = .read ∧ c.addr = s.pc.toNat ∧ c.size = 4) := by
  obtain rfl | ⟨name, rfl⟩ := h.memory
  · exact ⟨rfl, ⟨rfl, rfl, rfl⟩, .inl rfl⟩
  · exact ⟨rfl, ⟨rfl, rfl, rfl⟩, .inr ⟨_, rfl, rfl, rfl, rfl⟩⟩

/-- Settles O33: a step that does not retire leaves the state, or the state its fetch left, but for the outcome. -/
theorem nonRetiringStepWritesNothing : Obligations.NonRetiringStepWritesNothing := by
  unfold Obligations.NonRetiringStepWritesNothing
  refine ⟨fun s t h ho => ?event, fun s f h => ?error⟩
  case event =>
    obtain ⟨-, rfl⟩ | ⟨w, m, hw, ⟨d, -, rfl⟩ | ⟨i, -, hs⟩⟩ := step_next_cases h
    · exact ⟨rfl, rfl, ⟨rfl, rfl, rfl⟩, .inl rfl⟩
    · exact ⟨rfl, hw.leaves⟩
    · obtain ⟨o, -, rfl⟩ := (hs ▸ exec_answer i (s.withMem m)).event_of_ne_retired ho
      exact ⟨rfl, hw.leaves⟩
  case error =>
    have hfault (e : MemError) (a n : Nat) (t : State) :
        faultOf e a n t = .regionError a n t ∨ faultOf e a n t = .memoryError a n t := by
      cases e
      · exact .inr rfl
      · exact .inl rfl
    obtain ⟨e, rfl⟩ | ⟨w, m, hw, e, a, n, rfl⟩ := step_fault_cases h
    · exact ⟨_, _, s, hfault e _ _ s, rfl, rfl, rfl, ⟨rfl, rfl, rfl⟩, .inl rfl⟩
    · exact ⟨_, _, s.withMem m, hfault e a n _, rfl, rfl, hw.leaves⟩

theorem Answer.reports {s t : State} (h : Answer s (.next t)) : ∃ o, t.outcome = some o := by
  cases h <;> exact ⟨_, rfl⟩

/-- Settles O35: every case of a step that goes on reports, and only a decoded instruction's answer can report `Retired`. -/
theorem stepReportsOneOutcome : Obligations.StepReportsOneOutcome := by
  unfold Obligations.StepReportsOneOutcome
  refine fun s => ⟨step_ne_refused s, fun t h => ?reports, fun t h ho => ?retired⟩
  case reports =>
    obtain ⟨-, rfl⟩ | ⟨w, m, -, ⟨d, -, rfl⟩ | ⟨i, -, hs⟩⟩ := step_next_cases h
    · exact ⟨_, rfl⟩
    · exact ⟨_, rfl⟩
    · exact (hs ▸ exec_answer i (s.withMem m)).reports
  case retired =>
    obtain ⟨-, rfl⟩ | ⟨w, m, hw, ⟨d, -, rfl⟩ | ⟨i, hi, hs⟩⟩ := step_next_cases h
    · cases ho
    · cases ho
    · exact ⟨w, m, i, hw, hi, hs⟩

/-! ### What allocation leaves, in any memory (R77 to R83) -/

namespace Memory

variable {m m' : Memory}

theorem extendTo_isNormal (hi : Nat) (p : Region) : (extendTo hi p).isNormal = p.isNormal := by
  unfold extendTo Region.resize
  split
  · rename_i p' h
    split_ifs at h
    cases h
    rfl
  · rfl

theorem mem_insertRegion_isNormal {rs : List Region} {r : Region} (hr : r.isNormal = true)
    (h : ∀ q ∈ rs, q.isNormal = true) : ∀ q ∈ insertRegion rs r, q.isNormal = true := by
  intro q hq
  unfold insertRegion at hq
  split at hq
  · obtain hq | ⟨e, -, hre, rfl⟩ := mem_updateFirst hq
    · exact h q hq
    · rw [(mergedWith_eq hre).1]; rfl
  · obtain rfl | hq := mem_insertSorted hq
    · exact hr
    · exact h q hq

/-- The memory `m'` differs from `m` in its regions only, and has no MMIORegion if `m` has none. -/
def RegionsChanged (m m' : Memory) : Prop :=
  (∃ rs, m' = { m with regions := rs }) ∧
    ((∀ r ∈ m.regions, r.isNormal = true) → ∀ r ∈ m'.regions, r.isNormal = true)

theorem regionsChanged_addOrBlock {r : Region} (hr : r.isNormal = true) (h : m.addOrBlock r = .ok m') :
    RegionsChanged m m' := by
  obtain ⟨-, rfl⟩ := (addRegion_ok_iff m r m').1 (addOrBlock_ok h)
  exact ⟨⟨_, rfl⟩, mem_insertRegion_isNormal hr⟩

theorem regionsChanged_createGranule {a : Nat} (h : m.createGranule a = .ok m') : RegionsChanged m m' := by
  unfold createGranule at h
  split at h
  · exact regionsChanged_addOrBlock rfl h
  · rename_i q hq
    dsimp only at h
    split at h
    · rename_i merged hmerge
      have hn : merged.isNormal = true := by
        unfold Region.merge at hmerge
        split_ifs at hmerge
        cases hmerge
        rfl
      obtain ⟨⟨rs, rfl⟩, hnormal⟩ := regionsChanged_addOrBlock hn h
      exact ⟨⟨rs, rfl⟩, fun hall => hnormal fun r hr => hall r (List.mem_of_mem_erase hr)⟩
    · exact regionsChanged_addOrBlock rfl h

theorem regionsChanged_allocate {addr : Nat} (h : m.allocate addr = .ok m') : RegionsChanged m m' := by
  unfold allocate at h
  dsimp only at h
  split at h
  · cases h
  · split at h
    · exact regionsChanged_addOrBlock rfl h
    · split at h
      · split at h
        · split at h
          · cases h
          · cases h
            refine ⟨⟨_, rfl⟩, fun hall r hr => ?_⟩
            obtain hr | ⟨q, hq, -, rfl⟩ := mem_updateFirst hr
            · exact hall r hr
            · rw [extendTo_isNormal, hall q hq]
        · exact regionsChanged_createGranule h
      · exact regionsChanged_createGranule h

/-- A read adds at most one device call. -/
theorem calls_read {addr size : Nat} {bs : List Byte} (h : m.read addr size = .ok (bs, m')) :
    ∃ l, m'.calls = m.calls ++ l ∧ l.length ≤ 1 := by
  obtain ⟨-, -, r, -, ⟨-, -, rfl⟩ | ⟨name, -, -, rfl⟩⟩ := read_cases h
  · exact ⟨[], by simp, by simp⟩
  · exact ⟨[_], rfl, by simp⟩

/-- A write adds at most one device call. -/
theorem calls_write {addr size : Nat} {data : List Byte} (h : m.write addr size data = .ok m') :
    ∃ l, m'.calls = m.calls ++ l ∧ l.length ≤ 1 := by
  have hregion {m1 : Memory} {r : Region} (hw : m1.regionWrite r addr size data = .ok m') :
      ∃ l, m'.calls = m1.calls ++ l ∧ l.length ≤ 1 := by
    obtain ⟨name, -, rfl⟩ | ⟨-, rfl⟩ := regionWrite_cases hw
    · exact ⟨[_], rfl, by simp⟩
    · exact ⟨[], by simp, by simp⟩
  obtain ⟨-, -, -, ⟨r, -, hw⟩ | ⟨-, m1, r, hal, -, hw⟩⟩ := write_cases h
  · exact hregion hw
  · obtain ⟨⟨rs, rfl⟩, -⟩ := regionsChanged_allocate hal
    have hcalls := hregion hw
    exact hcalls

end Memory

/-- Settles O36: the fetch adds its read or nothing, and the instruction at most one call. -/
theorem stepMakesAtMostTwoDeviceCalls : Obligations.StepMakesAtMostTwoDeviceCalls := by
  unfold Obligations.StepMakesAtMostTwoDeviceCalls
  intro s t h
  obtain ⟨-, rfl⟩ | ⟨w, m, hw, hs⟩ := step_next_cases h
  · exact ⟨[], by simp, by simp, by simp⟩
  · have hexec : ∃ l, t.mem.calls = m.calls ++ l ∧ l.length ≤ 1 := by
      obtain ⟨d, -, rfl⟩ | ⟨i, -, hs⟩ := hs
      · exact ⟨[], by simp, by simp⟩
      · obtain hm | ⟨a, n, bs, hr⟩ | ⟨a, n, bs, hr⟩ := (hs ▸ exec_answer i (s.withMem m)).memory
        · exact ⟨[], by simp [hm], by simp⟩
        · exact Memory.calls_read hr
        · exact Memory.calls_write hr
    obtain ⟨l, hl, hlen⟩ := hexec
    obtain ⟨-, -, rfl | ⟨c, hc, hkind, haddr, hsize⟩⟩ := hw.leaves
    · exact ⟨l, hl, by omega, by omega⟩
    · refine ⟨c :: l, by rw [hl, hc]; simp, by simpa using hlen, fun h2 => ?_⟩
      obtain ⟨d, rfl⟩ := List.length_eq_one_iff.1 (by simpa using h2 : l.length = 1)
      exact ⟨c, d, rfl, hkind, haddr, hsize⟩

end Sys2Proof.Machine
end

section
/-! PROOFS. The invariant of a step (spec/20_memory.md R65, R87, spec/10_state.md R32, spec/43_control_transfer.md R269), and
what a step does not depend on (spec/40_core_step.md R193, spec/60_exceptions.md R382). -/

namespace Sys2Proof.Machine

/-! ### Even targets (R37, R260 to R269) -/

/-- Clearing bit 0 rounds down to an even value (R261). -/
theorem toNat_and_not_one (v : Word) : (v &&& ~~~1#32).toNat = v.toNat / 2 * 2 := by
  have hshift : v &&& ~~~1#32 = v >>> 1 <<< 1 := by
    apply BitVec.eq_of_getLsbD_eq
    intro i hi
    simp only [BitVec.getLsbD_and, BitVec.getLsbD_not, BitVec.getLsbD_one, BitVec.getLsbD_shiftLeft,
      BitVec.getLsbD_ushiftRight]
    cases i with
    | zero => simp
    | succ i => simp [hi, Nat.add_comm 1 i]
  have hlt := v.isLt
  rw [hshift, BitVec.toNat_shiftLeft, BitVec.toNat_ushiftRight, Nat.shiftLeft_eq, Nat.shiftRight_eq_div_pow]
  omega

theorem toNat_even_of_getLsbD {v : Word} (h : v.getLsbD 0 = false) : v.toNat % 2 = 0 := by
  simpa [BitVec.getLsbD, Nat.testBit_zero] using h

theorem toNat_add_even {a b : Word} (ha : a.toNat % 2 = 0) (hb : b.toNat % 2 = 0) : (a + b).toNat % 2 = 0 := by
  rw [BitVec.toNat_add]
  omega

theorem even_of_fitsImmB {imm : Word} (h : fitsImmB imm = true) : imm.toNat % 2 = 0 := by
  simp only [fitsImmB, Bool.and_eq_true, Bool.not_eq_true'] at h
  exact toNat_even_of_getLsbD h.2

theorem even_of_fitsImmJ {imm : Word} (h : fitsImmJ imm = true) : imm.toNat % 2 = 0 := by
  simp only [fitsImmJ, Bool.and_eq_true, Bool.not_eq_true'] at h
  exact toNat_even_of_getLsbD h.2

theorem nextPc_even {s : State} (h : s.pc.toNat % 2 = 0) : (nextPc s).toNat % 2 = 0 := toNat_add_even h (by decide)

/-- The PC after a load or a store: past it where it completed, at it where it was reported. -/
theorem load_pc {s t : State} {n : Nat} {signed : Bool} {rd rs1 : Reg} {imm : Word}
    (h : load s n signed rd rs1 imm = .next t) : t.pc = s.pc ∨ t.pc = nextPc s := by
  unfold load at h
  dsimp only at h
  split at h
  · cases h; exact .inl rfl
  · split at h
    · cases h
    · cases h; exact .inr (State.retire_pc _ _)

theorem store_pc {s t : State} {n : Nat} {rs2 rs1 : Reg} {imm : Word} (h : store s n rs2 rs1 imm = .next t) :
    t.pc = s.pc ∨ t.pc = nextPc s := by
  unfold store at h
  dsimp only at h
  split at h
  · cases h; exact .inl rfl
  · split at h
    · cases h
    · cases h; exact .inr (State.retire_pc _ _)

/-- Every value a well-formed instruction writes to an even PC is even (R269). -/
theorem exec_pc_even {i : Instr} (hi : i.wellFormed = true) {s t : State} (hp : s.pc.toNat % 2 = 0)
    (h : exec i s = .next t) : t.pc.toNat % 2 = 0 := by
  have hnext := nextPc_even hp
  cases i with
  | jal rd imm =>
    cases h
    simpa using toNat_add_even hp (even_of_fitsImmJ hi)
  | jalr rd rs1 imm =>
    cases h
    rw [State.retire_pc, jalrTarget, toNat_and_not_one]
    omega
  | beq | bne | blt | bge | bltu | bgeu =>
    cases h
    rw [State.retire_pc]
    split
    · exact toNat_add_even hp (even_of_fitsImmB hi)
    · exact hnext
  | lb | lh | lw | lbu | lhu | lwu => obtain hpc | hpc := load_pc h <;> rwa [hpc]
  | sb | sh | sw | sbF4 | shF5 | swF6 => obtain hpc | hpc := store_pc h <;> rwa [hpc]
  | ecall | ebreak => cases h; exact hp
  | _ => cases h; rwa [State.retire_pc]

/-! ### The invariant (R65, R87, R32, R269) -/

theorem Memory.granular_of_regions_eq {m m' : Memory} (hr : m'.regions = m.regions) (hc : SameConfig m m')
    (h : m.granular) : m'.granular := by
  unfold Memory.granular
  rwa [hr, hc.2.2]

/-- A read keeps the memory's part of the invariant. -/
theorem Memory.invariant_read {m m' : Memory} {a n : Nat} {bs : List Byte} (h : m.wf) (hg : m.granular)
    (hm : m.read a n = .ok (bs, m')) : m'.wf ∧ m'.granular := by
  obtain ⟨hwf, hc, hr⟩ := read_wf h hm
  exact ⟨hwf, granular_of_regions_eq hr hc hg⟩

theorem Answer.invariant_memory {s t : State} (ha : Answer s (.next t)) (h : s.mem.wf) (hg : s.mem.granular) :
    t.mem.wf ∧ t.mem.granular := by
  obtain hm | ⟨a, n, bs, hm⟩ | ⟨a, n, bs, hm⟩ := ha.memory
  · exact hm ▸ ⟨h, hg⟩
  · exact Memory.invariant_read h hg hm
  · exact ⟨(Memory.write_wf h hm).1, hg.write h hm⟩

/-- A well-formed instruction keeps the invariant. -/
theorem exec_keeps_inv {i : Instr} (hi : i.wellFormed = true) {s t : State} (h : s.Inv) (hs : exec i s = .next t) :
    t.Inv := by
  have ha : Answer s (.next t) := hs ▸ exec_answer i s
  obtain ⟨hwf, hgran⟩ := ha.invariant_memory h.memory h.granules
  exact ⟨hwf, hgran, ha.slot_zero.trans h.slotZero, exec_pc_even hi h.pcEven hs⟩

/-- Settles O42: the fetch keeps the invariant, and the instruction it decodes is well formed, so its target is even. -/
theorem stepKeepsTheInvariant : Obligations.StepKeepsTheInvariant := by
  unfold Obligations.StepKeepsTheInvariant
  intro s t h hs
  obtain ⟨-, rfl⟩ | ⟨w, m, hw, hs⟩ := step_next_cases hs
  · exact ⟨h.memory, h.granules, h.slotZero, h.pcEven⟩
  · obtain ⟨-, bs, hr, -⟩ := hw
    obtain ⟨hwf, hgran⟩ := Memory.invariant_read h.memory h.granules hr
    obtain ⟨d, -, rfl⟩ | ⟨i, hi, hs⟩ := hs
    · exact ⟨hwf, hgran, h.slotZero, h.pcEven⟩
    · have hfetched : (s.withMem m).Inv := ⟨hwf, hgran, h.slotZero, h.pcEven⟩
      exact exec_keeps_inv (encodeOfDecode w i hi).1 hfetched hs

/-- Settles O40: no region stands in the reset memory, and the PC is 0. -/
theorem resetMeetsTheInvariant : Obligations.ResetMeetsTheInvariant := by
  unfold Obligations.ResetMeetsTheInvariant
  exact ⟨Memory.reset_wf, fun _ hr => absurd hr List.not_mem_nil, by decide, by decide⟩

/-! ### What an instruction does not depend on (R193, R382) -/

/-- The state with its memory changed by `f` and another reported outcome. -/
def State.mapMem (s : State) (f : Memory → Memory) (o : Option StepOutcome) : State :=
  { s with mem := f s.mem, outcome := o }

/-- `f` changes nothing that an access to the memory `m` depends on. -/
structure AccessInvariant (f : Memory → Memory) (m : Memory) : Prop where
  read  : ∀ a n bs m', m.read a n = .ok (bs, m') → (f m).read a n = .ok (bs, f m')
  write : ∀ a n bs m', m.write a n bs = .ok m' → (f m).write a n bs = .ok (f m')

section
variable {f : Memory → Memory} {s t : State} {o : Option StepOutcome}

theorem mapMem_setX_retire (s : State) (f : Memory → Memory) (o : Option StepOutcome) (rd : Reg) (v npc : Word) :
    ((s.mapMem f o).setX rd v).retire npc =
      ((s.setX rd v).retire npc).mapMem f ((s.setX rd v).retire npc).outcome := by
  unfold State.setX
  split <;> rfl

theorem load_mapMem (hf : AccessInvariant f s.mem) {n : Nat} {signed : Bool} {rd rs1 : Reg} {imm : Word}
    (h : load s n signed rd rs1 imm = .next t) :
    load (s.mapMem f o) n signed rd rs1 imm = .next (t.mapMem f t.outcome) := by
  have hea : effectiveAddr (s.mapMem f o) rs1 imm = effectiveAddr s rs1 imm := rfl
  unfold load at h ⊢
  simp only [hea] at h ⊢
  split at h
  · cases h
    rw [if_pos ‹_›]
    rfl
  · rw [if_neg ‹_›]
    split at h
    · cases h
    · rename_i bs u hr
      obtain ⟨m, hm, rfl⟩ := memRead_ok hr
      have hread := memRead_of_read_ok (s := s.mapMem f o) (hf.read _ _ _ _ hm)
      cases h
      rw [hread]
      exact congrArg Host.Outcome.next (mapMem_setX_retire (s.withMem m) f o rd _ _)

theorem store_mapMem (hf : AccessInvariant f s.mem) {n : Nat} {rs2 rs1 : Reg} {imm : Word}
    (h : store s n rs2 rs1 imm = .next t) :
    store (s.mapMem f o) n rs2 rs1 imm = .next (t.mapMem f t.outcome) := by
  have hea : effectiveAddr (s.mapMem f o) rs1 imm = effectiveAddr s rs1 imm := rfl
  unfold store at h ⊢
  simp only [hea] at h ⊢
  split at h
  · cases h
    rw [if_pos ‹_›]
    rfl
  · rw [if_neg ‹_›]
    split at h
    · cases h
    · rename_i u hw
      obtain ⟨m, hm, rfl⟩ := memWrite_ok hw
      have hwrite := memWrite_of_write_ok (s := s.mapMem f o) (hf.write _ _ _ _ hm)
      cases h
      rw [show storeBytes (s.mapMem f o) rs2 n = storeBytes s rs2 n from rfl, hwrite]
      rfl

/-- An instruction that goes on depends on no earlier outcome, and on the memory through its accesses alone. -/
theorem exec_mapMem (hf : AccessInvariant f s.mem) {i : Instr} (h : exec i s = .next t) :
    exec i (s.mapMem f o) = .next (t.mapMem f t.outcome) := by
  cases i with
  | lb | lh | lw | lbu | lhu | lwu => exact load_mapMem hf h
  | sb | sh | sw | sbF4 | shF5 | swF6 => exact store_mapMem hf h
  | ecall | ebreak | fence | beq | bne | blt | bge | bltu | bgeu => cases h; rfl
  | _ => cases h; exact congrArg Host.Outcome.next (mapMem_setX_retire s f o _ _ _)

end

/-- Settles O34: an event leaves all the step depends on, since no step depends on the outcome reported before. -/
theorem unchangedStateRepeatsTheEvent : Obligations.UnchangedStateRepeatsTheEvent := by
  unfold Obligations.UnchangedStateRepeatsTheEvent
  intro s t h ho hmem
  obtain ⟨hp, rfl⟩ | ⟨w, m, hw, ⟨d, hd, rfl⟩ | ⟨i, hi, hs⟩⟩ := step_next_cases h
  · exact step_of_pc_misaligned hp
  · obtain rfl : m = s.mem := hmem
    exact step_of_fetches_illegal (s := s.report _) hw hd
  · obtain ⟨o, -, rfl⟩ := (hs ▸ exec_answer i (s.withMem m)).event_of_ne_retired ho
    obtain rfl : m = s.mem := hmem
    rw [step_of_fetches (s := (s.withMem s.mem).report o) hw hi]
    exact exec_mapMem (f := id) ⟨fun _ _ _ _ => id, fun _ _ _ _ => id⟩ hs

/-! ### Another device log (R193, log entry 9) -/

/-- The memory with another record of device calls and another draw counter. -/
def Memory.relog (calls : List DeviceCall) (draws : Nat) (m : Memory) : Memory :=
  { m with calls := calls, draws := draws }

namespace Memory

variable {m m' : Memory} {calls : List DeviceCall} {draws : Nat}

theorem addRegion_relog (m : Memory) (r : Region) :
    (m.relog calls draws).addRegion r = (m.addRegion r).map (relog calls draws) := by
  unfold addRegion
  simp only [apply_ite (Except.map (relog calls draws))]
  rfl

theorem addOrBlock_relog (m : Memory) (r : Region) :
    (m.relog calls draws).addOrBlock r = (m.addOrBlock r).map (relog calls draws) := by
  unfold addOrBlock
  rw [addRegion_relog]
  cases m.addRegion r <;> rfl

theorem createGranule_relog (m : Memory) (a : Nat) :
    (m.relog calls draws).createGranule a = (m.createGranule a).map (relog calls draws) := by
  have hfar : (m.relog calls draws).farEndRegion a = m.farEndRegion a := rfl
  unfold createGranule
  rw [hfar]
  split
  · exact addOrBlock_relog m _
  · dsimp only
    split
    · exact addOrBlock_relog { m with regions := _ } _
    · exact addOrBlock_relog m _

theorem allocate_relog (m : Memory) (addr : Nat) :
    (m.relog calls draws).allocate addr = (m.allocate addr).map (relog calls draws) := by
  have hstart : (m.relog calls draws).granuleStart addr = m.granuleStart addr := rfl
  have hend : (m.relog calls draws).memoryEnd = m.memoryEnd := rfl
  have hover (lo hi : Nat) : (m.relog calls draws).overlapsAny lo hi = m.overlapsAny lo hi := rfl
  have hregions : (m.relog calls draws).regions = m.regions := rfl
  unfold allocate
  simp only [hstart, hend, hover, hregions, createGranule_relog, addOrBlock_relog]
  cases closestBelow addr m.regions <;> simp only [apply_ite (Except.map (relog calls draws))] <;> rfl

/-- The memory has no MMIO region. -/
def NoDevices (m : Memory) : Prop := ∀ r ∈ m.regions, r.isNormal = true

theorem regionWrite_relog {r : Region} (hn : r.isNormal = true) (addr size : Nat) (data : List Byte) :
    (m.relog calls draws).regionWrite r addr size data = (m.regionWrite r addr size data).map (relog calls draws) := by
  obtain ⟨start, len, cs | name⟩ := r
  · unfold regionWrite
    dsimp only
    split <;> rfl
  · cases hn

theorem NoDevices.allocateAndWrite_relog (h : m.NoDevices) (addr size : Nat) (data : List Byte) :
    (m.relog calls draws).allocateAndWrite addr size data =
      (m.allocateAndWrite addr size data).map (relog calls draws) := by
  unfold Memory.allocateAndWrite
  rw [allocate_relog]
  cases hal : m.allocate addr with
  | error e => rfl
  | ok m1 =>
    have hfind : (m1.relog calls draws).findRegion addr size = m1.findRegion addr size := rfl
    have hall := (regionsChanged_allocate hal).2 h
    simp only [Except.map, hfind]
    split
    · rename_i r hr
      exact regionWrite_relog (hall r (find_region_spec hr).1) addr size data
    · rfl

/-- Without devices a write does not depend on the device log. -/
theorem NoDevices.write_relog (h : m.NoDevices) (addr size : Nat) (data : List Byte) :
    (m.relog calls draws).write addr size data = (m.write addr size data).map (relog calls draws) := by
  have hfind : (m.relog calls draws).findRegion addr size = m.findRegion addr size := rfl
  unfold Memory.write
  rw [hfind, h.allocateAndWrite_relog]
  split
  · rfl
  · split
    · rfl
    · split
      · rfl
      · split
        · rename_i r hr
          exact regionWrite_relog (h r (find_region_spec hr).1) addr size data
        · rfl

/-- Without devices a read leaves the memory, and does not depend on the device log. -/
theorem NoDevices.read (h : m.NoDevices) {addr size : Nat} {bs : List Byte} (hm : m.read addr size = .ok (bs, m')) :
    m' = m ∧ (m.relog calls draws).read addr size = .ok (bs, m'.relog calls draws) := by
  obtain ⟨hv, ha, r, hf, ⟨hn, rfl, rfl⟩ | ⟨name, hb, -⟩⟩ := read_cases hm
  · exact ⟨rfl, read_of_findRegion_normal (m := m'.relog calls draws) (validSize_iff.1 hv) ha hf hn⟩
  · have hn := h r (find_region_spec hf).1
    rw [isNormal_of_backing_mmio hb] at hn
    cases hn

theorem NoDevices.accessInvariant (h : m.NoDevices) (calls : List DeviceCall) (draws : Nat) :
    AccessInvariant (relog calls draws) m where
  read a n bs m' hm := (h.read hm).2
  write a n bs m' hm := by rw [h.write_relog, hm]; rfl

/-- Without devices a write calls none and adds none. -/
theorem NoDevices.write (h : m.NoDevices) {addr size : Nat} {data : List Byte}
    (hm : m.write addr size data = .ok m') : m'.calls = m.calls ∧ m'.draws = m.draws ∧ m'.NoDevices := by
  have hregion {m1 : Memory} {r : Region} (h1 : m1.NoDevices) (hf : m1.findRegion addr size = some r)
      (hw : m1.regionWrite r addr size data = .ok m') :
      m'.calls = m1.calls ∧ m'.draws = m1.draws ∧ m'.NoDevices := by
    obtain ⟨name, hb, -⟩ | ⟨-, rfl⟩ := regionWrite_cases hw
    · have hn := h1 r (find_region_spec hf).1
      rw [isNormal_of_backing_mmio hb] at hn
      cases hn
    · refine ⟨rfl, rfl, fun q hq => ?_⟩
      obtain hq | ⟨p, hp, -, rfl⟩ := mem_updateFirst hq
      · exact h1 q hq
      · rw [putBytes_isNormal, h1 p hp]
  obtain ⟨-, -, -, ⟨r, hf, hw⟩ | ⟨-, m1, r, hal, hf, hw⟩⟩ := write_cases hm
  · exact hregion h hf hw
  · obtain ⟨⟨rs, rfl⟩, hnormal⟩ := regionsChanged_allocate hal
    have heffect := hregion (hnormal h) hf hw
    exact heffect

end Memory

theorem Answer.noDevices {s t : State} (ha : Answer s (.next t)) (h : s.mem.NoDevices) :
    t.mem.calls = s.mem.calls ∧ t.mem.draws = s.mem.draws ∧ t.mem.NoDevices := by
  obtain hm | ⟨a, n, bs, hm⟩ | ⟨a, n, bs, hm⟩ := ha.memory
  · rw [hm]; exact ⟨rfl, rfl, h⟩
  · obtain ⟨hmem, -⟩ := h.read hm (calls := []) (draws := 0)
    rw [hmem]; exact ⟨rfl, rfl, h⟩
  · exact h.write hm

theorem Fetches.relog {s : State} {w : Word} {m : Memory} (hw : Fetches s w m) (h : s.mem.NoDevices)
    (calls : List DeviceCall) (draws : Nat) :
    m = s.mem ∧ Fetches (s.withMem (s.mem.relog calls draws)) w (s.mem.relog calls draws) := by
  obtain ⟨hp, bs, hr, hword⟩ := hw
  obtain ⟨rfl, hread⟩ := h.read hr (calls := calls) (draws := draws)
  exact ⟨rfl, hp, bs, hread, hword⟩

/-- Settles O37: without devices a fetch leaves the memory and an instruction calls none, and neither depends on the log. -/
theorem stepWithoutDevicesIgnoresThem : Obligations.StepWithoutDevicesIgnoresThem := by
  unfold Obligations.StepWithoutDevicesIgnoresThem
  intro s t calls draws (h : s.mem.NoDevices) hs
  obtain ⟨hp, rfl⟩ | ⟨w, m, hw, hs⟩ := step_next_cases hs
  · exact ⟨rfl, rfl, h, step_of_pc_misaligned (s := s.withMem (s.mem.relog calls draws)) hp⟩
  · obtain ⟨rfl, hw'⟩ := hw.relog h calls draws
    obtain ⟨d, hd, rfl⟩ | ⟨i, hi, hs⟩ := hs
    · exact ⟨rfl, rfl, h, step_of_fetches_illegal hw' hd⟩
    · obtain ⟨hcalls, hdraws, hnone⟩ := (hs ▸ exec_answer i s : Answer s (.next t)).noDevices h
      exact ⟨hcalls, hdraws, hnone, (step_of_fetches hw' hi).trans
        (exec_mapMem (o := s.outcome) (h.accessInvariant calls draws) hs)⟩

/-! ### Stored and encoded words are fetched (R114, R397) -/

/-- The step at an address whose four bytes are a word's fetches that word and leaves the memory. -/
theorem fetches_of_bytes {s : State} {w : Word} (hp : s.pc.toNat % 4 = 0)
    (hr : s.mem.read s.pc.toNat 4 = .ok (bytesOf s.endian w.toNat 4, s.mem)) : Fetches s w s.mem :=
  ⟨hp, _, hr, wordOf_bytesOf s.endian w⟩

/-- Settles O30: the read of the fetch gives the bytes of the region, which are those of the word, which decodes back. -/
theorem stepRunsTheEncodedInstruction : Obligations.StepRunsTheEncodedInstruction := by
  unfold Obligations.StepRunsTheEncodedInstruction
  intro s i r h hi hp hf hn hb
  have hlen := bytesOf_length s.endian (encode i).toNat 4
  have hread := h.read_eq (data := bytesOf s.endian (encode i).toNat 4) (by simp) (by rwa [hlen]) (by rwa [hlen]) hn
    (by rwa [hlen])
  rw [hlen] at hread
  exact step_of_fetches (fetches_of_bytes hp hread) (decodeOfEncode i hi)

/-- A completed store leaves the memory of its write. -/
theorem store_retired {s t : State} {n : Nat} {rs2 rs1 : Reg} {imm : Word} (h : store s n rs2 rs1 imm = .next t)
    (ho : t.outcome = some .retired) : (effectiveAddr s rs1 imm).toNat % n = 0 ∧ t.endian = s.endian ∧
      s.mem.write (effectiveAddr s rs1 imm).toNat n (bytesOf s.endian (s.x rs2).toNat n) = .ok t.mem := by
  unfold store at h
  dsimp only at h
  split at h
  · cases h; cases ho
  · rename_i ha
    split at h
    · cases h
    · rename_i u hw
      obtain ⟨m, hm, rfl⟩ := memWrite_ok hw
      cases h
      rw [addrOf_eq] at hm
      exact ⟨aligned_eq_true_iff.1 (by simpa using ha), rfl, hm⟩

/-- Settles O38: the store's bytes are read back by the fetch, as the word they were. -/
theorem storedWordIsFetchedAtOnce : Obligations.StoredWordIsFetchedAtOnce := by
  unfold Obligations.StoredWordIsFetchedAtOnce
  intro s t rs2 rs1 imm i h hs ho hc hd
  obtain ⟨ha, he, hw⟩ := store_retired hs ho
  obtain ⟨-, -, hread⟩ := h.read_after_write hw hc
  have hpc : (t.setPc (effectiveAddr s rs1 imm)).pc = effectiveAddr s rs1 imm := State.setPc_pc _ _
  have hfetch : Fetches (t.setPc (effectiveAddr s rs1 imm)) (s.x rs2) t.mem :=
    fetches_of_bytes (by rwa [hpc]) (by rwa [hpc, State.setPc_endian, he, State.setPc_mem])
  exact step_of_fetches hfetch hd

end Sys2Proof.Machine
end

section
/-! PROOFS. The results of the register, upper-immediate, jump, branch, fence and trap instructions (spec/41_op_imm_upper.md,
spec/42_op_reg.md, spec/43_control_transfer.md, spec/45_misc_mem_system.md), as integers of the old values. -/

namespace Sys2Proof.Machine

/-! ### The instructions' common completion (R187, R188) -/

/-- An instruction that writes one register and the PC completes. -/
theorem completes_of_exec {i : Instr} {s : State} {rd : Reg} {v v' npc npc' : Word}
    (h : exec i s = .next ((s.setX rd v).retire npc)) (hv : v = v') (hpc : npc = npc') : Completes i s rd v' npc' := by
  subst hv hpc
  exact ⟨_, h, registerWritten_retire s rd v npc, by simp, rfl⟩

/-! ### The operators as integer arithmetic (R10, R201 to R209, R231 to R240) -/

theorem add_eq_ofNat (a b : Word) : a + b = BitVec.ofNat 32 (a.toNat + b.toNat) :=
  BitVec.eq_of_toNat_eq (by simp)

theorem sub_eq_ofInt (a b : Word) : a - b = BitVec.ofInt 32 ((a.toNat : Int) - b.toNat) := by
  apply BitVec.eq_of_toInt_eq
  rw [BitVec.toInt_sub, BitVec.toInt_ofInt]
  simp [BitVec.toInt_eq_toNat_bmod]

theorem xor_eq_ofNat (a b : Word) : a ^^^ b = BitVec.ofNat 32 (a.toNat ^^^ b.toNat) := by
  rw [← BitVec.toNat_xor, BitVec.ofNat_toNat, BitVec.setWidth_eq]

theorem or_eq_ofNat (a b : Word) : a ||| b = BitVec.ofNat 32 (a.toNat ||| b.toNat) := by
  rw [← BitVec.toNat_or, BitVec.ofNat_toNat, BitVec.setWidth_eq]

theorem and_eq_ofNat (a b : Word) : a &&& b = BitVec.ofNat 32 (a.toNat &&& b.toNat) := by
  rw [← BitVec.toNat_and, BitVec.ofNat_toNat, BitVec.setWidth_eq]

theorem shiftLeft_eq_ofNat (a : Word) (n : Nat) : a <<< n = BitVec.ofNat 32 (a.toNat * 2 ^ n) :=
  BitVec.eq_of_toNat_eq (by simp [Nat.shiftLeft_eq])

theorem ushiftRight_eq_ofNat (a : Word) (n : Nat) : a >>> n = BitVec.ofNat 32 (a.toNat / 2 ^ n) := by
  rw [← Nat.shiftRight_eq_div_pow, ← BitVec.toNat_ushiftRight, BitVec.ofNat_toNat, BitVec.setWidth_eq]

theorem sshiftRight_eq_ofInt (a : Word) (n : Nat) : a.sshiftRight n = BitVec.ofInt 32 (a.toInt.fdiv (2 ^ n)) := by
  rw [BitVec.sshiftRight, Int.shiftRight_eq_div_pow, Int.fdiv_eq_ediv_of_nonneg _ (by positivity)]
  norm_cast

theorem boolWord_ltSigned (a b : Word) : boolWord (ltSigned a b) = if a.toInt < b.toInt then 1#32 else 0#32 := by
  simp [boolWord, ltSigned, BitVec.slt]

theorem boolWord_ltUnsigned (a b : Word) : boolWord (ltUnsigned a b) = if a.toNat < b.toNat then 1#32 else 0#32 := by
  simp [boolWord, ltUnsigned, BitVec.ult]

theorem shiftAmount_eq (v : Word) : shiftAmount v = v.toNat % 32 := by
  simp [shiftAmount, BitVec.extractLsb'_toNat]

/-- Settles O43. -/
theorem immediateAluResults : Obligations.ImmediateAluResults := by
  unfold Obligations.ImmediateAluResults
  intro s rd rs1 imm
  exact ⟨completes_of_exec rfl (add_eq_ofNat _ _) rfl, completes_of_exec rfl (boolWord_ltSigned _ _) rfl,
    completes_of_exec rfl (boolWord_ltUnsigned _ _) rfl, completes_of_exec rfl (xor_eq_ofNat _ _) rfl,
    completes_of_exec rfl (or_eq_ofNat _ _) rfl, completes_of_exec rfl (and_eq_ofNat _ _) rfl⟩

/-- Settles O44. -/
theorem immediateShiftResults : Obligations.ImmediateShiftResults := by
  unfold Obligations.ImmediateShiftResults
  intro s rd rs1 shamt
  exact ⟨completes_of_exec rfl (shiftLeft_eq_ofNat _ _) rfl, completes_of_exec rfl (ushiftRight_eq_ofNat _ _) rfl,
    completes_of_exec rfl (sshiftRight_eq_ofInt _ _) rfl⟩

/-- Settles O45. -/
theorem upperImmediateResults : Obligations.UpperImmediateResults := by
  unfold Obligations.UpperImmediateResults
  intro s rd imm
  exact ⟨completes_of_exec rfl rfl rfl, completes_of_exec rfl (add_eq_ofNat _ _) rfl⟩

/-- Settles O46. -/
theorem registerAluResults : Obligations.RegisterAluResults := by
  unfold Obligations.RegisterAluResults
  intro s rd rs1 rs2
  exact ⟨completes_of_exec rfl (add_eq_ofNat _ _) rfl, completes_of_exec rfl (sub_eq_ofInt _ _) rfl,
    completes_of_exec rfl (boolWord_ltSigned _ _) rfl, completes_of_exec rfl (boolWord_ltUnsigned _ _) rfl,
    completes_of_exec rfl (xor_eq_ofNat _ _) rfl, completes_of_exec rfl (or_eq_ofNat _ _) rfl,
    completes_of_exec rfl (and_eq_ofNat _ _) rfl⟩

/-- Settles O47: the shift amount is the value's low 5 bits. -/
theorem registerShiftResults : Obligations.RegisterShiftResults := by
  unfold Obligations.RegisterShiftResults
  intro s rd rs1 rs2 amount
  have hamount : shiftAmount (s.x rs2) = amount := shiftAmount_eq (s.x rs2)
  exact ⟨completes_of_exec rfl (hamount ▸ shiftLeft_eq_ofNat _ _) rfl,
    completes_of_exec rfl (hamount ▸ ushiftRight_eq_ofNat _ _) rfl,
    completes_of_exec rfl (hamount ▸ sshiftRight_eq_ofInt _ _) rfl⟩

/-! ### Jumps, branches and FENCE (R260 to R268, R330) -/

theorem jalrTarget_eq (s : State) (rs1 : Reg) (imm : Word) :
    jalrTarget s rs1 imm = BitVec.ofNat 32 (((s.x rs1).toNat + imm.toNat) % 2 ^ 32 / 2 * 2) := by
  rw [← BitVec.toNat_add, ← toNat_and_not_one, BitVec.ofNat_toNat, BitVec.setWidth_eq, jalrTarget]

/-- Settles O48. -/
theorem jumpResults : Obligations.JumpResults := by
  unfold Obligations.JumpResults
  intro s rd rs1 imm
  exact ⟨completes_of_exec rfl rfl (add_eq_ofNat _ _), completes_of_exec rfl rfl (jalrTarget_eq s rs1 imm)⟩

/-- A branch completes with the PC its condition says. -/
theorem completes_branchIf {i : Instr} {s : State} {taken : Bool} {imm : Word} {c : Prop} [Decidable c]
    (h : exec i s = branchIf s taken imm) (hc : taken = true ↔ c) :
    Completes i s 0 0#32 (if c then BitVec.ofNat 32 (s.pc.toNat + imm.toNat) else s.pc + 4#32) := by
  refine completes_of_exec (v := 0#32) h rfl ?_
  simp only [hc, ← add_eq_ofNat, nextPc]

/-- Settles O49: each condition is the comparison's truth. -/
theorem branchResults : Obligations.BranchResults := by
  unfold Obligations.BranchResults
  intro s rs1 rs2 imm go
  refine ⟨completes_branchIf rfl beq_iff_eq, completes_branchIf rfl bne_iff_ne, completes_branchIf rfl ?blt,
    completes_branchIf rfl ?bge, completes_branchIf rfl ?bltu, completes_branchIf rfl ?bgeu⟩
  case blt => simp [ltSigned, BitVec.slt]
  case bge => simp [ltSigned, BitVec.slt]
  case bltu => simp [ltUnsigned, BitVec.ult]
  case bgeu => simp [ltUnsigned, BitVec.ult]

/-- Settles O58. -/
theorem fenceOnlyAdvancesThePc : Obligations.FenceOnlyAdvancesThePc := by
  unfold Obligations.FenceOnlyAdvancesThePc
  exact fun s fm pred succ rs1 rd => completes_of_exec (v := 0#32) rfl rfl rfl

/-- Settles O59. -/
theorem trapsLeaveTheStateToTheHost : Obligations.TrapsLeaveTheStateToTheHost := by
  unfold Obligations.TrapsLeaveTheStateToTheHost
  intro s
  have hecall : immI ecallWord = 0#32 := by decide
  have hebreak : immI ebreakWord = 1#32 := by decide
  exact ⟨⟨_, _, rfl, rfl, rfl, rfl, rfl, rfl, rfl, hecall⟩, ⟨_, _, rfl, rfl, rfl, rfl, rfl, rfl, rfl, hebreak⟩⟩

/-- Settles O50: a jump retires with its link written whatever its target is, and the next step's fetch checks the PC. -/
theorem misalignedTargetIsReportedByTheNextFetch : Obligations.MisalignedTargetIsReportedByTheNextFetch := by
  unfold Obligations.MisalignedTargetIsReportedByTheNextFetch
  intro s rd rs1 imm i hi t ht hpc
  have hlink : ∃ npc, Completes i s rd (s.pc + 4#32) npc := by
    obtain ⟨hjal, hjalr⟩ := jumpResults s rd rs1 imm
    simp only [List.mem_cons, List.not_mem_nil, or_false] at hi
    obtain rfl | rfl := hi
    · exact ⟨_, hjal⟩
    · exact ⟨_, hjalr⟩
  obtain ⟨npc, t', hs, hreg, -, ho⟩ := hlink
  cases ht.symm.trans hs
  exact ⟨ho, hreg.value, step_of_pc_misaligned hpc⟩

end Sys2Proof.Machine
end

section
/-! PROOFS. Loads and stores (spec/44_load_store.md rules R290 to R308): each runs the memory's read or write at its effective
address and hands on what that gives. -/

namespace Sys2Proof.Machine

/-! ### The shared load and store by the memory's answer -/

theorem validSize_of_mem_storeForms : ∀ f ∈ storeForms, f.1 ∈ [1, 2, 4, 8] := by simp [storeForms]

theorem size_of_mem_loadForms : ∀ f ∈ loadForms, 0 < f.1 ∧ f.1 ≤ 4 := by simp [loadForms]

/-- A store runs the shared store operation with its form's width (R292). -/
theorem exec_storeForm {f : Nat × (Reg → Reg → Word → Instr)} (hf : f ∈ storeForms) (s : State) (rs2 rs1 : Reg)
    (imm : Word) : exec (f.2 rs2 rs1 imm) s = store s f.1 rs2 rs1 imm := by
  simp only [storeForms, List.mem_cons, List.not_mem_nil, or_false] at hf
  rcases hf with rfl | rfl | rfl | rfl | rfl | rfl <;> rfl

section
variable {s : State} {n : Nat} {rd rs1 rs2 : Reg} {imm : Word} {signed : Bool} {bs : List Byte} {m : Memory}

theorem load_of_read_ok (h0 : 0 < n) (h4 : n ≤ 4) (ha : (effectiveAddr s rs1 imm).toNat % n = 0)
    (hr : s.mem.read (effectiveAddr s rs1 imm).toNat n = .ok (bs, m)) :
    load s n signed rd rs1 imm =
      .next (((s.withMem m).setX rd (loadedWord s.endian n signed bs)).retire (s.pc + 4#32)) := by
  have hlen := Memory.read_length hr
  have hword := RegFile.extendValue_eq_loadedWord s.endian signed (hlen.symm ▸ h0) (hlen.symm ▸ h4)
  rw [hlen] at hword
  simp [load, aligned, ha, memRead_of_read_ok hr, hword, nextPc]

theorem store_of_write_ok (ha : (effectiveAddr s rs1 imm).toNat % n = 0)
    (hw : s.mem.write (effectiveAddr s rs1 imm).toNat n (bytesOf s.endian (s.x rs2).toNat n) = .ok m) :
    store s n rs2 rs1 imm = .next ((s.withMem m).retire (s.pc + 4#32)) := by
  simp [store, storeBytes, aligned, ha, memWrite_of_write_ok hw, nextPc]

theorem store_of_write_error {e : MemError} (ha : (effectiveAddr s rs1 imm).toNat % n = 0)
    (hw : s.mem.write (effectiveAddr s rs1 imm).toNat n (bytesOf s.endian (s.x rs2).toNat n) = .error e) :
    store s n rs2 rs1 imm = .fault (faultOf e (effectiveAddr s rs1 imm).toNat n s) := by
  simp [store, storeBytes, aligned, ha, memWrite_of_write_error hw]

theorem load_of_misaligned (ha : (effectiveAddr s rs1 imm).toNat % n ≠ 0) :
    load s n signed rd rs1 imm = .next (s.report (.memMisaligned .load s.pc (effectiveAddr s rs1 imm).toNat n)) := by
  simp [load, aligned, ha, raiseMisaligned, raise]

theorem store_of_misaligned (ha : (effectiveAddr s rs1 imm).toNat % n ≠ 0) :
    store s n rs2 rs1 imm = .next (s.report (.memMisaligned .store s.pc (effectiveAddr s rs1 imm).toNat n)) := by
  simp [store, aligned, ha, raiseMisaligned, raise]

/-- What is written beside the memory is written on the state before. -/
theorem RegisterWritten.of_withMem {t : State} {v npc : Word} (h : RegisterWritten (s.withMem m) t rd v npc) :
    RegisterWritten s t rd v npc :=
  ⟨h.value, h.zero, h.others, h.pc, h.endian, h.slotZero⟩

theorem registerWritten_load (s : State) (m : Memory) (rd : Reg) (v npc : Word) :
    RegisterWritten s (((s.withMem m).setX rd v).retire npc) rd v npc :=
  (registerWritten_retire (s.withMem m) rd v npc).of_withMem

theorem registerWritten_store (s : State) (m : Memory) (npc : Word) :
    RegisterWritten s ((s.withMem m).retire npc) 0 0#32 npc :=
  (registerWritten_retire (s.withMem m) 0 0#32 npc).of_withMem

end

/-- Settles O51. -/
theorem loadsFromNormalRegions : Obligations.LoadsFromNormalRegions := by
  unfold Obligations.LoadsFromNormalRegions
  intro f hf s rd rs1 imm r ea ha hr hn
  obtain ⟨h0, h4⟩ := size_of_mem_loadForms f hf
  have hread := Memory.read_of_findRegion_normal (validSize_of_mem_loadForms f hf) ha hr hn
  exact ⟨_, (exec_loadForm hf s rd rs1 imm).trans (load_of_read_ok h0 h4 ha hread), registerWritten_load s _ rd _ _,
    by simp, rfl⟩

/-- Settles O52: the read is one call of the device, made before `rd` is looked at. -/
theorem loadsFromDevices : Obligations.LoadsFromDevices := by
  unfold Obligations.LoadsFromDevices
  intro f hf s rd rs1 imm r name ea ha hr hb
  obtain ⟨h0, h4⟩ := size_of_mem_loadForms f hf
  have hread := Memory.read_of_findRegion_device (validSize_of_mem_loadForms f hf) ha hr hb
  refine ⟨_, _, (exec_loadForm hf s rd rs1 imm).trans (load_of_read_ok h0 h4 ha hread), Memory.read_length hread,
    registerWritten_load s _ rd _ _, rfl, ?_⟩
  rw [State.retire_mem, State.setX_mem]
  exact ⟨rfl, ⟨rfl, rfl, rfl⟩, rfl⟩

/-- Settles O53: the write puts the bytes in the region found. -/
theorem storesToNormalRegions : Obligations.StoresToNormalRegions := by
  unfold Obligations.StoresToNormalRegions
  intro f hf s rs2 rs1 imm r ea h ha hr hn
  have hlen := bytesOf_length s.endian (s.x rs2).toNat f.1
  obtain ⟨m, hw, hp⟩ := h.puts_write (data := bytesOf s.endian (s.x rs2).toNat f.1)
    (hlen.symm ▸ validSize_of_mem_storeForms f hf) (hlen.symm ▸ ha) (hlen.symm ▸ hr) hn
  have hin := hp.inside
  have hout := hp.outside
  rw [hlen] at hw hin hout
  exact ⟨_, (exec_storeForm hf s rs2 rs1 imm).trans (store_of_write_ok ha hw), registerWritten_store s m _, rfl, hin,
    hout, hp.shape, hp.config, hp.calls, hp.draws⟩

/-- Settles O54: the write allocates the granule (O15). -/
theorem storesAllocateAGranule : Obligations.StoresAllocateAGranule := by
  unfold Obligations.StoresAllocateAGranule
  intro f hf s rs2 rs1 imm ea g a h hg ha hr hlo hhi hno
  obtain ⟨-, -, hbacked⟩ := writeAllocationOnGranules s.mem ea.toNat f.1 (bytesOf s.endian (s.x rs2).toNat f.1) h hg
    (validSize_of_mem_storeForms f hf) ha (bytesOf_length _ _ _) hr
  obtain ⟨m, hw, -, -, hin, hgranule, hout, hcalls, hdraws, -⟩ := hbacked hlo hhi hno
  exact ⟨_, (exec_storeForm hf s rs2 rs1 imm).trans (store_of_write_ok ha hw), registerWritten_store s m _, rfl, hin,
    hgranule, hout, (Memory.write_wf h hw).2, hcalls, hdraws⟩

/-- Settles O55. -/
theorem storesToDevices : Obligations.StoresToDevices := by
  unfold Obligations.StoresToDevices
  intro f hf s rs2 rs1 imm r name ea ha hr hb
  have hlen := bytesOf_length s.endian (s.x rs2).toNat f.1
  have hw := Memory.write_of_findRegion_device (data := bytesOf s.endian (s.x rs2).toNat f.1)
    (hlen.symm ▸ validSize_of_mem_storeForms f hf) (hlen.symm ▸ ha) (hlen.symm ▸ hr) hb
  rw [hlen] at hw
  exact ⟨_, (exec_storeForm hf s rs2 rs1 imm).trans (store_of_write_ok ha hw), registerWritten_store s _ _, rfl, rfl,
    ⟨rfl, rfl, rfl⟩, rfl, _, rfl, rfl, rfl, rfl, rfl, rfl⟩

/-- Settles O56. -/
theorem misalignedAccessesAreReported : Obligations.MisalignedAccessesAreReported := by
  unfold Obligations.MisalignedAccessesAreReported
  exact ⟨fun f hf s rd rs1 imm ha => (exec_loadForm hf s rd rs1 imm).trans (load_of_misaligned ha),
    fun f hf s rs2 rs1 imm ha => (exec_storeForm hf s rs2 rs1 imm).trans (store_of_misaligned ha)⟩

/-- Settles O57: the store hands on the failure of its write's allocation. -/
theorem storesThatCannotAllocateFail : Obligations.StoresThatCannotAllocateFail := by
  unfold Obligations.StoresThatCannotAllocateFail
  intro f hf s rs2 rs1 imm ea g a ha hr
  have hlen := bytesOf_length s.endian (s.x rs2).toNat f.1
  have hv := validSize_of_mem_storeForms f hf
  rw [exec_storeForm hf]
  refine ⟨fun hout => store_of_write_error (e := .regionError) ha ?bounds,
    fun h hg hlo hhi hov => store_of_write_error (e := .memoryError) ha ?overlap⟩
  case bounds =>
    have halloc := Memory.allocate_out_of_bounds (m := s.mem) (addr := ea.toNat)
      (by rwa [Memory.granuleStart_eq])
    have hw := Memory.write_of_allocate_error (data := bytesOf s.endian (s.x rs2).toNat f.1) (hlen.symm ▸ hv)
      (hlen.symm ▸ ha) (hlen.symm ▸ hr) halloc
    rwa [hlen] at hw
  case overlap =>
    obtain ⟨-, hblocked, -⟩ := writeAllocationOnGranules s.mem ea.toNat f.1 _ h hg hv ha hlen hr
    exact hblocked hlo hhi hov

end Sys2Proof.Machine
end

section
/-! PROOFS. The host's calls of the register file (spec/10_state.md rules R20 to R27), of the memory (spec/20_memory.md rules
R70, R76) and of regions (R69, R74, R75), and the state after reset. -/

namespace Sys2Proof.Machine

/-! ### Register-file calls (R21 to R27) -/

namespace RegFile

variable {w n : Nat} (f : RegFile w n) {i : Nat}

theorem write_out_of_range (h : n ≤ i) (bs : List Byte) (signed : Bool) :
    f.write i bs signed = .error .registerFileError := dif_neg (Nat.not_lt.2 h)

theorem writeValue_out_of_range (h : n ≤ i) (v : Int) (signed : Bool) :
    f.writeValue i v signed = .error .registerFileError := dif_neg (Nat.not_lt.2 h)

theorem copyRegister_out_of_range (h : n ≤ i) (j : Nat) :
    f.copyRegister i j = .error .registerFileError ∧ f.copyRegister j i = .error .registerFileError := by
  refine ⟨dif_neg (Nat.not_lt.2 h), ?_⟩
  unfold copyRegister
  split
  · exact dif_neg (Nat.not_lt.2 h)
  · rfl

theorem write_bad_length (hi : i < n) {bs : List Byte} (h : w / 8 < bs.length ∨ bs.length = 0) (signed : Bool) :
    f.write i bs signed = .error .registerError := by
  unfold write slotBytes
  rw [dif_pos hi]
  split_ifs with h1 h2
  · rfl
  · rfl
  · omega

/-- A value-view write fails exactly for an integer outside the range (R25). -/
theorem writeValue_error_iff (hi : i < n) (v : Int) (signed : Bool) :
    f.writeValue i v signed = .error .registerError ↔ inRange w v signed = false := by
  unfold writeValue
  rw [dif_pos hi]
  cases inRange w v signed <;> simp

end RegFile

/-- Settles O4. -/
theorem registerFileRefusesBadCalls : Obligations.RegisterFileRefusesBadCalls := by
  unfold Obligations.RegisterFileRefusesBadCalls
  intro w n f i signed hw
  refine ⟨fun h => ⟨dif_neg (Nat.not_lt.2 h), dif_neg (Nat.not_lt.2 h), fun bs => f.write_out_of_range h bs signed,
    fun v => f.writeValue_out_of_range h v signed, f.copyRegister_out_of_range h⟩, fun hi v => ⟨?_, ?_⟩⟩
  all_goals
    rw [f.writeValue_error_iff hi]
    simp only [RegFile.inRange, Bool.false_eq_true, if_true, if_false, decide_eq_false_iff_not, not_and_or, not_le,
      not_lt]

/-- Settles O1. -/
theorem registerFileByteViewWrite : Obligations.RegisterFileByteViewWrite := by
  unfold Obligations.RegisterFileByteViewWrite
  intro w n f i bs signed hw
  have h8 : 8 ∣ w := by obtain rfl | rfl := hw <;> decide
  refine ⟨fun h => f.write_out_of_range h bs signed, fun hi h => f.write_bad_length hi h signed, fun hi h0 hle => ?_⟩
  refine ⟨_, f.write_fin ⟨i, hi⟩ signed h0 hle, rfl, ?_, fun j hj => ?_⟩
  · rw [RegFile.slot_setSlot_same, RegFile.extendValue_eq h8 f.endian bs signed h0 hle]
  · exact RegFile.slot_setSlot_ne f _ fun h => hj (congrArg Fin.val h).symm

/-- Settles O2: a full-width write extends by nothing, so the slot is the buffer's value, and `bytes_E` gives it back. -/
theorem registerFileViewsAgree : Obligations.RegisterFileViewsAgree := by
  unfold Obligations.RegisterFileViewsAgree
  intro w n f i hw hi
  have h8 : 8 * (w / 8) = w := by obtain rfl | rfl := hw <;> rfl
  refine ⟨fun bs signed hlen => ?bytes, fun v hv => ?value⟩
  case bytes =>
    have hval : valOf f.endian bs < 2 ^ w := by
      have := valOf_lt f.endian bs
      rwa [hlen, h8] at this
    have hslot : RegFile.extendValue w f.endian bs signed = BitVec.ofNat w (valOf f.endian bs) := by
      cases hend : f.endian <;> simp [RegFile.extendValue, RegFile.extend, RegFile.slotBytes, hlen, valOf]
    have hpos : 0 < bs.length := by omega
    refine ⟨_, f.write_fin ⟨i, hi⟩ signed hpos hlen.le, ?_, ?_⟩
    · rw [RegFile.readValue_fin _ ⟨i, hi⟩, RegFile.slot_setSlot_same, hslot, BitVec.toNat_ofNat, Nat.mod_eq_of_lt hval]
      rfl
    · rw [RegFile.read_fin _ ⟨i, hi⟩, RegFile.slot_setSlot_same, hslot, BitVec.toNat_ofNat, Nat.mod_eq_of_lt hval, ← hlen,
        RegFile.endian_setSlot, bytesOf_valOf]
  case value =>
    have hv' : (BitVec.ofNat w v).toNat = v := by rw [BitVec.toNat_ofNat, Nat.mod_eq_of_lt hv]
    have hwrite := f.writeValue_toNat ⟨i, hi⟩ (BitVec.ofNat w v)
    rw [hv'] at hwrite
    refine ⟨_, hwrite, ?_⟩
    rw [RegFile.read_fin _ ⟨i, hi⟩, RegFile.slot_setSlot_same, hv', RegFile.endian_setSlot]

/-! ### Host calls of the memory and of regions -/

/-- Settles O10: the checks stand in front of the lookup, in the order size, alignment, length. -/
theorem hostAccessChecks : Obligations.HostAccessChecks := by
  unfold Obligations.HostAccessChecks
  intro m addr size data
  simp only [← Memory.validSize_iff]
  refine ⟨fun hv => ?size, fun hv ha => ?alignment, fun hv ha hl => ?length⟩
  case size => simp [Memory.read, Memory.write, hv]
  case alignment => simp [Memory.read, Memory.write, hv, ha]
  case length => simp [Memory.write, hv, ha, hl]

/-- Settles O18: each operation is decided by the variant, the sizes, and where the first region ends. -/
theorem regionOperations : Obligations.RegionOperations := by
  unfold Obligations.RegionOperations
  refine ⟨fun r k => ⟨fun hn => ?grow, fun hn => ?device, fun hk => ?shrink, rfl, rfl⟩,
    fun a b => ⟨fun ha hb hab => ?merge, ?apart⟩⟩
  case grow => simp [Region.resize, Region.expandRegion, Region.resizable, hn]
  case device => simp [Region.resize, Region.expandRegion, Region.resizable, hn]
  case shrink => simp [Region.resize, hk]
  case merge =>
    exact ⟨{ start := a.start, size := a.size + b.size, backing := .normal (a.cells ++ b.cells) },
      by simp [Region.merge, Region.mergeable, ha, hb, hab], rfl, rfl, rfl, rfl⟩
  case apart =>
    intro h
    have hno : (a.mergeable && b.mergeable && decide (a.stop = b.start)) = false := by
      simpa [Region.mergeable, and_assoc] using h
    simp [Region.merge, hno]

/-- Settles O19: the predicates are inequalities between the ends of two non-empty intervals. -/
theorem regionGeometry : Obligations.RegionGeometry := by
  unfold Obligations.RegionGeometry
  intro a b ha hb
  refine ⟨fun h => ?overlapping, fun h => ?disjoint, ?symmetric, fun h => ?adjacent⟩
  case symmetric => exact decide_eq_decide.2 and_comm
  all_goals
    simp only [Region.isOverlap, Region.overlapsRange, Region.isLowerThan, Region.isHigherThan, Region.isAlignLower,
      Region.isAlignHigher, decide_eq_true_eq, decide_eq_false_iff_not] at h ⊢
    unfold Region.stop at *
    omega

/-- Settles O39. -/
theorem resetState : Obligations.ResetState := by
  unfold Obligations.ResetState
  refine ⟨by decide, by decide, rfl, rfl, rfl, rfl, rfl, rfl, rfl, rfl⟩

end Sys2Proof.Machine
end

section
/-! PROOFS. The launch (spec/70_reset_and_hazards.md rule R390, steps 1 to 5): the devices added, then the image loaded write
by write. -/

namespace Sys2Proof.Machine

/-! ### Which addresses hold a byte -/

namespace Memory

variable {m m' : Memory} {addr size : Nat} {data : List Byte}

/-- An address holds a byte exactly where a NormalRegion covers it. -/
theorem wf.isSome_byteAt_iff (h : m.wf) {a : Nat} :
    (m.byteAt a).isSome = true ↔ ∃ q ∈ m.regions, q.isNormal = true ∧ q.start ≤ a ∧ a < q.stop := by
  rw [← not_iff_not, Bool.not_eq_true, Option.isSome_eq_false_iff, Option.isNone_iff_eq_none, h.byteAt_eq_none_iff]
  simp only [not_exists, not_and, not_lt, or_iff_not_imp_left]

/-- Putting bytes in a region backs no address and frees none. -/
theorem Puts.isSome_byteAt (hp : m.Puts m' addr data) (h : m.wf) (a : Nat) :
    (m'.byteAt a).isSome = (m.byteAt a).isSome := by
  have hback {n : Memory} (hn : n.wf) : (n.byteAt a).isSome = true ↔
      ∃ t ∈ n.regions.map (fun q => (q.start, q.size, q.isNormal)), t.2.2 = true ∧ t.1 ≤ a ∧ a < t.1 + t.2.1 := by
    simp [hn.isSome_byteAt_iff, Region.stop]
  rw [Bool.eq_iff_iff, hback hp.wf, hback h, hp.shape]

theorem wf.same_granule_iff (h : m.wf) {a : Nat} : a / m.regionSize = addr / m.regionSize ↔
    m.granuleStart addr ≤ a ∧ a < m.granuleStart addr + m.regionSize := by
  rw [Nat.div_eq_iff h.granule_pos, granuleStart_eq, Nat.mul_comm]
  have := h.granule_pos
  omega

/-- On granules, a completed write to plain bytes backs the granule of its address, and no more. -/
theorem granular.isSome_byteAt_write (hg : m.granular) (h : m.wf) (hm : m.write addr size data = .ok m')
    (hn : ∀ r, m.findRegion addr size = some r → r.isNormal = true) (a : Nat) :
    (m'.byteAt a).isSome = true ↔ (m.byteAt a).isSome = true ∨ a / m.regionSize = addr / m.regionSize := by
  rw [h.same_granule_iff]
  obtain ⟨rfl, ⟨r, name, hf, hb, -⟩ | ⟨⟨r, hf, hnr⟩, hp⟩ | ⟨-, m1, hal, hp⟩⟩ := h.write_effect hm
  · exact absurd (hn r hf) (by rw [isNormal_of_backing_mmio hb]; decide)
  · rw [hp.isSome_byteAt h, or_iff_left_of_imp]
    intro hin
    obtain ⟨hr, hlo, hhi⟩ := find_region_spec hf
    have hstart := h.start_le_granuleStart hr hlo
    have hpos : 0 < data.length := by
      obtain ⟨hv, -⟩ := write_cases hm
      exact Nat.pos_of_ne_zero fun h0 => by rw [h0] at hv; cases hv
    have hle := m.granuleStart_le addr
    have hend := hg.granuleEnd_le_stop h hr hnr (a := addr) (by omega)
    exact h.isSome_byteAt_iff.2 ⟨r, hr, hnr, by omega, by omega⟩
  · obtain ⟨lo, -, -, hb, hlo⟩ := h.backs_allocate hal
    obtain rfl := hlo hg
    rw [hp.isSome_byteAt hb.wf, Option.isSome_iff_exists, Option.isSome_iff_exists]
    simp only [hb.bytes, exists_or, exists_and_left, exists_eq, and_true]
    exact or_comm

theorem wf.devices_write (h : m.wf) (hm : m.write addr size data = .ok m') :
    m'.regions.filter (fun r => !r.isNormal) = m.regions.filter (fun r => !r.isNormal) := by
  obtain ⟨-, ⟨r, name, -, -, rfl⟩ | ⟨-, hp⟩ | ⟨-, m1, hal, hp⟩⟩ := h.write_effect hm
  · rfl
  · exact hp.devices
  · obtain ⟨lo, -, -, hb, -⟩ := h.backs_allocate hal
    exact hp.devices.trans hb.devices

/-- A completed write to plain bytes calls no device and leaves its data at its addresses. -/
theorem wf.plain_write (h : m.wf) (hm : m.write addr size data = .ok m')
    (hn : ∀ r, m.findRegion addr size = some r → r.isNormal = true) :
    m'.calls = m.calls ∧ data.length = size ∧ ∀ k, k < size → m'.byteAt (addr + k) = data[k]? := by
  obtain ⟨rfl, ⟨r, name, hf, hb, -⟩ | ⟨-, hp⟩ | ⟨-, m1, hal, hp⟩⟩ := h.write_effect hm
  · exact absurd (hn r hf) (by rw [isNormal_of_backing_mmio hb]; decide)
  · exact ⟨hp.calls, rfl, hp.inside⟩
  · obtain ⟨lo, -, -, hb, -⟩ := h.backs_allocate hal
    exact ⟨hp.calls.trans hb.calls, rfl, hp.inside⟩

end Memory

/-! ### Step 2: the devices -/

theorem MmioSpec.region_cellsWf (d : MmioSpec) : CellsWf d.region.start d.region.stop d.region.cells := by
  simp [CellsWf, MmioSpec.region, Region.cells]

/-- Adding devices to a memory adds their regions, each as it is. -/
theorem addDevices_effect {ds : List MmioSpec} {m m' : Memory} (h : m.wf) (hm : addDevices m ds = .ok m') :
    m'.wf ∧ SameConfig m m' ∧ m'.calls = m.calls ∧ ∀ r, r ∈ m'.regions ↔ r ∈ m.regions ∨ ∃ d ∈ ds, r = d.region := by
  induction ds generalizing m with
  | nil =>
    cases hm
    exact ⟨h, ⟨rfl, rfl, rfl⟩, rfl, by simp⟩
  | cons d ds ih =>
    unfold addDevices at hm
    split at hm
    case h_2 => cases hm
    case h_1 m1 hadd =>
      obtain ⟨hwf1, hc1⟩ := Memory.addRegion_wf h d.region_cellsWf hadd
      obtain ⟨hwf, hc, hcalls, hregions⟩ := ih hwf1 hm
      obtain ⟨-, rfl⟩ := (Memory.addRegion_ok_iff m d.region m1).1 hadd
      have hsep : ∀ e ∈ m.regions, Memory.absorbs d.region e = false := fun e _ => by
        simp [Memory.absorbs, MmioSpec.region, Region.mergeable, Region.isNormal]
      refine ⟨hwf, ⟨hc.1.trans hc1.1, hc.2.1.trans hc1.2.1, hc.2.2.trans hc1.2.2⟩, hcalls, fun r => ?_⟩
      simp only [hregions, Memory.insertRegion_separate hsep, mem_insertSorted_iff, List.mem_cons, exists_eq_or_imp]
      tauto

/-! ### Step 3: the image -/

/-- The device call an image write makes, if a device takes it. -/
def LaunchParams.callOf (p : LaunchParams) (w : ImageWrite) : Option DeviceCall :=
  (p.deviceOf w).map fun d => { device := d.name, kind := .write, addr := w.addr, size := w.size, bytes := w.data }

/-- The device regions of the memory are those of the launch parameters. -/
def LaunchParams.HasDevices (p : LaunchParams) (m : Memory) : Prop :=
  ∀ r : Region, r ∈ m.regions ∧ r.isNormal = false ↔ ∃ d ∈ p.devices, r = d.region

/-- What the memory holds once the writes `ws` of the image are loaded. -/
structure Loaded (p : LaunchParams) (ws : List ImageWrite) (m : Memory) : Prop where
  wf       : m.wf
  granular : m.granular
  config   : m.memoryStart = p.memStart ∧ m.memorySize = p.memSize ∧ m.regionSize = p.granule
  devices  : p.HasDevices m
  stored   : ∀ (before after : List ImageWrite) (w : ImageWrite), ws = before ++ w :: after → p.deviceOf w = none →
    w.data.length = w.size ∧
    ∀ k, k < w.size → (∀ v ∈ after, w.addr + k < v.addr ∨ v.addr + v.size ≤ w.addr + k) →
      m.byteAt (w.addr + k) = w.data[k]?
  backed   : ∀ a, (m.byteAt a).isSome = true ↔ ∃ w ∈ ws, p.deviceOf w = none ∧ a / p.granule = w.addr / p.granule
  zero     : ∀ a, (∀ w ∈ ws, a < w.addr ∨ w.addr + w.size ≤ a) → m.byteAt a = none ∨ m.byteAt a = some 0#8
  calls    : m.calls = ws.filterMap p.callOf

section
variable {p : LaunchParams} {m m' : Memory} {w : ImageWrite}

theorem MmioSpec.holds_of_deviceOf {d : MmioSpec} (hd : p.deviceOf w = some d) :
    d ∈ p.devices ∧ d.region.start ≤ w.addr ∧ w.addr + w.size ≤ d.region.stop :=
  ⟨List.mem_of_find?_eq_some hd, by simpa [Region.holds] using List.find?_some hd⟩

theorem LaunchParams.HasDevices.findRegion_of_deviceOf (hdev : p.HasDevices m) (h : m.wf) (hs : 0 < w.size) {d : MmioSpec}
    (hd : p.deviceOf w = some d) : m.findRegion w.addr w.size = some d.region := by
  obtain ⟨hmem, hin⟩ := MmioSpec.holds_of_deviceOf hd
  exact (h.findRegion_eq_some_iff hs).2 ⟨((hdev d.region).2 ⟨d, hmem, rfl⟩).1, hin⟩

theorem LaunchParams.HasDevices.isNormal_of_deviceOf_none (hdev : p.HasDevices m) (hd : p.deviceOf w = none) {r : Region}
    (hf : m.findRegion w.addr w.size = some r) : r.isNormal = true := by
  obtain ⟨hr, hin⟩ := find_region_spec hf
  by_contra hn
  obtain ⟨d, hmem, rfl⟩ := (hdev r).1 ⟨hr, Bool.eq_false_iff.2 hn⟩
  exact List.find?_eq_none.1 hd d hmem (by simpa [Region.holds] using hin)

theorem LaunchParams.HasDevices.write (hdev : p.HasDevices m) (h : m.wf) {addr size : Nat} {data : List Byte}
    (hm : m.write addr size data = .ok m') : p.HasDevices m' := by
  intro r
  have hr {n : Memory} : r ∈ n.regions ∧ r.isNormal = false ↔ r ∈ n.regions.filter fun q => !q.isNormal := by simp
  rw [← hdev r, hr, hr, h.devices_write hm]

/-- An image write makes the call of the device that takes it, if one does. -/
theorem LaunchParams.HasDevices.calls_write (hdev : p.HasDevices m) (h : m.wf)
    (hm : m.write w.addr w.size w.data = .ok m') : m'.calls = m.calls ++ (p.callOf w).toList := by
  obtain ⟨hv, hal, hlen, -⟩ := Memory.write_cases hm
  rw [Memory.validSize_iff, ← hlen] at hv
  rw [← hlen] at hal
  unfold callOf
  cases hd : p.deviceOf w with
  | none =>
    obtain ⟨hcalls, -⟩ := h.plain_write hm fun r hf => hdev.isNormal_of_deviceOf_none hd hf
    simpa using hcalls
  | some d =>
    have hpos : 0 < w.size := hlen ▸ Nat.pos_of_ne_zero fun h0 => by simp [h0] at hv
    have hf := hdev.findRegion_of_deviceOf h hpos hd
    rw [← hlen] at hf hm
    rw [Memory.write_of_findRegion_device hv hal hf (name := d.name) rfl] at hm
    cases hm
    simp [Memory.deviceWrite, hlen]

/-- An image write backs the granule of its address, unless a device takes it. -/
theorem LaunchParams.HasDevices.isSome_byteAt_write (hdev : p.HasDevices m) (h : m.wf) (hg : m.granular)
    (hm : m.write w.addr w.size w.data = .ok m') (a : Nat) : (m'.byteAt a).isSome = true ↔
      (m.byteAt a).isSome = true ∨ (p.deviceOf w = none ∧ a / m.regionSize = w.addr / m.regionSize) := by
  cases hd : p.deviceOf w with
  | none => simpa using hg.isSome_byteAt_write h hm (fun r hf => hdev.isNormal_of_deviceOf_none hd hf) a
  | some d =>
    obtain ⟨-, ⟨r, name, -, -, rfl⟩ | ⟨⟨r, hf, hn⟩, -⟩ | ⟨hnone, -⟩⟩ := h.write_effect hm
    · simp [Memory.byteAt, Memory.findRegion, Memory.deviceWrite]
    all_goals
      obtain ⟨hv, -⟩ := Memory.write_cases hm
      have hpos : 0 < w.size := Nat.pos_of_ne_zero fun h0 => by rw [h0] at hv; cases hv
      have hfd := hdev.findRegion_of_deviceOf h hpos hd
    · cases hf.symm.trans hfd
      cases hn
    · cases hnone.symm.trans hfd

end

/-- Where a list with one more element is split around an element, it is the new one or one of the old list. -/
theorem concat_split {α : Type} {xs before after : List α} {x y : α} (h : xs ++ [x] = before ++ y :: after) :
    (x = y ∧ after = []) ∨ ∃ rest, after = rest ++ [x] ∧ xs = before ++ y :: rest := by
  obtain rfl | ⟨rest, z, rfl⟩ := List.eq_nil_or_concat after
  · obtain ⟨-, hx⟩ := List.append_inj' h rfl
    exact .inl ⟨(List.cons.inj hx).1, rfl⟩
  · rw [List.concat_eq_append, ← List.cons_append, ← List.append_assoc] at h
    obtain ⟨hxs, hx⟩ := List.append_inj' h rfl
    obtain rfl := (List.cons.inj hx).1
    exact .inr ⟨rest, List.concat_eq_append, hxs⟩

theorem Loaded.write {p : LaunchParams} {ws : List ImageWrite} {m m' : Memory} {w : ImageWrite} (hl : Loaded p ws m)
    (hm : m.write w.addr w.size w.data = .ok m') : Loaded p (ws ++ [w]) m' := by
  obtain ⟨hwf, hstart, hsize, hgran⟩ := Memory.write_wf hl.wf hm
  have hout := writeLeavesOtherBytes m m' w.addr w.size w.data hl.wf hm
  refine {
    wf := hwf
    granular := hl.granular.write hl.wf hm
    config := by rw [hstart, hsize, hgran]; exact hl.config
    devices := hl.devices.write hl.wf hm
    stored := fun before after v hsplit hv => ?stored
    backed := fun a => ?backed
    zero := fun a hno => ?zero
    calls := ?calls }
  case stored =>
    obtain ⟨rfl, rfl⟩ | ⟨rest, rfl, hws⟩ := concat_split hsplit
    · obtain ⟨-, hlen, hbytes⟩ := hl.wf.plain_write hm fun r hf => hl.devices.isNormal_of_deviceOf_none hv hf
      exact ⟨hlen, fun k hk _ => hbytes k hk⟩
    · obtain ⟨hlen, hbytes⟩ := hl.stored before rest v hws hv
      refine ⟨hlen, fun k hk hlater => ?_⟩
      have hold := hbytes k hk fun u hu => hlater u (by simp [hu])
      obtain hsame | ⟨hnone, -⟩ := hout (v.addr + k) (hlater w (by simp))
      · rw [hsame, hold]
      · rw [hold, List.getElem?_eq_none_iff] at hnone
        omega
  case backed =>
    rw [hl.devices.isSome_byteAt_write hl.wf hl.granular hm, hl.backed, hl.config.2.2]
    simp [or_and_right, exists_or]
  case zero =>
    obtain hsame | ⟨-, hzero, -⟩ := hout a (hno w (by simp))
    · rw [hsame]
      exact hl.zero a fun v hv => hno v (by simp [hv])
    · exact .inr hzero
  case calls =>
    rw [hl.devices.calls_write hl.wf hm, hl.calls, List.filterMap_append]
    cases hc : p.callOf w <;> simp [hc]

theorem loadImage_loaded {p : LaunchParams} {ws rest : List ImageWrite} {m m' : Memory} (hl : Loaded p ws m)
    (hm : loadImage m rest = .ok m') : Loaded p (ws ++ rest) m' := by
  induction rest generalizing ws m with
  | nil =>
    cases hm
    rwa [List.append_nil]
  | cons w rest ih =>
    unfold loadImage at hm
    split at hm
    case h_2 => cases hm
    case h_1 m1 hw => simpa using ih (hl.write hw) hm

/-- After steps 1 and 2 the memory holds the devices and no byte. -/
theorem addDevices_loaded {p : LaunchParams} {m0 m1 : Memory}
    (h0 : Memory.construct p.memStart p.memSize p.granule = .ok m0) (h1 : addDevices m0 p.devices = .ok m1) :
    Loaded p [] m1 := by
  obtain ⟨hwf0, -⟩ := Memory.construct_wf h0
  obtain ⟨hwf, ⟨hstart, hsize, hgran⟩, hcalls, hregions⟩ := addDevices_effect hwf0 h1
  unfold Memory.construct at h0
  split at h0
  case isFalse => cases h0
  case isTrue =>
    cases h0
    have hdev : ∀ r ∈ m1.regions, r.isNormal = false := fun r hr => by
      obtain ⟨d, -, rfl⟩ := ((hregions r).1 hr).resolve_left (by simp)
      rfl
    have hnone : ∀ a, m1.byteAt a = none := fun a =>
      hwf.byteAt_eq_none_iff.2 fun q hq hn => absurd hn (by simp [hdev q hq])
    exact {
      wf := hwf
      granular := fun r hr hn => absurd hn (by simp [hdev r hr])
      config := ⟨hstart, hsize, hgran⟩
      devices := fun r => ⟨fun ⟨hr, _⟩ => by simpa using (hregions r).1 hr, fun hd =>
        have hr := (hregions r).2 (.inr hd)
        ⟨hr, hdev r hr⟩⟩
      stored := by simp
      backed := by simp [hnone]
      zero := fun a _ => .inl (hnone a)
      calls := hcalls }

/-! ### Steps 4 and 5: the registers -/

theorem launchRegs_slot (p : LaunchParams) {r : Reg} (h : r ≠ 0) :
    (launchRegs p).slot (regSlot r) = p.initRegs[r.val] := by
  have hr : (0 : Nat) ≠ r.val := fun h0 => h (Fin.ext h0.symm)
  simp [launchRegs, RegFile.slot, regSlot, Vector.get_eq_getElem, hr]

theorem launch_cases {p : LaunchParams} {s : State} (h : launch p = .ok s) :
    ∃ m0 m1 m2, Memory.construct p.memStart p.memSize p.granule = .ok m0 ∧ addDevices m0 p.devices = .ok m1 ∧
      loadImage m1 p.image = .ok m2 ∧ s = { rf := launchRegs p, mem := m2, outcome := none } := by
  unfold launch at h
  split at h
  case h_1 => cases h
  case h_2 m0 h0 =>
    split at h
    case h_1 => cases h
    case h_2 m1 h1 =>
      split at h
      case h_1 => cases h
      case h_2 m2 h2 =>
        cases h
        exact ⟨m0, m1, m2, h0, h1, h2, rfl⟩

/-- Settles O41: the memory is followed write by write through the image. -/
theorem launchGivesTheLaunchState : Obligations.LaunchGivesTheLaunchState := by
  unfold Obligations.LaunchGivesTheLaunchState
  intro p s hs
  obtain ⟨m0, m1, m2, h0, h1, h2, rfl⟩ := launch_cases hs
  have hl : Loaded p p.image m2 := by simpa using loadImage_loaded (addDevices_loaded h0 h1) h2
  obtain ⟨hstart, hsize, hgran⟩ := hl.config
  refine ⟨hl.wf, hstart, hsize, hgran, hl.devices, hl.stored, hl.backed, hl.zero, hl.calls, fun r hr => ?_,
    ?_, ?_, rfl, rfl⟩
  · rw [State.x, zeroReg, if_neg hr]
    exact launchRegs_slot p hr
  · simp [launchRegs, RegFile.slot, Vector.get_eq_getElem]
  · simp [State.pc, pcSlot, launchRegs, RegFile.slot, Vector.get_eq_getElem]

end Sys2Proof.Machine
end
